-- ==== Sys2Proof/Word.lean ====
section
/-! DEFINITION. The instruction word, the byte, and the names of the six opcodes
(`spec/00_scope.md` R9, `spec/30_encoding.md` R80, R82). -/

namespace Sys2Proof

/-- An instruction word: `OPC_W + ARG_W` bits read as an unsigned number (R80). The widths are
parameters of the hardware (R7), so the bound `w < 2^(OPC_W + ARG_W)` is an invariant of the
machine (`State.Inv`) and not part of the type (log entry 1). -/
abbrev Word := Nat

/-- One byte of the input or output port: `IN_W = 8` bits (R161, R162). -/
abbrev Byte := BitVec 8

/-- The six operations (R82), in the order of the opcode map. -/
inductive Opcode where
  | changeValue
  | changePointer
  | get
  | put
  | branchIfZero
  | branchIfNotZero
  deriving DecidableEq, Repr

/-- `x` lies in `-2^(n-1) .. 2^(n-1)-1`, the range of a signed field of `n` bits (R9). -/
abbrev FitsSigned (n : Nat) (x : Int) : Prop :=
  -((2 ^ (n - 1) : Nat) : Int) ≤ x ∧ x < ((2 ^ (n - 1) : Nat) : Int)

/-- `x` lies in `0 .. 2^n-1`, the range of an unsigned field of `n` bits (R9). -/
abbrev FitsUnsigned (n : Nat) (x : Nat) : Prop := x < 2 ^ n

end Sys2Proof
end

