-- ==== Sys2Proof/Config.lean ====
section
/-! DEFINITION. The implementation parameters of `spec/00_scope.md` R7 as one configuration record,
their default column, and the constraints of R8. -/

namespace Sys2Proof

/-- The parameters of R7 and the construction constant `EOF_SENTINEL` (R28). A machine carries one
such record unchanged for its whole life; every rule reads its widths and limits from it.
`LEN_W` and the width of `rsp_info` are computed below, `IN_W = 8` is the type `Byte`, and
`HOST_MAP` (R34) assigns bus addresses this model has no use for. -/
structure Config where
  /-- `CELL_W`: width of a tape cell in bits. -/
  cellW : Nat
  /-- `ARG_W`: width of the argument field. -/
  argW : Nat
  /-- `OPC_W`: width of the code field. -/
  opcW : Nat
  /-- `PC_W`: width of the program counter. -/
  pcW : Nat
  /-- `CUR_W`: width of the cursor when `TAPE_LIMIT` is a number. -/
  curW : Nat
  /-- `INIT_CAP`: tape length after reset and after LOAD. -/
  initCap : Nat
  /-- `MAX_GROWTH`: the largest increment of one growth step. -/
  maxGrowth : Nat
  /-- `TAPE_LIMIT`: largest tape length, or `none` for the unbounded tape. -/
  tapeLimit : Option Nat
  /-- `PROG_LIMIT`: largest program length a LOAD may have. -/
  progLimit : Nat
  /-- `SCRATCH_INIT`: scratch capacity after reset and after LOAD. -/
  scratchInit : Nat
  /-- `EOF_SENTINEL`: the strap's integer; Get reduces it with `wrap_CELL_W` (R28). -/
  eofSentinel : Int
  deriving DecidableEq, Repr

/-- `LEN_W = CUR_W + 1` (R7, R24). -/
def Config.lenW (c : Config) : Nat := c.curW + 1

/-- The width of `ir` and of a stored word, `OPC_W + ARG_W` (R80). -/
def Config.wordW (c : Config) : Nat := c.opcW + c.argW

/-- The width of `ncur`, `max(CUR_W, ARG_W) + 2` (R30). -/
def Config.ncurW (c : Config) : Nat := max c.curW c.argW + 2

/-- The width of `rsp_info`, `max(CUR_W, ARG_W, PC_W) + 2` (R31). -/
def Config.infoW (c : Config) : Nat := max (max c.curW c.argW) c.pcW + 2

/-- The default column of R7. The parameters R7 leaves OPEN or per instance (`TAPE_LIMIT`,
`PROG_LIMIT`, `SCRATCH_INIT`, `EOF_SENTINEL`) have the values of log entry 2, a DESIGN CHOICE that
no statement rests on. -/
def Config.defaults : Config where
  cellW := 32
  argW := 32
  opcW := 8
  pcW := 32
  curW := 32
  initCap := 256
  maxGrowth := 65536
  tapeLimit := none
  progLimit := 4294967295
  scratchInit := 0
  eofSentinel := 0

/-- A number is an admissible `TAPE_LIMIT` when `INIT_CAP <= TAPE_LIMIT <= 2^CUR_W`; `none` always
is (R8). -/
def Config.limitOk (c : Config) : Bool :=
  match c.tapeLimit with
  | none => true
  | some l => decide (c.initCap ≤ l) && decide (l ≤ 2 ^ c.curW)

/-- The constraints of R8 (`1 <= INIT_CAP <= MAX_GROWTH`, `OPC_W >= 7`, the bounds of `TAPE_LIMIT`,
`PROG_LIMIT <= 2^PC_W - 1`), and that each field read as a signed number has at least its sign bit
(DEDUCED from R9, log entry 1). -/
def Config.wf (c : Config) : Bool :=
  decide (1 ≤ c.initCap) && decide (c.initCap ≤ c.maxGrowth) && decide (7 ≤ c.opcW)
    && decide (1 ≤ c.argW) && decide (1 ≤ c.cellW) && c.limitOk
    && decide (c.progLimit < 2 ^ c.pcW)

end Sys2Proof
end

