-- ==== Sys2Proof/Syntax.lean ====
section
/-! DEFINITION. The yabfi bytecode: one constructor per row of `spec/opcode_table.json`, in the
table's order, with the argument as `spec/30_encoding.md` R81 reads it. -/

namespace Sys2Proof

/-- The six instructions (R82). A signed argument is an integer, a repeat count a natural number. -/
inductive Instr where
  /-- `ChangeValue(d)`, "a signed delta" (R131). -/
  | changeValue (d : Int)
  /-- `ChangePointer(d)`, "a signed delta" (R135). -/
  | changePointer (d : Int)
  /-- `Get(n)`, "an unsigned repeat count" (R171). -/
  | get (n : Nat)
  /-- `Put(n)`, "an unsigned repeat count" (R174). -/
  | put (n : Nat)
  /-- `BranchIfZero(off)`, "a signed relative offset" (R151). -/
  | branchIfZero (off : Int)
  /-- `BranchIfNotZero(off)` (R152). -/
  | branchIfNotZero (off : Int)
  deriving DecidableEq, Repr

end Sys2Proof
end

