-- ==== Sys2Proof/WellFormed.lean ====
section
/-! DEFINITION. Which terms of `Instr` are instructions: the argument lies in the range of
`spec/30_encoding.md` R81. Nothing else is required (R84). -/

namespace Sys2Proof

/-- R81, column "range": `signed_ARG_W` for ChangeValue, ChangePointer and the branches,
`unsigned_ARG_W` for Get and Put. -/
def Instr.wellFormed (c : Config) : Instr → Bool
  | .changeValue d => decide (FitsSigned c.argW d)
  | .changePointer d => decide (FitsSigned c.argW d)
  | .get n => decide (FitsUnsigned c.argW n)
  | .put n => decide (FitsUnsigned c.argW n)
  | .branchIfZero off => decide (FitsSigned c.argW off)
  | .branchIfNotZero off => decide (FitsSigned c.argW off)

end Sys2Proof
end

