-- ==== Sys2Proof/Decode.lean ====
section
/-! DEFINITION. Bit fields, the opcode map, the total decoder and its inverse the encoder
(`spec/30_encoding.md` R80 to R86, `spec/00_scope.md` R9). -/

namespace Sys2Proof

/-- `v[hi:lo]` (R9): bits `hi` down to `lo` as an unsigned number. -/
def slice (hi lo v : Nat) : Nat := v / 2 ^ lo % 2 ^ (hi + 1 - lo)

/-- `signed_N(u)` (R9): the `n`-bit pattern `u` as a two's-complement integer. -/
def signedOf (n u : Nat) : Int :=
  if u < 2 ^ (n - 1) then (u : Int) else (u : Int) - ((2 ^ n : Nat) : Int)

/-- `x mod 2^N` (R9, floored): the `n`-bit pattern of an integer. -/
def patternOf (n : Nat) (x : Int) : Nat := (x % ((2 ^ n : Nat) : Int)).toNat

/-- The `code` field: the top `OPC_W` bits of a word (R80). -/
def codeOf (c : Config) (w : Word) : Nat := slice (c.wordW - 1) c.argW w

/-- The `arg` field: the low `ARG_W` bits of a word (R80). -/
def argOf (c : Config) (w : Word) : Nat := slice (c.argW - 1) 0 w

/-- `{code, arg}` (R9, R89): the code in the more significant bits. Each operand is cut to its
field, since a value that does not fit cannot be presented (R89). -/
def joinWord (c : Config) (code arg : Nat) : Word :=
  code % 2 ^ c.opcW * 2 ^ c.argW + arg % 2 ^ c.argW

/-- The code numbers of R82. -/
def Opcode.code : Opcode → Nat
  | .changeValue => 0
  | .changePointer => 1
  | .get => 2
  | .put => 3
  | .branchIfZero => 4
  | .branchIfNotZero => 5

/-- The opcode a code number selects; every other number selects none (R82, R83). -/
def Opcode.ofCode : Nat → Option Opcode
  | 0 => some .changeValue
  | 1 => some .changePointer
  | 2 => some .get
  | 3 => some .put
  | 4 => some .branchIfZero
  | 5 => some .branchIfNotZero
  | _ => none

/-- An opcode applied to its argument bits, read as R81 says. -/
def Opcode.apply (c : Config) (op : Opcode) (a : Nat) : Instr :=
  match op with
  | .changeValue => .changeValue (signedOf c.argW a)
  | .changePointer => .changePointer (signedOf c.argW a)
  | .get => .get a
  | .put => .put a
  | .branchIfZero => .branchIfZero (signedOf c.argW a)
  | .branchIfNotZero => .branchIfNotZero (signedOf c.argW a)

/-- What a word decodes to: an instruction, or `Invalid(c)` with the code it holds (R86). -/
inductive Decoded where
  | instr (i : Instr)
  | invalid (code : Nat)
  deriving DecidableEq, Repr

/-- `Decode(w)` (R86), total: the word alone decides (R85), and the argument of an illegal word is
ignored (R83). -/
def decode (c : Config) (w : Word) : Decoded :=
  match Opcode.ofCode (codeOf c w) with
  | some op => .instr (op.apply c (argOf c w))
  | none => .invalid (codeOf c w)

/-- The opcode of an instruction (R82). -/
def Instr.opcode : Instr → Opcode
  | .changeValue _ => .changeValue
  | .changePointer _ => .changePointer
  | .get _ => .get
  | .put _ => .put
  | .branchIfZero _ => .branchIfZero
  | .branchIfNotZero _ => .branchIfNotZero

/-- The argument of an instruction as an integer (R81). -/
def Instr.argument : Instr → Int
  | .changeValue d => d
  | .changePointer d => d
  | .get n => n
  | .put n => n
  | .branchIfZero off => off
  | .branchIfNotZero off => off

/-- `Encode(Mnemonic(x)) = {code, x mod 2^ARG_W}` (R86). -/
def encode (c : Config) (i : Instr) : Word :=
  joinWord c i.opcode.code (patternOf c.argW i.argument)

/-- The decoder on a word of the opcode table, in the default configuration the table is written
for. The hardware stores a word whole, in no byte order (R53, R89), so bit `k` of the table is bit
`k` of the word; `nbits` bits are given and the rest of the 40 are 0. A number that has a bit above
the word is no instruction word. -/
def decodeTableWord (nbits w : Nat) : Option Instr :=
  if w % 2 ^ nbits < 2 ^ Config.defaults.wordW then
    match decode Config.defaults (w % 2 ^ nbits) with
    | .instr i => some i
    | .invalid _ => none
  else none

end Sys2Proof
end

