-- ==== Sys2Proof/Machine/State.lean ====
section
/-! DEFINITION. The whole state of one core and of what stands at its ports, as plain data, the
reasons a step can stop, and the state after reset (`spec/10_state.md` R20 to R35). -/

namespace Sys2Proof.Machine

/-- The tape's contents (R25, R52): (cell index, cell value) pairs, the smallest addressable unit of
the tape space being one whole cell and not a byte. Canonical form: indices strictly rising, no
entry equal to `Memory.unlisted` (`Memory.wf` in Machine/Ops.lean). -/
abbrev Memory := List (Nat × Int)

/-- The sequencer's control state (R30, R118). -/
inductive Phase where
  | idle
  | loadRecv
  | loadCommit
  | fetch
  | decode
  | exCv
  | exCp
  | grow
  | exBr
  | exGet
  | exPut
  deriving DecidableEq, Repr

/-- The response kinds (R191): `OK` and the three fault kinds, a closed enumeration (R190). -/
inductive RspKind where
  | ok
  | invalidProgram
  | memoryOutOfBounds
  | invalidCommand
  deriving DecidableEq, Repr

/-- A response `(kind, info)` (R31, R192). `info` is recorded uncut, also where a code of R192 does not
fit the width R31 gives it (log entry 19, a DESIGN CHOICE). -/
structure Response where
  kind : RspKind
  info : Int
  deriving DecidableEq, Repr

/-- The answer of one poll of the input port (R170). -/
inductive InAnswer where
  | wait
  | eof
  | byte (b : Byte)
  deriving DecidableEq, Repr

/-- The input collaborator as the core meets it (R161, R170): the answers its next polls get, oldest
first, and the answer every poll gets once those are used up. Nothing constrains them (log entry 8). -/
structure InPort where
  script : List InAnswer
  standing : InAnswer
  deriving DecidableEq, Repr

/-- The output collaborator as the core meets it (R162, R175): whether `out_ready` is 1 at each of
the next offers of a byte, oldest first, and at every offer once those are used up (log entry 9). -/
structure OutPort where
  script : List Bool
  standing : Bool
  deriving DecidableEq, Repr

/-- One port transaction, as the collaborators see it (R112, R161, R162). -/
inductive PortEvent where
  /-- A poll that answered `EOF`. -/
  | pollEof
  /-- A poll that answered `BYTE(b)`. -/
  | pollByte (b : Byte)
  /-- `in_take`: the byte `b` just shown is consumed. -/
  | take (b : Byte)
  /-- `out_start` with `out_len = len`; `last` is `out_last`, asserted here only for `len = 0`. -/
  | outStart (len : Nat) (last : Bool)
  /-- One byte transferred; `last` is `out_last`. -/
  | outByte (b : Byte) (last : Bool)
  deriving DecidableEq, Repr

/-- One element of a LOAD on the port (R100, R101): `ld_code` and `ld_arg`, or `ld_malformed`, whose
fields are ignored. -/
inductive LoadElem where
  | pair (code arg : Nat)
  | malformed
  deriving DecidableEq, Repr

/-- A command the host presents (R101): `cmd_op` 0, 1, 2, and 3, which must not be presented. -/
inductive Command where
  | load (len : Nat)
  | execute
  | inspect
  | opThree
  deriving DecidableEq, Repr

/-- The INSPECT snapshot (R180); `cell` is absent exactly when `st_cell_valid = 0`. -/
structure Snapshot where
  cursor : Nat
  tapeLen : Nat
  pc : Nat
  cell : Option Int
  deriving DecidableEq, Repr

/-- What the core delivers to the host: a response (R195) or a snapshot (R180). -/
inductive Report where
  | response (r : Response)
  | snapshot (s : Snapshot)
  deriving DecidableEq, Repr

/-- The host as the core meets it (R101, R220): the level of `rst` at the next steps (0 once they are
used up); what it presents at the next steps that look for a command, and at the next that look for a
LOAD element, `none` where it presents nothing then (`cmd_valid` or `ld_valid` is 0), and nothing once
these are used up (log entry 20); all oldest first; and what has been delivered to it so far. -/
structure HostPort where
  rst : List Bool
  cmds : List (Option Command)
  elems : List (Option LoadElem)
  reports : List Report
  deriving DecidableEq, Repr

/-- The state of one core instance and of its ports. -/
structure State where
  /-- Parameters and straps (R7, R28); no step changes them. -/
  cfg : Config
  /-- The Instruction Store; `prog_len` is its length (R26). -/
  prog : List Word
  /-- The tape's cells (R25). -/
  tape : Memory
  /-- `tape_len` (R24). -/
  tapeLen : Nat
  /-- `cursor` (R23). -/
  cursor : Nat
  /-- `pc` (R22). -/
  pc : Nat
  /-- `scratch_cap` (R27). -/
  scratchCap : Nat
  /-- The scratch bytes written since the last LOAD or reset, from index 0. The bytes from there up
  to `scratch_cap` are unspecified and have no value here (R27, log entry 6). -/
  scratch : List Byte
  /-- `phase` (R30). -/
  phase : Phase
  /-- `ir`, the fetched word (R30). -/
  ir : Word
  /-- `rep`, iterations of a Get or bytes of a Put still to do (R30). -/
  rep : Nat
  /-- `ncur`, the candidate cursor (R30). -/
  ncur : Int
  /-- `last_rsp` (R31). -/
  lastRsp : Response
  /-- `N` of the LOAD in progress (R101, R104). -/
  ldLen : Nat
  /-- The staging store: the elements received so far (R103, R104). -/
  ldStage : List LoadElem
  /-- The input port. -/
  inp : InPort
  /-- The output port. -/
  out : OutPort
  /-- The host command port. -/
  host : HostPort
  /-- Every port transaction so far, oldest first (R33, R123). -/
  trace : List PortEvent
  deriving DecidableEq, Repr

/-- Why the machine stops with a fault. The spec's own three fault kinds are no stop: they are
responses, and the machine goes on in `IDLE` (R195, R196). -/
inductive Fault where
  /-- Raised by ChangeValue, Put, BranchIfZero and BranchIfNotZero when the arbiter blocks the read
  of the current cell because `cursor >= tape_len`. Safe: R56 says such a read returns no value, and
  no state that meets `State.Inv` has such a cursor there (log entry 11). -/
  | tapeAccessBlocked
  deriving DecidableEq, Repr

/-- Why the machine refuses. -/
inductive Refusal where
  /-- An instruction without a meaning in this model. Raised by no arm. Safe. -/
  | notModelled (mnemonic : String)
  /-- Raised by `IDLE` when the host presents `cmd_op = 3`: "the model gives it no move" (R101, U22).
  Safe. -/
  | commandCodeThree
  /-- Raised by `IDLE` when the host presents LOAD with `N > PROG_LIMIT`: "the model gives it no
  meaning (a refusal ...)" (R106, U23). Safe. -/
  | programTooLong
  deriving DecidableEq, Repr

/-- The state right after reset (R35), in the default configuration. `ir`, `rep`, `ncur` and the
staging registers, which the spec leaves unspecified, are 0 and empty (log entry 5); the parameters
the spec leaves open are those of `Config.defaults` (log entry 2); no command is pending, the input
answers `EOF` for ever and the output is always ready (log entries 8 and 9). -/
def State.reset : State where
  cfg := Config.defaults
  prog := []
  tape := []
  tapeLen := Config.defaults.initCap
  cursor := 0
  pc := 0
  scratchCap := Config.defaults.scratchInit
  scratch := []
  phase := .idle
  ir := 0
  rep := 0
  ncur := 0
  lastRsp := { kind := .ok, info := 0 }
  ldLen := 0
  ldStage := []
  inp := { script := [], standing := .eof }
  out := { script := [], standing := true }
  host := { rst := [], cmds := [], elems := [], reports := [] }
  trace := []

end Sys2Proof.Machine
end

