-- ==== Sys2Proof/Machine/Operands.lean ====
section
/-! DEFINITION. The operand forms: how an instruction's argument, a cell, a byte and the candidate
cursor are read as numbers and cut back to their widths (`spec/00_scope.md` R9,
`spec/20_memory.md` R53, `spec/30_encoding.md` R81). -/

namespace Sys2Proof.Machine

/-- `wrap_N(x)` (R9): the integer of `-2^(N-1) .. 2^(N-1)-1` congruent to `x` modulo `2^N`. -/
def wrap (n : Nat) (x : Int) : Int := signedOf n (patternOf n x)

/-- The argument of a fetched word read signed (R81). -/
def signedArg (c : Config) (w : Word) : Int := signedOf c.argW (argOf c w)

/-- The argument of a fetched word read as a repeat count (R81). -/
def countArg (c : Config) (w : Word) : Nat := argOf c w

/-- `wrap_CELL_W(v + d)`: the exact sum cut to a cell (R132). -/
def cellSum (c : Config) (v d : Int) : Int := wrap c.cellW (v + d)

/-- The byte Put sends for a cell: `v mod 256`, floored (R174). -/
def byteOfCell (v : Int) : Byte := BitVec.ofNat 8 (v % 256).toNat

/-- The value Get stores for an input byte: the byte zero-extended into the cell's low bits (R53,
R171), which is the integer `b` itself whenever `CELL_W > 8` (log entry 10). -/
def cellOfByte (c : Config) (b : Byte) : Int := wrap c.cellW (b.toNat : Int)

/-- The value Get stores on exhausted input: `EOF_SENTINEL` reduced with `wrap_CELL_W` (R28, R171). -/
def sentinelCell (c : Config) : Int := wrap c.cellW c.eofSentinel

/-- `ncur = cursor + d`, exact and signed (R136). -/
def candidateCursor (cursor : Nat) (d : Int) : Int := (cursor : Int) + d

end Sys2Proof.Machine
end

