-- ==== Sys2Proof/Machine/Flags.lean ====
section
/-! DEFINITION. There are no flags (`spec/10_state.md` R29): the branch resolver decides from the
opcode and the current cell (`spec/41_sequencer.md` R117), and its verdict enters the program
counter law (R116). -/

namespace Sys2Proof.Machine

/-- `Taken(op, v)` (R117): the zero test on the whole cell; no other opcode branches. -/
def taken (op : Opcode) (v : Int) : Bool :=
  match op with
  | .branchIfZero => decide (v = 0)
  | .branchIfNotZero => decide (v ≠ 0)
  | .changeValue => false
  | .changePointer => false
  | .get => false
  | .put => false

/-- `NextPc(pc, taken, off)` (R116): the exact sum modulo `2^PC_W`. -/
def nextPc (c : Config) (pc : Nat) (tk : Bool) (off : Int) : Nat :=
  patternOf c.pcW ((pc : Int) + (if tk then off else 1))

end Sys2Proof.Machine
end

