-- ==== Sys2Proof/Machine/Ops.lean ====
section
/-! DEFINITION. The named operations over the tape, the registers and the ports: tape access with the
bounds-check arbiter and growth (`spec/20_memory.md`), the program counter's one write per
instruction (`spec/41_sequencer.md` R116), the input and output primitives (`spec/44_io.md`), and
raising a fault and the way on from one (`spec/60_exceptions.md` R195, R198). -/

namespace Sys2Proof.Machine

/-! ### The tape as data -/

/-- What a cell that is not listed holds: 0 (R25, R60). -/
def Memory.unlisted : Int := 0

/-- The value of cell `i`. -/
def Memory.read : Memory → Nat → Int
  | [], _ => Memory.unlisted
  | (k, v) :: m, i => if k = i then v else Memory.read m i

/-- Cell `i` put before `m`, unless `v` is what an unlisted cell holds. -/
def Memory.cons (i : Nat) (v : Int) (m : Memory) : Memory :=
  if v = Memory.unlisted then m else (i, v) :: m

/-- Cell `i` set to `v`, in canonical form. -/
def Memory.write : Memory → Nat → Int → Memory
  | [], i, v => Memory.cons i v []
  | (k, w) :: m, i, v =>
    if i < k then Memory.cons i v ((k, w) :: m)
    else if i = k then Memory.cons i v m
    else (k, w) :: Memory.write m i v

/-- The cells below `n`. -/
def Memory.below (m : Memory) (n : Nat) : Memory := m.filter fun c => decide (c.1 < n)

/-- Canonical form from index `lo` on. -/
def Memory.wfFrom : Nat → Memory → Bool
  | _, [] => true
  | lo, (k, v) :: m =>
    decide (lo ≤ k) && decide (v ≠ Memory.unlisted) && Memory.wfFrom (k + 1) m

/-- The canonical form: indices strictly rising, no entry equal to what an unlisted cell holds. -/
def Memory.wf (m : Memory) : Bool := Memory.wfFrom 0 m

/-! ### Register writes -/

def setPc (v : Nat) (s : State) : State := { s with pc := v }
def setPhase (p : Phase) (s : State) : State := { s with phase := p }
def setIr (w : Word) (s : State) : State := { s with ir := w }
def setRep (n : Nat) (s : State) : State := { s with rep := n }
def setNcur (x : Int) (s : State) : State := { s with ncur := x }
def setCursor (i : Nat) (s : State) : State := { s with cursor := i }
def setTape (m : Memory) (n : Nat) (s : State) : State := { s with tape := m, tapeLen := n }
def setScratch (cap : Nat) (bytes : List Byte) (s : State) : State :=
  { s with scratchCap := cap, scratch := bytes }
def setProg (ws : List Word) (s : State) : State := { s with prog := ws }
def setLastRsp (r : Response) (s : State) : State := { s with lastRsp := r }
def setStage (n : Nat) (es : List LoadElem) (s : State) : State :=
  { s with ldLen := n, ldStage := es }
def setInp (p : InPort) (s : State) : State := { s with inp := p }
def setOut (p : OutPort) (s : State) : State := { s with out := p }
def setHost (h : HostPort) (s : State) : State := { s with host := h }
def emit (es : List PortEvent) (s : State) : State := { s with trace := s.trace ++ es }

/-! ### Access to the two spaces -/

/-- `TapeRead(i)` (R56): the arbiter returns no value when `i >= tape_len`. -/
def tapeRead (s : State) (i : Nat) : Option Int :=
  if i < s.tapeLen then some (s.tape.read i) else none

/-- `TapeWrite(i, v)` (R57): the arbiter writes nothing when `i >= tape_len` (R56). -/
def tapeWrite (i : Nat) (v : Int) (s : State) : State :=
  if i < s.tapeLen then setTape (s.tape.write i v) s.tapeLen s else s

/-- The current cell, `TapeRead(cursor)` (R52). -/
def readCurrent (s : State) : Option Int := tapeRead s s.cursor

/-- `TapeWrite(cursor, v)` (R52). -/
def writeCurrent (v : Int) (s : State) : State := tapeWrite s.cursor v s

/-- `ProgRead(pc)` after the termination test (R71, R113): no word when `pc >= prog_len`. -/
def fetchWord (s : State) : Option Word := s.prog[s.pc]?

/-! ### Program counter -/

/-- The one write of `pc` that ends an instruction (R116), and the way back to the next fetch. -/
def endInstr (tk : Bool) (off : Int) (s : State) : State :=
  setPhase .fetch (setPc (nextPc s.cfg s.pc tk off) s)

/-- The `+1` end of a non-branch instruction (R116). -/
def advance (s : State) : State := endInstr false 0 s

/-! ### Growth and the bounds-check arbiter -/

/-- The length after one growth step (R60): `len + min(len, MAX_GROWTH)`. -/
def grownLen (maxGrowth len : Nat) : Nat := len + min len maxGrowth

/-- At most `fuel` passes of the loop of R61. -/
def growLenLoop (maxGrowth : Nat) : Nat → Nat → Nat → Nat
  | 0, len, _ => len
  | fuel + 1, len, c =>
    if len ≤ c then growLenLoop maxGrowth fuel (grownLen maxGrowth len) c else len

/-- `GrowLen(len, c)` (R61). Each pass adds at least 1 when `len` and `MAX_GROWTH` do, so `c + 1`
passes are enough. -/
def growLen (maxGrowth len c : Nat) : Nat := growLenLoop maxGrowth (c + 1) len c

/-- The growth sequence of R24: `L0 = INIT_CAP`, `L(k+1) = L(k) + min(L(k), MAX_GROWTH)`. -/
def growthSeq (c : Config) : Nat → Nat
  | 0 => c.initCap
  | k + 1 => grownLen c.maxGrowth (growthSeq c k)

/-- The arbiter's four verdicts (R58). -/
inductive Verdict where
  | negative
  | overLimit
  | inside
  | grow
  deriving DecidableEq, Repr

/-- A length exceeds `TAPE_LIMIT` (R58); no length exceeds `none`. -/
def overLimit (c : Config) (len : Nat) : Bool :=
  match c.tapeLimit with
  | none => false
  | some l => decide (l < len)

/-- `BoundsCheck(ncur, tape_len)` (R58), its tests in the rule's order. -/
def boundsCheck (c : Config) (ncur : Int) (tapeLen : Nat) : Verdict :=
  if ncur < 0 then .negative
  else if overLimit c (growLen c.maxGrowth tapeLen ncur.toNat) then .overLimit
  else if ncur < tapeLen then .inside
  else .grow

/-- One growth step (R60): the old cells stay, the new region reads 0. -/
def growStep (s : State) : State :=
  setTape (s.tape.below s.tapeLen) (grownLen s.cfg.maxGrowth s.tapeLen) s

/-- At most `fuel` growth steps, while `cursor >= tape_len` (R61). -/
def growLoop : Nat → State → State
  | 0, s => s
  | fuel + 1, s => if s.tapeLen ≤ s.cursor then growLoop fuel (growStep s) else s

/-- Growth until the cursor is covered (R61, R135). -/
def growTape (s : State) : State := growLoop (s.cursor + 1) s

/-! ### Input port -/

/-- The answer poll number `k` from now gets (R170). -/
def InPort.answer (p : InPort) (k : Nat) : InAnswer := p.script.getD k p.standing

/-- The port after `k` polls. -/
def InPort.drop (p : InPort) (k : Nat) : InPort := { p with script := p.script.drop k }

/-- `InPoll()` (R170): the answer now. -/
def inPoll (s : State) : InAnswer := s.inp.answer 0

/-- The port moves on after a poll. -/
def polled (s : State) : State := setInp (s.inp.drop 1) s

/-- The port transactions of one Get iteration (R171): a poll, and a take if it showed a byte. A
poll that answers `WAIT` is no transaction (R119). -/
def InAnswer.events : InAnswer → List PortEvent
  | .wait => []
  | .eof => [.pollEof]
  | .byte b => [.pollByte b, .take b]

/-- What one Get iteration stores for an answer (R171); `WAIT` stores nothing. -/
def InAnswer.cell (c : Config) : InAnswer → Option Int
  | .wait => none
  | .eof => some (sentinelCell c)
  | .byte b => some (cellOfByte c b)

/-- One Get iteration with the answer now at the port, `n` iterations being left after it (R171, and
R118 from `EX_GET`). With `WAIT` only the port moves on: a hold (R119). -/
def getIteration (n : Nat) (s : State) : State :=
  match (inPoll s).cell s.cfg with
  | none => polled s
  | some v => writeCurrent v (setRep n (emit (inPoll s).events (polled s)))

/-- The iterations of a Get from `rep` on, up to its end or to the first `WAIT` (R171, R119). -/
def getRun : Nat → State → State
  | 0, s => advance (setRep 0 s)
  | n + 1, s =>
    match inPoll s with
    | .wait => setPhase .exGet (setRep (n + 1) (polled s))
    | .eof => getRun n (getIteration n s)
    | .byte _ => getRun n (getIteration n s)

/-! ### Output port -/

/-- `out_ready` at offer number `k` from now (R162). -/
def OutPort.ready (p : OutPort) (k : Nat) : Bool := p.script.getD k p.standing

/-- The port after `k` offers. -/
def OutPort.drop (p : OutPort) (k : Nat) : OutPort := { p with script := p.script.drop k }

/-- `out_ready` now. -/
def outReady (s : State) : Bool := s.out.ready 0

/-- The port moves on after an offer. -/
def offered (s : State) : State := setOut (s.out.drop 1) s

/-- "if n > scratch_cap: scratch_cap <- n", the old contents discarded (R174, R27). -/
def growScratch (n : Nat) (s : State) : State :=
  if s.scratchCap < n then setScratch n [] s else s

/-- "scratch[i] <- b for 0 <= i < n" (R174). -/
def fillScratch (n : Nat) (b : Byte) (s : State) : State :=
  setScratch s.scratchCap (List.replicate n b ++ s.scratch.drop n) s

/-- A Put of `n` bytes begins (R118 from `DECODE`): `rep`, the scratch buffer, `out_start`. -/
def beginPut (n : Nat) (s : State) : State :=
  let s1 := emit [.outStart n (decide (n = 0))] (growScratch n (setRep n s))
  match readCurrent s1 with
  | none => s1
  | some v => fillScratch n (byteOfCell v) s1

/-- One byte of value `v`'s low 8 bits is transferred, `n` bytes being left after it (R118 from
`EX_PUT`, R175). -/
def sendByte (n : Nat) (v : Int) (s : State) : State :=
  setRep n (emit [.outByte (byteOfCell v) (decide (n = 0))] (offered s))

/-- The bytes of a Put from `rep` on, up to its end or to the first offer the collaborator is not
ready for (R174, R119). -/
def putRun : Nat → State → Host.Outcome State Fault Refusal
  | 0, s => .next (advance (setRep 0 s))
  | n + 1, s =>
    match readCurrent s with
    | none => .fault .tapeAccessBlocked
    | some v =>
      if outReady s then putRun n (sendByte n v s)
      else .next (setPhase .exPut (setRep (n + 1) (offered s)))

/-! ### Responses, faults, reset -/

/-- "respond X" (R118): `last_rsp <- X`, deliver X, `phase <- IDLE`. -/
def respond (r : Response) (s : State) : State :=
  { s with
    phase := .idle, lastRsp := r
    host := { s.host with reports := s.host.reports ++ [.response r] } }

/-- Fault entry, `raise K(info)` (R195): nothing of the state is written but `last_rsp`; the response
goes to the host and the core is quiescent again. `pc` still indexes the instruction (R194). -/
def raiseFault (k : RspKind) (info : Int) (s : State) : State := respond { kind := k, info := info } s

/-- The way on from a fault, and every start of a run (R198, R110): an accepted EXECUTE goes to the
next fetch from the state as it stands. There is nothing to restore. -/
def resumeRun (s : State) : State := setPhase .fetch s

/-- Normal termination (R113). -/
def endRun (s : State) : State := respond { kind := .ok, info := 0 } s

/-- The architectural and hidden state a successful LOAD leaves (R102). -/
def freshLoad (ws : List Word) (s : State) : State :=
  { s with
    prog := ws, tape := [], tapeLen := s.cfg.initCap, cursor := 0, pc := 0
    scratchCap := s.cfg.scratchInit, scratch := [] }

/-- `rst` asserted (R220, R35): the state of an empty LOAD, and the control registers. The straps, the
ports and what was delivered stay (R221). `ir`, `rep`, `ncur` are unspecified there; 0 is log entry
5's choice. -/
def assertReset (s : State) : State :=
  { freshLoad [] s with
    phase := .idle, ir := 0, rep := 0, ncur := 0, lastRsp := { kind := .ok, info := 0 }
    ldLen := 0, ldStage := [] }

end Sys2Proof.Machine
end

