-- ==== Sys2Proof/Machine/Branch.lean ====
section
/-! DEFINITION. BranchIfZero and BranchIfNotZero (`spec/43_branch.md`). -/

namespace Sys2Proof.Machine

/-- A branch resolved on the current cell (R117, R116). -/
def resolveBranch (op : Opcode) (off : Int) (s : State) : Host.Outcome State Fault Refusal :=
  match readCurrent s with
  | none => .fault .tapeAccessBlocked
  | some v => .next (endInstr (taken op v) off s)

/-- BranchIfZero(off) (R151). -/
def execBranchIfZero (off : Int) (s : State) : Host.Outcome State Fault Refusal :=
  resolveBranch .branchIfZero off s

/-- BranchIfNotZero(off) (R152). -/
def execBranchIfNotZero (off : Int) (s : State) : Host.Outcome State Fault Refusal :=
  resolveBranch .branchIfNotZero off s

end Sys2Proof.Machine
end

