-- ==== Sys2Proof/Machine/CellPointer.lean ====
section
/-! DEFINITION. ChangeValue and ChangePointer (`spec/42_cell_pointer.md`). -/

namespace Sys2Proof.Machine

/-- ChangeValue(d) (R131). -/
def execChangeValue (d : Int) (s : State) : Host.Outcome State Fault Refusal :=
  match readCurrent s with
  | none => .fault .tapeAccessBlocked
  | some v => .next (advance (writeCurrent (cellSum s.cfg v d) s))

/-- The move of a ChangePointer whose candidate is in `ncur` (R135): the verdict comes before any
write. -/
def movePointer (s : State) : State :=
  match boundsCheck s.cfg s.ncur s.tapeLen with
  | .negative => raiseFault .memoryOutOfBounds s.ncur s
  | .overLimit => raiseFault .memoryOutOfBounds s.ncur s
  | .inside => advance (setCursor s.ncur.toNat s)
  | .grow => advance (growTape (setCursor s.ncur.toNat s))

/-- ChangePointer(d) (R135, R136, R137). -/
def execChangePointer (d : Int) (s : State) : Host.Outcome State Fault Refusal :=
  .next (movePointer (setNcur (candidateCursor s.cursor d) s))

end Sys2Proof.Machine
end

