-- ==== Sys2Proof/Machine/Io.lean ====
section
/-! DEFINITION. Get and Put (`spec/44_io.md`). Each runs to its end or to the point where a
collaborator holds it (`spec/41_sequencer.md` R119); a held instruction goes on in `EX_GET` or
`EX_PUT` at the next step. -/

namespace Sys2Proof.Machine

/-- Get(n) (R171): `n` answers, the last write persists (R173). -/
def execGet (n : Nat) (s : State) : Host.Outcome State Fault Refusal :=
  .next (getRun n s)

/-- Put(n) (R174, R175): one transaction of `n` bytes, an empty one for `n = 0` (R176). -/
def execPut (n : Nat) (s : State) : Host.Outcome State Fault Refusal :=
  putRun n (beginPut n s)

end Sys2Proof.Machine
end

