-- ==== Sys2Proof/Machine/Dispatch.lean ====
section
/-! DEFINITION. One arm per instruction (`spec/41_sequencer.md` R111). -/

namespace Sys2Proof.Machine

def exec (i : Instr) (s : State) : Host.Outcome State Fault Refusal :=
  match i with
  | .changeValue d => Sys2Proof.Machine.execChangeValue d s
  | .changePointer d => Sys2Proof.Machine.execChangePointer d s
  | .get n => Sys2Proof.Machine.execGet n s
  | .put n => Sys2Proof.Machine.execPut n s
  | .branchIfZero off => Sys2Proof.Machine.execBranchIfZero off s
  | .branchIfNotZero off => Sys2Proof.Machine.execBranchIfNotZero off s

end Sys2Proof.Machine
end

