-- ==== Sys2Proof/Machine/HostCommands.lean ====
section
/-! DEFINITION. The three host commands, which are no instructions: LOAD (`spec/40_load.md`),
the acceptance of EXECUTE (`spec/41_sequencer.md` R110) and INSPECT (`spec/45_inspect.md`). -/

namespace Sys2Proof.Machine

/-- The values of `rsp_kind` (R191); 4 to 7 are never produced. -/
def RspKind.code : RspKind → BitVec 3
  | .ok => 0
  | .invalidProgram => 1
  | .memoryOutOfBounds => 2
  | .invalidCommand => 3

/-- The values of `cmd_op` (R101). -/
def Command.code : Command → BitVec 2
  | .load _ => 0
  | .execute => 1
  | .inspect => 2
  | .opThree => 3

/-- `cmd_ready` (R101): 1 exactly when the core is quiescent. -/
def cmdReady (s : State) : Bool := decide (s.phase = .idle)

/-- The snapshot INSPECT presents (R180); the cell is absent when `cursor >= tape_len` (R181). -/
def snapshotOf (s : State) : Snapshot :=
  { cursor := s.cursor, tapeLen := s.tapeLen, pc := s.pc, cell := readCurrent s }

/-- INSPECT (R180): the snapshot goes to the host and nothing else changes. -/
def inspect (s : State) : State :=
  setHost { s.host with reports := s.host.reports ++ [.snapshot (snapshotOf s)] } s

/-- The command port moves on: its command is taken (`cmd_valid` and `cmd_ready` both 1, R101), or
none was presented. -/
def commandTaken (s : State) : State := setHost { s.host with cmds := s.host.cmds.tail } s

/-- The element port moves on: its element is taken (`ld_valid` and `ld_ready` both 1, R101), or none
was presented. -/
def elementTaken (s : State) : State := setHost { s.host with elems := s.host.elems.tail } s

/-- `IDLE` (R118): the command presented is accepted; without one the core stays quiescent. -/
def acceptCommand (s : State) : Host.Outcome State Fault Refusal :=
  match s.host.cmds with
  | [] => .next s
  | none :: _ => .next (commandTaken s)
  | some (.load n) :: _ =>
    if s.cfg.progLimit < n then .refused .programTooLong
    else .next (setPhase .loadRecv (setStage n [] (commandTaken s)))
  | some .execute :: _ => .next (resumeRun (commandTaken s))
  | some .inspect :: _ => .next (inspect (commandTaken s))
  | some .opThree :: _ => .refused .commandCodeThree

/-- `LOAD_RECV` (R104): the element presented goes into the staging store; where the host presents
none, a hold that the next element lifts (R119); with all `N` received, on to `LOAD_COMMIT`. -/
def receiveElement (s : State) : State :=
  if s.ldStage.length < s.ldLen then
    match s.host.elems with
    | [] => s
    | none :: _ => elementTaken s
    | some e :: _ => setStage s.ldLen (s.ldStage ++ [e]) (elementTaken s)
  else setPhase .loadCommit s

/-- The index of the first malformed element (R105). -/
def firstMalformed : List LoadElem → Option Nat
  | [] => none
  | .malformed :: _ => some 0
  | .pair _ _ :: es => (firstMalformed es).map (· + 1)

/-- The words of the well-formed elements, `{code, arg}` each (R102, R89). -/
def stagedWords (c : Config) : List LoadElem → List Word
  | [] => []
  | .malformed :: es => stagedWords c es
  | .pair code arg :: es => joinWord c code arg :: stagedWords c es

/-- `LOAD_COMMIT` (R104): the failure of R105 or the indivisible commit of R102. -/
def commitLoad (s : State) : State :=
  match firstMalformed s.ldStage with
  | some k => raiseFault .invalidProgram k s
  | none => respond { kind := .ok, info := 0 } (freshLoad (stagedWords s.cfg s.ldStage) s)

end Sys2Proof.Machine
end

