-- ==== Sys2Proof/Machine/Phases.lean ====
section
/-! DEFINITION. The control state machine of `spec/41_sequencer.md` R118, one table row a
transition. The architectural step (Machine/Sequencer.lean) is normative and this machine refines it
(`spec/00_scope.md` R6). -/

namespace Sys2Proof.Machine

/-- `FETCH` (R118, R113, R114). -/
def phaseFetch (s : State) : State :=
  match fetchWord s with
  | none => endRun s
  | some w => setPhase .decode (setIr w s)

/-- `DECODE` (R118, R115): dispatch on `ir.code`. An illegal code is recorded whole, as in `runWord`
(log entry 19). -/
def phaseDecode (s : State) : State :=
  match Opcode.ofCode (codeOf s.cfg s.ir) with
  | some .changeValue => setPhase .exCv s
  | some .changePointer =>
    setPhase .exCp (setNcur (candidateCursor s.cursor (signedArg s.cfg s.ir)) s)
  | some .get => setPhase .exGet (setRep (countArg s.cfg s.ir) s)
  | some .put => setPhase .exPut (beginPut (countArg s.cfg s.ir) s)
  | some .branchIfZero => setPhase .exBr s
  | some .branchIfNotZero => setPhase .exBr s
  | none => raiseFault .invalidCommand (codeOf s.cfg s.ir) s

/-- `EX_CP` (R118): a move inside the tape ends here, a growing one commits the cursor and goes to
`GROW`. -/
def phaseExCp (s : State) : State :=
  match boundsCheck s.cfg s.ncur s.tapeLen with
  | .negative => raiseFault .memoryOutOfBounds s.ncur s
  | .overLimit => raiseFault .memoryOutOfBounds s.ncur s
  | .inside => advance (setCursor s.ncur.toNat s)
  | .grow => setPhase .grow (setCursor s.ncur.toNat s)

/-- `GROW` (R118): one growth step a transition while `cursor >= tape_len`. -/
def phaseGrow (s : State) : State :=
  if s.tapeLen ≤ s.cursor then growStep s else advance s

/-- `EX_BR` (R118): the opcode comes from `ir.code`. -/
def phaseExBr (s : State) : Host.Outcome State Fault Refusal :=
  match readCurrent s with
  | none => .fault .tapeAccessBlocked
  | some v =>
    match Opcode.ofCode (codeOf s.cfg s.ir) with
    | some op => .next (endInstr (taken op v) (signedArg s.cfg s.ir) s)
    | none => .next (advance s)

/-- `EX_GET` (R118): one poll a transition. -/
def phaseExGet (s : State) : State :=
  match s.rep with
  | 0 => advance s
  | n + 1 => getIteration n s

/-- `EX_PUT` (R118): one offer of a byte a transition. -/
def phaseExPut (s : State) : Host.Outcome State Fault Refusal :=
  match s.rep with
  | 0 => .next (advance s)
  | n + 1 =>
    match readCurrent s with
    | none => .fault .tapeAccessBlocked
    | some v => if outReady s then .next (sendByte n v s) else .next (offered s)

/-- One transition of the state machine, `rst` not asserted. -/
def phaseStep (s : State) : Host.Outcome State Fault Refusal :=
  match s.phase with
  | .idle => acceptCommand s
  | .loadRecv => .next (receiveElement s)
  | .loadCommit => .next (commitLoad s)
  | .fetch => .next (phaseFetch s)
  | .decode => .next (phaseDecode s)
  | .exCv => execChangeValue (signedArg s.cfg s.ir) s
  | .exCp => .next (phaseExCp s)
  | .grow => .next (phaseGrow s)
  | .exBr => phaseExBr s
  | .exGet => .next (phaseExGet s)
  | .exPut => phaseExPut s

end Sys2Proof.Machine
end

