-- ==== Sys2Proof/Machine/Sequencer.lean ====
section
/-! DEFINITION. The architectural step: one whole instruction from `FETCH`
(`spec/41_sequencer.md` R111, R112), the continuation of a held instruction (R119), a transition of
the host commands, and reset in any phase (`spec/70_reset_and_hazards.md` R220). -/

namespace Sys2Proof.Machine

/-- What the sequencer does with a fetched word (R111, R115). The code of an illegal word is recorded
whole, also where it does not fit the width of `rsp_info`: with `TAPE_LIMIT` a number R8 admits such an
`OPC_W`, and the spec does not say what is recorded then (log entry 19, a DESIGN CHOICE). -/
def runWord (w : Word) (s : State) : Host.Outcome State Fault Refusal :=
  match decode s.cfg w with
  | .instr i => exec i (setIr w s)
  | .invalid code => .next (raiseFault .invalidCommand code (setIr w s))

/-- One pass of the loop of R111: the termination test, then the instruction at `pc`. -/
def runInstruction (s : State) : Host.Outcome State Fault Refusal :=
  match fetchWord s with
  | none => .next (endRun s)
  | some w => runWord w s

/-- One step, `rst` not asserted. `FETCH` runs a whole instruction, `EX_GET` and `EX_PUT` go on with
a held one; a state in any other phase makes the transition R118 gives it. -/
def sequencerStep (s : State) : Host.Outcome State Fault Refusal :=
  match s.phase with
  | .fetch => runInstruction s
  | .exGet => .next (getRun s.rep s)
  | .exPut => putRun s.rep s
  | .idle => phaseStep s
  | .loadRecv => phaseStep s
  | .loadCommit => phaseStep s
  | .decode => phaseStep s
  | .exCv => phaseStep s
  | .exCp => phaseStep s
  | .grow => phaseStep s
  | .exBr => phaseStep s

/-- The level of `rst` at this step. -/
def rstNow (s : State) : Bool := s.host.rst.headD false

/-- The host's `rst` wire moves on to its next level. -/
def rstSampled (s : State) : State := setHost { s.host with rst := s.host.rst.tail } s

/-- `rst` decides first (R118 "any", R220): while it is asserted no command is accepted and no port
transaction is started. -/
def stepUnder (next : State → Host.Outcome State Fault Refusal) (s : State) :
    Host.Outcome State Fault Refusal :=
  if rstNow s then .next (assertReset (rstSampled s)) else next (rstSampled s)

/-- A step of the architectural machine. -/
def machineStep (s : State) : Host.Outcome State Fault Refusal := stepUnder sequencerStep s

/-- A step of the state machine of R118. -/
def microStep (s : State) : Host.Outcome State Fault Refusal := stepUnder phaseStep s

/-- The program with word `w` at index `i`; a shorter program is first filled up with the word 0. -/
def putWordAt (ws : List Word) (i : Nat) (w : Word) : List Word :=
  ws.take i ++ List.replicate (i - ws.length) 0 ++ w :: ws.drop (i + 1)

/-- The state whose next step fetches `w`: `w` at index `pc`, the sequencer at `FETCH`, `rst` not
asserted. It stands for a LOAD and an accepted EXECUTE (log entry 7). -/
def placeWord (w : Word) (s : State) : State :=
  { s with
    phase := .fetch, prog := putWordAt s.prog s.pc w, host := { s.host with rst := [] } }

end Sys2Proof.Machine
end

