-- ==== Sys2Proof/Safety.lean ====
section
/-! DEFINITION. The terms claims use: the machine's invariant (`spec/10_state.md` R32), the shape of an
output transaction, the static target check of `spec/43_branch.md` R155, and runs of many steps. -/

namespace Sys2Proof.Machine

/-- The phases in which an instruction is under way: fetched, and not yet at its `pc` write (R22). -/
def Phase.midInstr : Phase → Bool
  | .decode | .exCv | .exCp | .grow | .exBr | .exGet | .exPut => true
  | .idle | .loadRecv | .loadCommit | .fetch => false

/-- The invariant: R32 (I-a) to (I-e), the bounds of the registers' widths, and the canonical form
of the tape. `rsp_info` fits its width in the configurations whose every code does (log entry 19). In
`GROW` the cursor is committed before the tape covers it (R32, R139); the arbiter has passed the
final length by then (R139). -/
structure State.Inv (s : State) : Prop where
  cfgWf : s.cfg.wf = true
  tapeWf : s.tape.wf = true
  tapeBelow : ∀ c ∈ s.tape, c.1 < s.tapeLen
  tapeFits : ∀ c ∈ s.tape, FitsSigned s.cfg.cellW c.2
  lenInSeq : ∃ k, s.tapeLen = growthSeq s.cfg k
  lenInLimit : overLimit s.cfg s.tapeLen = false
  cursorInTape : s.phase ≠ .grow → s.cursor < s.tapeLen
  growInLimit : s.phase = .grow →
    overLimit s.cfg (growLen s.cfg.maxGrowth s.tapeLen s.cursor) = false
  progInLimit : s.prog.length ≤ s.cfg.progLimit
  wordsFit : ∀ w ∈ s.prog, FitsUnsigned s.cfg.wordW w
  pcFits : FitsUnsigned s.cfg.pcW s.pc
  pcInProg : s.phase.midInstr = true → s.pc < s.prog.length
  scratchInCap : s.scratch.length ≤ s.scratchCap
  scratchCapInit : s.cfg.scratchInit ≤ s.scratchCap
  loadInLimit : s.phase = .loadRecv ∨ s.phase = .loadCommit →
    s.ldLen ≤ s.cfg.progLimit ∧ s.ldStage.length ≤ s.ldLen
  irFits : FitsUnsigned s.cfg.wordW s.ir
  repFits : FitsUnsigned (s.cfg.argW + 1) s.rep
  ncurFits : ∀ l, s.cfg.tapeLimit = some l → FitsSigned s.cfg.ncurW s.ncur
  infoFits : ∀ l, s.cfg.tapeLimit = some l → s.cfg.opcW < s.cfg.infoW →
    FitsSigned s.cfg.infoW s.lastRsp.info

/-- A transaction of the input port; the others are the output port's (R160). -/
def PortEvent.isInput : PortEvent → Bool
  | .pollEof | .pollByte _ | .take _ => true
  | .outStart _ _ | .outByte _ _ => false

/-- Between `s` and `t` only transactions that meet `p` were made. -/
def TraceGrows (p : PortEvent → Bool) (s t : State) : Prop :=
  ∃ es : List PortEvent, t.trace = s.trace ++ es ∧ ∀ e ∈ es, p e = true

/-- The bytes of one transaction with `out_last` on the last of them (R162). -/
def outBytes : List Byte → List PortEvent
  | [] => []
  | [b] => [.outByte b true]
  | b :: b' :: bs => .outByte b false :: outBytes (b' :: bs)

/-- `OutWrite(bytes)` (R175): one transaction, empty for no bytes (R176). -/
def outWrite (bs : List Byte) : List PortEvent :=
  .outStart bs.length bs.isEmpty :: outBytes bs

/-- The port transactions of the first `n` iterations of a Get (R171). -/
def getEvents (p : InPort) (n : Nat) : List PortEvent :=
  (List.range n).flatMap fun k => (p.answer k).events

/-- The tape after the first `n` iterations of a Get at the cursor (R171): the last write stays. -/
def tapeAfterGet (s : State) (n : Nat) : Memory :=
  match n with
  | 0 => s.tape
  | k + 1 => match (s.inp.answer k).cell s.cfg with
    | none => s.tape
    | some v => s.tape.write s.cursor v

/-- The scratch bytes after a Put of `n` bytes `b` (R174). -/
def scratchAfterPut (s : State) (n : Nat) (b : Byte) : List Byte :=
  List.replicate n b ++ (if s.scratchCap < n then [] else s.scratch.drop n)

/-- The architectural and hidden state of R20 (all that R194 says a fault leaves as it was) is the
same in `t` as in `s`. -/
structure SameArch (s t : State) : Prop where
  cfg : t.cfg = s.cfg
  prog : t.prog = s.prog
  tape : t.tape = s.tape
  tapeLen : t.tapeLen = s.tapeLen
  cursor : t.cursor = s.cursor
  pc : t.pc = s.pc
  scratchCap : t.scratchCap = s.scratchCap
  scratch : t.scratch = s.scratch

/-- No port transaction lies between `s` and `t`, and the collaborators stand where they stood. -/
structure SamePorts (s t : State) : Prop where
  trace : t.trace = s.trace
  inp : t.inp = s.inp
  out : t.out = s.out

/-- A step from `s` to `t` delivered the response `r` (R195). -/
def Responds (s t : State) (r : Response) : Prop :=
  t.host.reports = s.host.reports ++ [.response r]

/-- The input port with its `WAIT` answers left out. -/
def InPort.withoutWaits (p : InPort) : InPort :=
  { p with script := p.script.filter fun a => decide (a ≠ .wait) }

/-- The output port with its refusals to take a byte left out. -/
def OutPort.withoutStalls (p : OutPort) : OutPort := { p with script := p.script.filter id }

/-- An outcome with a function applied to its next state. -/
def onNext (f : State → State) : Host.Outcome State Fault Refusal → Host.Outcome State Fault Refusal
  | .next t => .next (f t)
  | .fault r => .fault r
  | .refused r => .refused r

/-- The scratch buffer forgotten (R27). -/
def forgetScratch (s : State) : State := setScratch 0 [] s

/-- `last_rsp` forgotten (R31). -/
def forgetLastRsp (s : State) : State := setLastRsp { kind := .ok, info := 0 } s

/-- The working registers forgotten that are dead in the phase (R30): all three where no instruction
is under way, `ncur` while a Get or a Put is held. -/
def forgetDead (s : State) : State :=
  match s.phase with
  | .idle | .loadRecv | .loadCommit | .fetch => setIr 0 (setRep 0 (setNcur 0 s))
  | .exGet | .exPut => setNcur 0 s
  | .decode | .exCv | .exCp | .grow | .exBr => s

/-- `WellFormedTargets(prog)` (R155): every branch targets an index of `0 .. prog_len`. -/
def wellFormedTargets (c : Config) (ws : List Word) : Prop :=
  ∀ (i : Nat) (w : Word), ws[i]? = some w → ∀ off : Int, (decode c w = .instr (.branchIfZero off) ∨
    decode c w = .instr (.branchIfNotZero off)) →
      0 ≤ (i : Int) + off ∧ (i : Int) + off ≤ ws.length

/-- `k` steps of a machine given by its step function, stopping at a fault or a refusal. -/
def iterate (f : State → Host.Outcome State Fault Refusal) :
    Nat → State → Host.Outcome State Fault Refusal
  | 0, s => .next s
  | k + 1, s =>
    match f s with
    | .next t => iterate f k t
    | .fault r => .fault r
    | .refused r => .refused r

/-- `k` architectural steps. -/
def runSteps (k : Nat) (s : State) : Host.Outcome State Fault Refusal := iterate step k s

/-- `k` transitions of the state machine of R118. -/
def runMicro (k : Nat) (s : State) : Host.Outcome State Fault Refusal := iterate microStep k s

end Sys2Proof.Machine
end

