-- ==== Sys2Proof/Certificates/Slice0/Obligations.lean ====
section
/-! DEFINITION. The statements about the model. Each docstring names the rule of `spec/` it formalises
or the sections it rests on. -/

open Sys2Proof Sys2Proof.Machine

/-! ### Reset -/

/-- R35: every row of the reset table, for the state the machine starts from, and that it is the state
the commit of an empty LOAD leaves. -/
def Obligations.ResetStateHasTheTableValues : Prop :=
  State.reset.prog = [] ∧ State.reset.tapeLen = State.reset.cfg.initCap ∧
  (∀ i, i < State.reset.cfg.initCap → tapeRead State.reset i = some 0) ∧
  State.reset.cursor = 0 ∧ State.reset.pc = 0 ∧
  State.reset.scratchCap = State.reset.cfg.scratchInit ∧ State.reset.phase = .idle ∧
  State.reset.lastRsp = { kind := .ok, info := 0 } ∧ State.reset.trace = [] ∧
  SameArch State.reset (commitLoad { State.reset with phase := .loadCommit })

/-- R220: `rst` in any state, whatever the core was doing. The configuration and the collaborators
stay as they are, no command or element is accepted and no port transaction is started. -/
def Obligations.AssertedResetFromAnyState : Prop :=
  ∀ s : State, rstNow s = true → ∃ t, step s = .next t ∧
    t.prog = [] ∧ t.tapeLen = s.cfg.initCap ∧ (∀ i, i < s.cfg.initCap → tapeRead t i = some 0) ∧
    t.cursor = 0 ∧ t.pc = 0 ∧ t.scratchCap = s.cfg.scratchInit ∧ t.phase = .idle ∧
    t.lastRsp = { kind := .ok, info := 0 } ∧ t.cfg = s.cfg ∧ SamePorts s t ∧
    t.host = { s.host with rst := s.host.rst.tail }

/-- The invariant holds at reset (tier 1 half of `EveryStepKeepsTheInvariant`). -/
def Obligations.ResetMeetsTheInvariant : Prop := State.reset.Inv

/-- R222: what a LOAD of no elements leaves in three steps and what one step under `rst` leaves have
the same architectural and hidden state. -/
def Obligations.EmptyLoadEqualsReset : Prop :=
  ∀ (s : State) (cs : List (Option Command)), s.phase = .idle → s.host.rst = [] →
    s.host.cmds = some (.load 0) :: cs →
    ∃ t u, runSteps 3 s = .next t ∧
      step (setHost { s.host with rst := [true] } s) = .next u ∧ SameArch u t ∧ SamePorts u t

/-! ### Encoding and decoding -/

/-- R90: the worked words, in the default configuration. -/
def Obligations.WorkedWordsEncodeAndDecode : Prop :=
  (∀ p ∈ [(Instr.changeValue 3, 0x0000000003), (Instr.changeValue (-1), 0x00FFFFFFFF),
      (Instr.changePointer 1, 0x0100000001), (Instr.changePointer (-1), 0x01FFFFFFFF),
      (Instr.get 1, 0x0200000001), (Instr.put 3, 0x0300000003),
      (Instr.branchIfZero 6, 0x0400000006), (Instr.branchIfNotZero (-4), 0x05FFFFFFFC)],
    encode Config.defaults p.1 = p.2 ∧ decode Config.defaults p.2 = .instr p.1) ∧
  joinWord Config.defaults 99 0 = 0x6300000000 ∧
  decode Config.defaults 0x6300000000 = .invalid 99

/-- The last sentence of R86, for every admissible configuration and every argument of R81's ranges. -/
def Obligations.DecodeOfEncodeIsTheInstruction : Prop :=
  ∀ (c : Config) (i : Instr), c.wf = true → i.wellFormed c = true → decode c (encode c i) = .instr i

/-- The other direction: a word that decodes is the word its instruction encodes to, so every bit of
the word is read (R80, R84). -/
def Obligations.EncodeOfDecodeIsTheWord : Prop :=
  ∀ (c : Config) (w : Word) (i : Instr), c.wf = true → FitsUnsigned c.wordW w →
    decode c w = .instr i → encode c i = w ∧ i.wellFormed c = true

/-- The code part of R83: a word is illegal exactly when its code is 6 or more, whatever its
argument, and every argument is legal with the six codes (R84). -/
def Obligations.IllegalWordsAreThoseWithCodeSixOrMore : Prop :=
  ∀ (c : Config) (code arg : Nat), c.wf = true → code < 2 ^ c.opcW →
    (decode c (joinWord c code arg) = .invalid code ↔ 6 ≤ code) ∧
    (code < 6 → ∃ i : Instr, decode c (joinWord c code arg) = .instr i ∧ i.opcode.code = code)

/-! ### The sequencer -/

/-- R115: a step at `FETCH` runs the instruction the word at `pc` decodes to, with the word in `ir`;
for any other word it raises `InvalidCommand` with the code and writes nothing else. -/
def Obligations.StepRunsTheDecodedInstruction : Prop :=
  ∀ (s : State) (w : Word), s.phase = .fetch → rstNow s = false → fetchWord s = some w →
    (∀ i, decode s.cfg w = .instr i → step s = exec i (setIr w (rstSampled s))) ∧
    (∀ c, decode s.cfg w = .invalid c →
      step s = .next { s with
        ir := w, phase := .idle, lastRsp := { kind := .invalidCommand, info := c }
        host := { s.host with
          rst := s.host.rst.tail,
          reports := s.host.reports ++ [.response { kind := .invalidCommand, info := c }] } })

/-- R113: at or past the end the run ends normally and nothing else changes; a second EXECUTE there
is a no-op with the same response, and so is an EXECUTE of the empty program. -/
def Obligations.RunEndsAtTheProgramLength : Prop :=
  ∀ s : State, s.host.rst = [] → s.prog.length ≤ s.pc →
    (s.phase = .fetch → step s = .next { s with
      phase := .idle, lastRsp := { kind := .ok, info := 0 }
      host := { s.host with
        reports := s.host.reports ++ [.response { kind := .ok, info := 0 }] } }) ∧
    (∀ cs, s.phase = .idle → s.host.cmds = some .execute :: cs → runSteps 2 s = .next { s with
      lastRsp := { kind := .ok, info := 0 }
      host := { s.host with
        cmds := cs,
        reports := s.host.reports ++ [.response { kind := .ok, info := 0 }] } })

/-- R110, first half: an accepted EXECUTE starts from the state as it stands. -/
def Obligations.ExecuteStartsFromTheStateAsItStands : Prop :=
  ∀ (s : State) (cs : List (Option Command)), s.phase = .idle → s.host.rst = [] →
    s.host.cmds = some .execute :: cs →
    step s = .next { s with phase := .fetch, host := { s.host with cmds := cs } }

/-- R116: the sum is exact and then reduced modulo `2^PC_W`; the `+1` of a running instruction never
wraps; an instruction that ends writes `pc` by this law with the resolver's verdict, and one that
faults or is held does not write it. -/
def Obligations.PcUpdateLaw : Prop :=
  (∀ (c : Config) (pc : Nat) (tk : Bool) (off : Int),
    nextPc c pc tk off < 2 ^ c.pcW ∧
    (nextPc c pc tk off : Int) = ((pc : Int) + (if tk then off else 1)) % ((2 ^ c.pcW : Nat) : Int)) ∧
  (∀ (s : State) (off : Int), s.Inv → s.pc < s.prog.length →
    nextPc s.cfg s.pc false off = s.pc + 1) ∧
  (∀ (i : Instr) (s t : State), exec i s = .next t →
    (t.phase = .fetch ∧
      t.pc = nextPc s.cfg s.pc (taken i.opcode (s.tape.read s.cursor)) i.argument) ∨
    ((t.phase = .idle ∨ t.phase = .exGet ∨ t.phase = .exPut) ∧ t.pc = s.pc))

/-- R117: the resolver, that the comparison is on all `CELL_W` bits of the cell, and that a branch is
resolved on the cell as it is then, its offset relative to its own index. -/
def Obligations.BranchResolverTestsEveryBit : Prop :=
  (∀ v : Int, (taken .branchIfZero v = true ↔ v = 0) ∧ (taken .branchIfNotZero v = true ↔ v ≠ 0)) ∧
  (∀ (op : Opcode) (v : Int), op ≠ .branchIfZero → op ≠ .branchIfNotZero → taken op v = false) ∧
  (∀ (n : Nat) (v : Int), 1 ≤ n → FitsSigned n v → (v = 0 ↔ patternOf n v = 0)) ∧
  (∀ (off : Int) (s : State), s.cursor < s.tapeLen →
    exec (.branchIfZero off) s = .next { s with
      pc := nextPc s.cfg s.pc (taken .branchIfZero (s.tape.read s.cursor)) off, phase := .fetch } ∧
    exec (.branchIfNotZero off) s = .next { s with
      pc := nextPc s.cfg s.pc (taken .branchIfNotZero (s.tape.read s.cursor)) off, phase := .fetch })

/-- R121: EXECUTE after a run that ended, normally or in a fault, gives the same response again and
leaves the same state. -/
def Obligations.EndedRunRecursOnExecute : Prop :=
  ∀ (s t : State) (r : Response) (cs : List (Option Command)), s.phase = .fetch →
    s.host.rst = [] →
    step s = .next t → Responds s t r →
    runSteps 2 { t with host := { t.host with cmds := some .execute :: cs } } =
      .next { t with host := { t.host with
        cmds := cs, reports := t.host.reports ++ [.response r] } }

/-! ### ChangeValue and ChangePointer -/

/-- R131: the whole next state of ChangeValue: the current cell, `pc`, and nothing else. -/
def Obligations.ChangeValueAddsToTheCurrentCell : Prop :=
  ∀ (d : Int) (s : State), s.cursor < s.tapeLen →
    exec (.changeValue d) s = .next { s with
      tape := s.tape.write s.cursor (wrap s.cfg.cellW (s.tape.read s.cursor + d))
      pc := nextPc s.cfg s.pc false 0
      phase := .fetch }

/-- R132: the new cell is the value of the signed range congruent to the exact sum, the bit patterns
add modulo `2^CELL_W`, and every other cell is as before. -/
def Obligations.ChangeValueObeysTheArithmeticLaw : Prop :=
  ∀ (d : Int) (s : State), s.Inv → s.cursor < s.tapeLen →
    ∃ t, exec (.changeValue d) s = .next t ∧
      FitsSigned s.cfg.cellW (t.tape.read s.cursor) ∧
      t.tape.read s.cursor % ((2 ^ s.cfg.cellW : Nat) : Int) =
        (s.tape.read s.cursor + d) % ((2 ^ s.cfg.cellW : Nat) : Int) ∧
      patternOf s.cfg.cellW (t.tape.read s.cursor) =
        (patternOf s.cfg.cellW (s.tape.read s.cursor) + patternOf s.cfg.cellW d)
          % 2 ^ s.cfg.cellW ∧
      ∀ j, j ≠ s.cursor → t.tape.read j = s.tape.read j

/-- R135, with R136's exact candidate: where the arbiter passes it, the cursor moves, the tape grows
to `GrowLen` and covers it, and no cell changes; where it does not, the fault leaves everything but
the response and the working register as it was. -/
def Obligations.ChangePointerMovesOrFaults : Prop :=
  ∀ (d : Int) (s : State), s.Inv →
    (0 ≤ (s.cursor : Int) + d →
      overLimit s.cfg (growLen s.cfg.maxGrowth s.tapeLen ((s.cursor : Int) + d).toNat) = false →
      exec (.changePointer d) s = .next { s with
        cursor := ((s.cursor : Int) + d).toNat
        tapeLen := growLen s.cfg.maxGrowth s.tapeLen ((s.cursor : Int) + d).toNat
        ncur := (s.cursor : Int) + d
        pc := nextPc s.cfg s.pc false 0
        phase := .fetch } ∧
      ((s.cursor : Int) + d).toNat <
        growLen s.cfg.maxGrowth s.tapeLen ((s.cursor : Int) + d).toNat) ∧
    ((s.cursor : Int) + d < 0 ∨
      overLimit s.cfg (growLen s.cfg.maxGrowth s.tapeLen ((s.cursor : Int) + d).toNat) = true →
      exec (.changePointer d) s = .next { s with
        ncur := (s.cursor : Int) + d
        phase := .idle
        lastRsp := { kind := .memoryOutOfBounds, info := (s.cursor : Int) + d }
        host := { s.host with reports := s.host.reports ++
          [.response { kind := .memoryOutOfBounds, info := (s.cursor : Int) + d }] } })

/-- R58: the four verdicts, and that `TAPE_LIMIT = none` never gives `OVER_LIMIT`. -/
def Obligations.ArbiterVerdicts : Prop :=
  ∀ (c : Config) (ncur : Int) (len : Nat),
    (boundsCheck c ncur len = .negative ↔ ncur < 0) ∧
    (boundsCheck c ncur len = .overLimit ↔
      0 ≤ ncur ∧ ∃ l, c.tapeLimit = some l ∧ l < growLen c.maxGrowth len ncur.toNat) ∧
    (boundsCheck c ncur len = .inside ↔ 0 ≤ ncur ∧ ncur < len ∧
      ∀ l, c.tapeLimit = some l → growLen c.maxGrowth len ncur.toNat ≤ l) ∧
    (boundsCheck c ncur len = .grow ↔ (len : Int) ≤ ncur ∧
      ∀ l, c.tapeLimit = some l → growLen c.maxGrowth len ncur.toNat ≤ l)

/-- R61: `GrowLen` is the value the loop ends with (the first member of the growth sequence from `len`
that covers `c`), a step doubles up to `MAX_GROWTH` and adds it from there, and the default sequence
is the one listed. -/
def Obligations.GrowLenIsTheLoopsResult : Prop :=
  (∀ mg len c : Nat, 1 ≤ len → 1 ≤ mg →
    ∃ k, growLen mg len c = (grownLen mg)^[k] len ∧ c < (grownLen mg)^[k] len ∧
      ∀ j, j < k → (grownLen mg)^[j] len ≤ c) ∧
  (∀ mg len : Nat, (len ≤ mg → grownLen mg len = 2 * len) ∧
    (mg ≤ len → grownLen mg len = len + mg)) ∧
  (List.range 13).map (growthSeq Config.defaults) =
    [256, 512, 1024, 2048, 4096, 8192, 16384, 32768, 65536, 131072, 196608, 262144, 327680]

/-- R60: one growth step, in every state. -/
def Obligations.GrowthStepZeroFills : Prop :=
  ∀ s : State,
    growStep s = { s with
      tape := (growStep s).tape, tapeLen := s.tapeLen + min s.tapeLen s.cfg.maxGrowth } ∧
    (∀ i, i < s.tapeLen → (growStep s).tape.read i = s.tape.read i) ∧
    (∀ i, s.tapeLen ≤ i → (growStep s).tape.read i = 0)

/-- R62 (a) to (d): growth to a cursor keeps every cell, zero-fills the new ones, covers the cursor,
and from a fresh tape to a cursor at exactly `INIT_CAP` doubles it. -/
def Obligations.GrowthKeepsCellsAndCovers : Prop :=
  ∀ s : State, 1 ≤ s.tapeLen → 1 ≤ s.cfg.maxGrowth →
    s.tapeLen ≤ (growTape s).tapeLen ∧
    (∀ i, i < s.tapeLen → (growTape s).tape.read i = s.tape.read i) ∧
    (∀ i, s.tapeLen ≤ i → i < (growTape s).tapeLen → tapeRead (growTape s) i = some 0) ∧
    s.cursor < (growTape s).tapeLen ∧
    (s.cfg.initCap ≤ s.cfg.maxGrowth → s.tapeLen = s.cfg.initCap → s.cursor = s.cfg.initCap →
      (growTape s).tapeLen = 2 * s.cfg.initCap)

/-! ### Branches -/

/-- R151 and R152: the whole next state of both branches. -/
def Obligations.BranchesWritePcOnly : Prop :=
  ∀ (off : Int) (s : State), s.cursor < s.tapeLen →
    exec (.branchIfZero off) s = .next { s with
      pc := (if s.tape.read s.cursor = 0
        then ((s.pc : Int) + off) % ((2 ^ s.cfg.pcW : Nat) : Int)
        else ((s.pc : Int) + 1) % ((2 ^ s.cfg.pcW : Nat) : Int)).toNat
      phase := .fetch } ∧
    exec (.branchIfNotZero off) s = .next { s with
      pc := (if s.tape.read s.cursor ≠ 0
        then ((s.pc : Int) + off) % ((2 ^ s.cfg.pcW : Nat) : Int)
        else ((s.pc : Int) + 1) % ((2 ^ s.cfg.pcW : Nat) : Int)).toNat
      phase := .fetch }

/-- R153: a taken branch to `t` with `prog_len <= t < 2^PC_W` ends the run normally at the next step
with `pc = t`; with `0 <= t < prog_len` the next fetch is at `t`. -/
def Obligations.TakenBranchContinuesOrEndsTheRun : Prop :=
  ∀ (s : State) (w : Word) (off : Int) (target : Nat),
    s.phase = .fetch → s.host.rst = [] → s.cursor < s.tapeLen → fetchWord s = some w →
    (decode s.cfg w = .instr (.branchIfZero off) ∧ s.tape.read s.cursor = 0 ∨
      decode s.cfg w = .instr (.branchIfNotZero off) ∧ s.tape.read s.cursor ≠ 0) →
    (s.pc : Int) + off = target → target < 2 ^ s.cfg.pcW →
    step s = .next { s with ir := w, pc := target } ∧
    (s.prog.length ≤ target → runSteps 2 s = .next { s with
      ir := w, pc := target, phase := .idle, lastRsp := { kind := .ok, info := 0 }
      host := { s.host with
        reports := s.host.reports ++ [.response { kind := .ok, info := 0 }] } }) ∧
    (target < s.prog.length → fetchWord { s with ir := w, pc := target } = s.prog[target]?)

/-- R155's check: in a program that meets `WellFormedTargets` no step takes `pc` past `prog_len`.
`EX_BR` is left out, where the offset is read from `ir` and not from the program. -/
def Obligations.WellFormedTargetsKeepPcInRange : Prop :=
  ∀ s t : State, s.Inv → wellFormedTargets s.cfg s.prog → s.pc ≤ s.prog.length →
    s.phase ≠ .exBr → s.phase ≠ .loadCommit → rstNow s = false → step s = .next t →
    t.prog = s.prog ∧ t.pc ≤ t.prog.length

/-! ### Get and Put -/

/-- R171: the whole next state of `Get(n)` when the port answers each of its `n` polls. With `CELL_W` of
8 or less the byte stored is the byte cut to the cell, the model's choice (log entry 10); with a wider
cell it is the integer, `GetStoresBytesAsIntegers`. -/
def Obligations.GetStoresTheLastAnswer : Prop :=
  ∀ (n : Nat) (s : State), s.Inv → s.cursor < s.tapeLen →
    (∀ k, k < n → s.inp.answer k ≠ .wait) →
    exec (.get n) s = .next { s with
      tape := tapeAfterGet s n
      inp := s.inp.drop n
      trace := s.trace ++ getEvents s.inp n
      rep := 0
      pc := nextPc s.cfg s.pc false 0
      phase := .fetch }

/-- R171 with R172 (f) and (h), for cells wider than a byte: the last answer decides the cell, a byte as
the integer it is and never a negative one, `EOF` as the sentinel, and no answer leaves it alone. -/
def Obligations.GetStoresBytesAsIntegers : Prop :=
  ∀ (n : Nat) (s : State), s.Inv → 8 < s.cfg.cellW → s.cursor < s.tapeLen →
    (∀ k, k < n → s.inp.answer k ≠ .wait) →
    ∃ t, exec (.get n) s = .next t ∧ (n = 0 → t.tape.read s.cursor = s.tape.read s.cursor) ∧
      ∀ m, n = m + 1 →
        (∀ b, s.inp.answer m = .byte b → t.tape.read s.cursor = (b.toNat : Int)) ∧
        (s.inp.answer m = .eof → t.tape.read s.cursor = wrap s.cfg.cellW s.cfg.eofSentinel)

/-- R119 for Get: a `WAIT` after `k` answers holds the instruction in `EX_GET` with `n - k`
iterations to do, `pc` still at it, and only those `k` iterations done. What they store with `CELL_W`
of 8 or less is the model's choice (log entry 10). -/
def Obligations.WaitHoldsAGet : Prop :=
  ∀ (n k : Nat) (s : State), s.Inv → s.cursor < s.tapeLen → k < n →
    (∀ j, j < k → s.inp.answer j ≠ .wait) → s.inp.answer k = .wait →
    exec (.get n) s = .next { s with
      tape := tapeAfterGet s k
      inp := s.inp.drop (k + 1)
      trace := s.trace ++ getEvents s.inp k
      rep := n - k
      phase := .exGet }

/-- Holds change nothing (R119, R172 (j)): a Get met by any pattern of `WAIT` answers, with enough
other answers to come, ends after finitely many steps in the state it ends in without them. -/
def Obligations.WaitsDoNotChangeAGet : Prop :=
  ∀ (n : Nat) (s : State), s.host.rst = [] → n ≤ s.inp.withoutWaits.script.length →
    ∃ m t₀ t u, exec (.get n) s = .next t₀ ∧ runSteps m t₀ = .next t ∧
      exec (.get n) { s with inp := s.inp.withoutWaits } = .next u ∧ u.phase = .fetch ∧
      t = { u with inp := t.inp } ∧ t.inp.withoutWaits = u.inp

/-- R174, R175, R176: the whole next state of `Put(n)` when the collaborator takes each byte: one
transaction of `n` equal bytes, empty for `n = 0`, and the hidden scratch buffer. -/
def Obligations.PutSendsOneBatch : Prop :=
  ∀ (n : Nat) (s : State), s.cursor < s.tapeLen → (∀ k, k < n → s.out.ready k = true) →
    exec (.put n) s = .next { s with
      scratchCap := max s.scratchCap n
      scratch := scratchAfterPut s n (byteOfCell (s.tape.read s.cursor))
      out := s.out.drop n
      trace := s.trace ++ outWrite (List.replicate n (byteOfCell (s.tape.read s.cursor)))
      rep := 0
      pc := nextPc s.cfg s.pc false 0
      phase := .fetch }

/-- R119 for Put: the first offer not taken, after `k` bytes, holds the instruction in `EX_PUT` with
`n - k` bytes to send and no `out_last` yet. -/
def Obligations.StallHoldsAPut : Prop :=
  ∀ (n k : Nat) (s : State), s.cursor < s.tapeLen → k < n →
    (∀ j, j < k → s.out.ready j = true) → s.out.ready k = false →
    exec (.put n) s = .next { s with
      scratchCap := max s.scratchCap n
      scratch := scratchAfterPut s n (byteOfCell (s.tape.read s.cursor))
      out := s.out.drop (k + 1)
      trace := s.trace ++ .outStart n false ::
        List.replicate k (.outByte (byteOfCell (s.tape.read s.cursor)) false)
      rep := n - k
      phase := .exPut }

/-- Holds change nothing (R119, R175): a Put met by any pattern of readiness, with enough offers taken
in the end, ends after finitely many steps in the state it ends in when each is taken at once. -/
def Obligations.StallsDoNotChangeAPut : Prop :=
  ∀ (n : Nat) (s : State), s.host.rst = [] → s.cursor < s.tapeLen →
    n ≤ s.out.withoutStalls.script.length →
    ∃ m t₀ t u, exec (.put n) s = .next t₀ ∧ runSteps m t₀ = .next t ∧
      exec (.put n) { s with out := s.out.withoutStalls } = .next u ∧ u.phase = .fetch ∧
      t = { u with out := t.out } ∧ t.out.withoutStalls = u.out

/-! ### Tape access and frames -/

/-- R57 and the blocking of R56: a written cell reads back, no other cell changes, and outside the
tape nothing is read and nothing written. -/
def Obligations.TapeReadAfterTapeWrite : Prop :=
  ∀ (s : State) (i : Nat) (v : Int), s.tape.wf = true →
    (i < s.tapeLen → tapeRead s i = some (s.tape.read i) ∧
      tapeRead (tapeWrite i v s) i = some v ∧ (tapeWrite i v s).tape.wf = true ∧
      ∀ j, j ≠ i → tapeRead (tapeWrite i v s) j = tapeRead s j) ∧
    (s.tapeLen ≤ i → tapeRead s i = none ∧ tapeWrite i v s = s)

/-- The frame of all six instructions, whether they end, fault or are held (R36, and the "State
written" line of each rule). The one cell that may change is `cursor`, and only under ChangeValue
and Get. -/
def Obligations.FrameOfEveryInstruction : Prop :=
  ∀ (i : Instr) (s t : State), s.Inv → exec i s = .next t →
    (t.cfg = s.cfg ∧ t.prog = s.prog ∧ t.ir = s.ir ∧ t.ldLen = s.ldLen ∧ t.ldStage = s.ldStage ∧
      t.host.rst = s.host.rst ∧ t.host.cmds = s.host.cmds ∧ t.host.elems = s.host.elems) ∧
    (∀ j, (i.opcode = .changeValue ∨ i.opcode = .get → j ≠ s.cursor) →
      t.tape.read j = s.tape.read j) ∧
    (i.opcode ≠ .changePointer → t.cursor = s.cursor ∧ t.tapeLen = s.tapeLen ∧ t.ncur = s.ncur ∧
      t.lastRsp = s.lastRsp ∧ t.host = s.host) ∧
    (i.opcode ≠ .put → t.scratchCap = s.scratchCap ∧ t.scratch = s.scratch ∧ t.out = s.out) ∧
    (i.opcode ≠ .get → t.inp = s.inp) ∧
    (i.opcode ≠ .get → i.opcode ≠ .put → t.rep = s.rep ∧ t.trace = s.trace)

/-- Where the arbiter blocks the current cell (in no state that meets the invariant), the instructions
that read it stop by name, and Get writes nothing (R56; the stop is the model's choice, log entry
11). -/
def Obligations.BlockedCurrentCellStops : Prop :=
  ∀ s : State, s.tapeLen ≤ s.cursor →
    (∀ d, exec (.changeValue d) s = .fault .tapeAccessBlocked) ∧
    (∀ off, exec (.branchIfZero off) s = .fault .tapeAccessBlocked) ∧
    (∀ off, exec (.branchIfNotZero off) s = .fault .tapeAccessBlocked) ∧
    (∀ n, exec (.put (n + 1)) s = .fault .tapeAccessBlocked) ∧
    (∃ t, exec (.put 0) s = .next t ∧ t.phase = .fetch) ∧
    (∀ n, ∃ t, exec (.get n) s = .next t ∧ t.tape = s.tape)

/-! ### Faults -/

/-- R194 and R195: a step that responds with a fault leaves the architectural and hidden state and
the ports as they were, writes `last_rsp`, and leaves the core quiescent. -/
def Obligations.FaultLeavesTheStateUntouched : Prop :=
  ∀ (s t : State) (r : Response), rstNow s = false → step s = .next t → Responds s t r →
    r.kind ≠ .ok →
    SameArch s t ∧ SamePorts s t ∧ t.lastRsp = r ∧ t.phase = .idle ∧
      t.host = { s.host with
        rst := s.host.rst.tail, reports := s.host.reports ++ [.response r] }

/-- The causes R193 lists for a step of a run, and no other: which responses an instruction's step
can give. -/
def Obligations.FaultCausesOfAnInstruction : Prop :=
  ∀ (s : State) (w : Word) (r : Response), s.phase = .fetch → rstNow s = false →
    fetchWord s = some w →
    ((∃ t, step s = .next t ∧ Responds s t r) ↔
      (∃ c : Nat, decode s.cfg w = .invalid c ∧ r = { kind := .invalidCommand, info := c }) ∨
      (∃ d, decode s.cfg w = .instr (.changePointer d) ∧
        ((s.cursor : Int) + d < 0 ∨ overLimit s.cfg
          (growLen s.cfg.maxGrowth s.tapeLen ((s.cursor : Int) + d).toNat) = true) ∧
        r = { kind := .memoryOutOfBounds, info := (s.cursor : Int) + d }))

/-- R191: the four codes of `rsp_kind`; 4 to 7 are never produced. -/
def Obligations.ResponseCodes : Prop :=
  RspKind.code .ok = 0 ∧ RspKind.code .invalidProgram = 1 ∧
  RspKind.code .memoryOutOfBounds = 2 ∧ RspKind.code .invalidCommand = 3 ∧
  ∀ k : RspKind, k.code.toNat < 4

/-! ### The host commands -/

/-- R102: LOAD of `N` well-formed elements, accepted in `IDLE` and each presented when it is looked for,
leaves the program verbatim, a fresh tape, and the response `(OK, 0)`. The model's choices are the
clauses about `ldLen` and `ldStage` (log entry 18), the empty `scratch` (log entry 6) and the count of
`N + 3` steps (log entry 7). -/
def Obligations.LoadCommitsAWellFormedSequence : Prop :=
  ∀ (s : State) (es : List LoadElem) (rest : List (Option LoadElem)) (cs : List (Option Command)),
    s.phase = .idle → s.host.rst = [] → s.host.cmds = some (.load es.length) :: cs →
    s.host.elems = es.map some ++ rest → es.length ≤ s.cfg.progLimit → .malformed ∉ es →
    runSteps (es.length + 3) s = .next { s with
      prog := stagedWords s.cfg es, tape := [], tapeLen := s.cfg.initCap, cursor := 0, pc := 0
      scratchCap := s.cfg.scratchInit, scratch := []
      lastRsp := { kind := .ok, info := 0 }, ldLen := es.length, ldStage := es
      host := { s.host with
        cmds := cs, elems := rest,
        reports := s.host.reports ++ [.response { kind := .ok, info := 0 }] } } ∧
    (stagedWords s.cfg es).length = es.length ∧
    ∀ (i code arg : Nat), es[i]? = some (.pair code arg) →
      (stagedWords s.cfg es)[i]? = some (joinWord s.cfg code arg)

/-- R105 and R103: with a malformed element, LOAD responds with the index of the first one and keeps
the previous program, tape, cursor, `pc` and scratch buffer. The model's choices are the clauses about
`ldLen` and `ldStage` (log entry 18) and the count of `N + 3` steps (log entry 7). -/
def Obligations.LoadRejectsAMalformedElement : Prop :=
  ∀ (s : State) (es : List LoadElem) (rest : List (Option LoadElem)) (cs : List (Option Command))
    (k : Nat),
    s.phase = .idle → s.host.rst = [] → s.host.cmds = some (.load es.length) :: cs →
    s.host.elems = es.map some ++ rest → es.length ≤ s.cfg.progLimit →
    es[k]? = some .malformed → (∀ j, j < k → es[j]? ≠ some .malformed) →
    runSteps (es.length + 3) s = .next { s with
      lastRsp := { kind := .invalidProgram, info := k }, ldLen := es.length, ldStage := es
      host := { s.host with
        cmds := cs, elems := rest,
        reports := s.host.reports ++ [.response { kind := .invalidProgram, info := k }] } }

/-- R119 for `LOAD_RECV`, R104: while the host presents no element the core stays in `LOAD_RECV` and
nothing but the host's wires moves; the next element it presents is received, which lifts the hold. -/
def Obligations.LoadHoldsForTheHost : Prop :=
  ∀ s : State, s.phase = .loadRecv → rstNow s = false → s.ldStage.length < s.ldLen →
    (s.host.elems.head?.join = none →
      step s = .next { s with
        host := { s.host with rst := s.host.rst.tail, elems := s.host.elems.tail } }) ∧
    (∀ e es, s.host.elems = some e :: es →
      step s = .next { s with
        ldStage := s.ldStage ++ [e]
        host := { s.host with rst := s.host.rst.tail, elems := es } })

/-- R119, R104: pauses of the host change nothing but the number of steps. From `LOAD_RECV`, whatever
steps without an element stand between the elements, the same elements are received in order. -/
def Obligations.HostPausesDoNotChangeALoad : Prop :=
  ∀ (s : State) (p rest : List (Option LoadElem)) (e : LoadElem),
    s.phase = .loadRecv → s.host.rst = [] → s.host.elems = p ++ some e :: rest →
    s.ldStage.length + p.reduceOption.length < s.ldLen →
    runSteps (p.length + 1) s = .next { s with
      ldStage := s.ldStage ++ p.reduceOption ++ [e]
      host := { s.host with elems := rest } }

/-- R102, R103 and R105: `LOAD_COMMIT` is one step that does all of the commit when no received element
is malformed, and nothing but respond with the index of the first malformed one when some is. -/
def Obligations.LoadCommitIsAtomic : Prop :=
  ∀ s : State, s.phase = .loadCommit → rstNow s = false →
    (.malformed ∉ s.ldStage → ∃ t, step s = .next t ∧
      t.prog.length = s.ldStage.length ∧
      (∀ (i code arg : Nat), s.ldStage[i]? = some (.pair code arg) →
        t.prog[i]? = some (joinWord s.cfg code arg)) ∧
      t.tapeLen = s.cfg.initCap ∧ (∀ j, j < s.cfg.initCap → tapeRead t j = some 0) ∧
      t.cursor = 0 ∧ t.pc = 0 ∧ t.scratchCap = s.cfg.scratchInit ∧ t.phase = .idle ∧
      t.lastRsp = { kind := .ok, info := 0 } ∧ Responds s t { kind := .ok, info := 0 } ∧
      t.cfg = s.cfg ∧ SamePorts s t) ∧
    (∀ k : Nat, s.ldStage[k]? = some .malformed → (∀ j, j < k → s.ldStage[j]? ≠ some .malformed) →
      ∃ t, step s = .next t ∧ SameArch s t ∧ SamePorts s t ∧ t.phase = .idle ∧
        t.lastRsp = { kind := .invalidProgram, info := k } ∧
        Responds s t { kind := .invalidProgram, info := k })

/-- R180 and R181: INSPECT delivers the four fields and changes nothing else; in every state that
meets the invariant the cell is present. -/
def Obligations.InspectIsAPureAccessor : Prop :=
  ∀ (s : State) (cs : List (Option Command)), s.phase = .idle → s.host.rst = [] →
    s.host.cmds = some .inspect :: cs →
    step s = .next { s with host := { s.host with
      cmds := cs,
      reports := s.host.reports ++ [.snapshot {
        cursor := s.cursor, tapeLen := s.tapeLen, pc := s.pc
        cell := if s.cursor < s.tapeLen then some (s.tape.read s.cursor) else none }] } } ∧
    (s.Inv → (snapshotOf s).cell = some (s.tape.read s.cursor))

/-- The moves the model does not admit are exactly R101's `cmd_op = 3` and R106's LOAD with
`N > PROG_LIMIT`, both at `IDLE`. -/
def Obligations.RefusalsAreTheTwoHostMoves : Prop :=
  ∀ (s : State) (r : Refusal), step s = .refused r ↔
    rstNow s = false ∧ s.phase = .idle ∧
      ((r = .commandCodeThree ∧ s.host.cmds.head? = some (some .opThree)) ∨
        (r = .programTooLong ∧ ∃ n, s.host.cmds.head? = some (some (.load n)) ∧ s.cfg.progLimit < n))

/-- While a command is in progress `cmd_ready` is low and a new command waits (R100, R101). -/
def Obligations.CommandsWaitWhileOneIsInProgress : Prop :=
  ∀ s t : State, cmdReady s = false → step s = .next t → t.host.cmds = s.host.cmds

/-! ### Whole-machine rules -/

/-- The invariant of R32 is kept by every step, from every state that meets it. -/
def Obligations.EveryStepKeepsTheInvariant : Prop :=
  ∀ s t : State, s.Inv → step s = .next t → t.Inv

/-- No state that meets the invariant stops in a fault: the blocked access of R56 is unreachable. -/
def Obligations.NoStepFaultsUnderTheInvariant : Prop :=
  ∀ (s : State) (f : Fault), s.Inv → step s ≠ .fault f

/-- R6, R118: from every state that meets the invariant, `rst` quiet, the state machine of R118
reaches in finitely many transitions the outcome of the architectural step. -/
def Obligations.StateMachineRefinesTheStep : Prop :=
  ∀ s : State, s.Inv → s.host.rst = [] → ∃ k, 0 < k ∧ runMicro k s = step s

/-- The state machine's transitions keep the invariant as well, so it holds between the phases of an
instruction too. -/
def Obligations.EveryTransitionKeepsTheInvariant : Prop :=
  ∀ s t : State, s.Inv → microStep s = .next t → t.Inv

/-- Every register fits the width the spec gives it (R22 `pc`, R26 `prog_len`, R30 `ir` and `rep`); with a
number as `TAPE_LIMIT` (R8 makes them unbounded otherwise) also `tape_len` (R24), `cursor` (R23), `ncur`
(R30) and `last_rsp.info` (R31), the last where every code fits it (the other configurations are log
entry 19); and `ncur` and `info` are wide enough for every candidate cursor (R136). -/
def Obligations.RegistersFitTheirWidths : Prop :=
  ∀ s : State, s.Inv →
    FitsUnsigned s.cfg.pcW s.pc ∧ FitsUnsigned s.cfg.pcW s.prog.length ∧
    FitsUnsigned s.cfg.wordW s.ir ∧ FitsUnsigned (s.cfg.argW + 1) s.rep ∧
    ∀ l, s.cfg.tapeLimit = some l →
      FitsUnsigned s.cfg.lenW s.tapeLen ∧ FitsUnsigned s.cfg.curW s.cursor ∧
      FitsSigned s.cfg.ncurW s.ncur ∧
      (s.cfg.opcW < s.cfg.infoW → FitsSigned s.cfg.infoW s.lastRsp.info) ∧
      ∀ d, FitsSigned s.cfg.argW d →
        FitsSigned s.cfg.ncurW ((s.cursor : Int) + d) ∧
        FitsSigned s.cfg.infoW ((s.cursor : Int) + d)

/-- R26, R69, R28: only the commit of a LOAD and reset write the Instruction Store, and nothing
writes the configuration. -/
def Obligations.OnlyLoadAndResetWriteTheProgram : Prop :=
  ∀ s t : State, step s = .next t → t.cfg = s.cfg ∧
    (rstNow s = false → s.phase ≠ .loadCommit → t.prog = s.prog)

/-- R24, R25: between loads the tape never shrinks, and a step changes no existing cell but the
current one. -/
def Obligations.TapeOnlyGrowsBetweenLoads : Prop :=
  ∀ s t : State, step s = .next t → rstNow s = false → s.phase ≠ .loadCommit →
    s.tapeLen ≤ t.tapeLen ∧ ∀ i, i < s.tapeLen → i ≠ s.cursor → tapeRead t i = tapeRead s i

/-- R160: only Get uses the input port and only Put the output port. No port activity in a host command
or in the step of any other word; a Get, run or held, makes transactions of the input port only and a
Put of the output port only; and the phases of the other instructions make none. -/
def Obligations.PortsActOnlyInGetAndPut : Prop :=
  ∀ s t : State, step s = .next t →
    (s.phase ≠ .fetch → s.phase ≠ .decode → s.phase ≠ .exGet → s.phase ≠ .exPut → SamePorts s t) ∧
    (s.phase = .fetch → (∀ w n, fetchWord s = some w → decode s.cfg w ≠ .instr (.get n)) →
      t.inp = s.inp ∧ TraceGrows (fun e => !e.isInput) s t) ∧
    (s.phase = .fetch → (∀ w n, fetchWord s = some w → decode s.cfg w ≠ .instr (.put n)) →
      t.out = s.out ∧ TraceGrows PortEvent.isInput s t) ∧
    (s.phase = .fetch → (∀ w n, fetchWord s = some w →
      decode s.cfg w ≠ .instr (.get n) ∧ decode s.cfg w ≠ .instr (.put n)) → SamePorts s t) ∧
    (s.phase = .exGet → t.out = s.out ∧ TraceGrows PortEvent.isInput s t) ∧
    (s.phase = .exPut → t.inp = s.inp ∧ TraceGrows (fun e => !e.isInput) s t) ∧
    (s.phase = .decode → t.inp = s.inp ∧ t.out = s.out ∧ TraceGrows (fun e => !e.isInput) s t ∧
      (Opcode.ofCode (codeOf s.cfg s.ir) ≠ some .put → t.trace = s.trace))

/-- R27 and R31: no step depends on the scratch buffer or on `last_rsp`. -/
def Obligations.ScratchAndLastResponseAreNeverRead : Prop :=
  (∀ (s : State) (cap : Nat) (bytes : List Byte),
    onNext forgetScratch (step (setScratch cap bytes s)) = onNext forgetScratch (step s)) ∧
  (∀ (s : State) (r : Response),
    onNext forgetLastRsp (step (setLastRsp r s)) = onNext forgetLastRsp (step s))

/-- R30: where no instruction is under way, no step depends on `ir`, `rep` and `ncur`. -/
def Obligations.WorkingRegistersAreDeadBetweenInstructions : Prop :=
  ∀ (s : State) (w : Word) (n : Nat) (x : Int), s.phase.midInstr = false →
    onNext forgetDead (step (setIr w (setRep n (setNcur x s)))) = onNext forgetDead (step s)

/-- The placing of a word, which stands for a LOAD and an EXECUTE (the model's own, log entry 7): the
very next step runs the instruction the table word decodes to. -/
def Obligations.PlacedWordRunsNext : Prop :=
  ∀ (s : State) (nbits w : Nat) (i : Instr), s.cfg = Config.defaults →
    decodeTableWord nbits w = some i →
    step (s.withFetchWord nbits w) =
      exec i (setIr (w % 2 ^ nbits) (s.withFetchWord nbits w))
end

