-- ==== Sys2Proof/Laws/Arith.lean ====
section
/-! SUPPORT. Bit fields and the two's-complement readings: `patternOf`, `signedOf`, `wrap` and the two
fields of a word. -/

namespace Sys2Proof

theorem two_pow_split {n : Nat} (h : 1 ≤ n) : 2 ^ n = 2 ^ (n - 1) + 2 ^ (n - 1) := by
  obtain ⟨k, rfl⟩ : ∃ k, n = k + 1 := ⟨n - 1, by omega⟩
  simp [pow_succ]; omega

theorem patternOf_lt (n : Nat) (x : Int) : patternOf n x < 2 ^ n := by
  have hp : (0 : Int) < ((2 ^ n : Nat) : Int) := by exact_mod_cast Nat.two_pow_pos n
  have h1 := Int.emod_lt_of_pos x hp
  have h2 := Int.emod_nonneg x hp.ne'
  unfold patternOf
  omega

/-- The pattern of an integer, as an integer, is its residue. -/
theorem patternOf_cast (n : Nat) (x : Int) :
    (patternOf n x : Int) = x % ((2 ^ n : Nat) : Int) := by
  have hp : (0 : Int) < ((2 ^ n : Nat) : Int) := by exact_mod_cast Nat.two_pow_pos n
  exact Int.toNat_of_nonneg (Int.emod_nonneg x hp.ne')

/-- An unsigned number that fits is its own pattern. -/
theorem patternOf_of_fits {n x : Nat} (h : FitsUnsigned n x) : patternOf n (x : Int) = x := by
  unfold patternOf
  rw [Int.emod_eq_of_lt (by omega) (by exact_mod_cast h)]
  simp

theorem signedOf_fits {n u : Nat} (hn : 1 ≤ n) (hu : u < 2 ^ n) : FitsSigned n (signedOf n u) := by
  have hs := two_pow_split hn
  unfold FitsSigned signedOf
  split <;> constructor <;> omega

/-- The signed reading differs from the pattern by a multiple of `2^n`. -/
theorem signedOf_emod {n u : Nat} (hu : u < 2 ^ n) :
    signedOf n u % ((2 ^ n : Nat) : Int) = u := by
  have h : (u : Int) % ((2 ^ n : Nat) : Int) = u :=
    Int.emod_eq_of_lt (by omega) (by exact_mod_cast hu)
  unfold signedOf
  split
  · exact h
  · rw [Int.sub_emod_right, h]

theorem patternOf_signedOf {n u : Nat} (hu : u < 2 ^ n) : patternOf n (signedOf n u) = u := by
  unfold patternOf
  rw [signedOf_emod hu]
  simp

/-- Zero fits every signed field. -/
theorem zero_fitsSigned (n : Nat) : FitsSigned n 0 := by
  have := Nat.two_pow_pos (n - 1)
  exact ⟨by omega, by omega⟩

/-- Two integers in the signed range that agree modulo `2^n` are equal. -/
theorem fitsSigned_unique {n : Nat} {x y : Int} (hn : 1 ≤ n) (hx : FitsSigned n x)
    (hy : FitsSigned n y) (h : x % ((2 ^ n : Nat) : Int) = y % ((2 ^ n : Nat) : Int)) : x = y := by
  have hs : ((2 ^ n : Nat) : Int) = ((2 ^ (n - 1) : Nat) : Int) + ((2 ^ (n - 1) : Nat) : Int) := by
    exact_mod_cast two_pow_split hn
  obtain ⟨q, hq⟩ : ((2 ^ n : Nat) : Int) ∣ x - y := Int.dvd_of_emod_eq_zero (by
    rw [Int.sub_emod, h]; simp)
  have hp : (0 : Int) < ((2 ^ (n - 1) : Nat) : Int) := by exact_mod_cast Nat.two_pow_pos (n - 1)
  have h1 : x - y < ((2 ^ n : Nat) : Int) := by have := hx.2; have := hy.1; omega
  have h2 : -((2 ^ n : Nat) : Int) < x - y := by have := hx.1; have := hy.2; omega
  have hq0 : q = 0 := by
    rcases lt_trichotomy q 0 with hlt | heq | hgt
    · exfalso; nlinarith
    · exact heq
    · exfalso; nlinarith
  rw [hq0] at hq
  omega

theorem signedOf_patternOf {n : Nat} {x : Int} (hn : 1 ≤ n) (hx : FitsSigned n x) :
    signedOf n (patternOf n x) = x := by
  refine fitsSigned_unique hn (signedOf_fits hn (patternOf_lt n x)) hx ?_
  rw [signedOf_emod (patternOf_lt n x), patternOf_cast]

/-! ### The two fields of a word -/

theorem slice_lt (hi lo v : Nat) : slice hi lo v < 2 ^ (hi + 1 - lo) :=
  Nat.mod_lt _ (Nat.two_pow_pos _)

theorem codeOf_eq {c : Config} (h : 1 ≤ c.opcW) (w : Word) :
    codeOf c w = w / 2 ^ c.argW % 2 ^ c.opcW := by
  have e : c.wordW - 1 + 1 - c.argW = c.opcW := by unfold Config.wordW; omega
  simp [codeOf, slice, e]

theorem argOf_eq {c : Config} (h : 1 ≤ c.argW) (w : Word) : argOf c w = w % 2 ^ c.argW := by
  have e : c.argW - 1 + 1 - 0 = c.argW := by omega
  simp only [argOf, slice, e, pow_zero, Nat.div_one]

theorem codeOf_joinWord {c : Config} (h : 1 ≤ c.opcW) (code arg : Nat) :
    codeOf c (joinWord c code arg) = code % 2 ^ c.opcW := by
  rw [codeOf_eq h, joinWord, mul_comm, Nat.mul_add_div (Nat.two_pow_pos _),
    Nat.div_eq_of_lt (Nat.mod_lt _ (Nat.two_pow_pos _)), Nat.add_zero, Nat.mod_mod]

theorem argOf_joinWord {c : Config} (h : 1 ≤ c.argW) (code arg : Nat) :
    argOf c (joinWord c code arg) = arg % 2 ^ c.argW := by
  rw [argOf_eq h, joinWord, mul_comm, Nat.mul_add_mod, Nat.mod_mod]

/-- A joined word has `OPC_W + ARG_W` bits (R80). -/
theorem joinWord_fits (c : Config) (code arg : Nat) : FitsUnsigned c.wordW (joinWord c code arg) := by
  have h1 := Nat.mod_lt code (Nat.two_pow_pos c.opcW)
  have h2 := Nat.mod_lt arg (Nat.two_pow_pos c.argW)
  have h3 : (code % 2 ^ c.opcW + 1) * 2 ^ c.argW ≤ 2 ^ c.opcW * 2 ^ c.argW :=
    Nat.mul_le_mul_right _ h1
  unfold FitsUnsigned joinWord Config.wordW
  rw [pow_add]
  rw [Nat.add_mul] at h3
  omega

/-- A word is the join of its two fields (R80). -/
theorem joinWord_fields {c : Config} {w : Word} (ho : 1 ≤ c.opcW) (ha : 1 ≤ c.argW)
    (hw : FitsUnsigned c.wordW w) : joinWord c (codeOf c w) (argOf c w) = w := by
  have hd : w / 2 ^ c.argW < 2 ^ c.opcW := by
    apply Nat.div_lt_of_lt_mul
    rw [mul_comm, ← pow_add]
    exact hw
  rw [codeOf_eq ho, argOf_eq ha, joinWord, Nat.mod_mod, Nat.mod_mod, Nat.mod_eq_of_lt hd]
  exact Nat.div_add_mod' w (2 ^ c.argW)

/-- The code numbers are those `Opcode.ofCode` reads (R82). -/
@[simp] theorem Opcode.ofCode_code (op : Opcode) : Opcode.ofCode op.code = some op := by
  cases op <;> rfl

theorem Opcode.ofCode_eq_some {n : Nat} {op : Opcode} (h : Opcode.ofCode n = some op) :
    n = op.code := by
  unfold Opcode.ofCode at h
  split at h <;> first | (cases h; rfl) | cases h

theorem Opcode.ofCode_eq_none_iff (n : Nat) : Opcode.ofCode n = none ↔ 6 ≤ n := by
  unfold Opcode.ofCode
  split <;> simp_all
  omega

theorem Opcode.code_lt (op : Opcode) : op.code < 6 := by cases op <;> decide

/-! ### `wrap` -/

namespace Machine

/-- `wrap_N` lands in the signed range (R9). -/
theorem wrap_fits {n : Nat} (hn : 1 ≤ n) (x : Int) : FitsSigned n (wrap n x) :=
  signedOf_fits hn (patternOf_lt n x)

/-- `wrap_N(x)` is congruent to `x` modulo `2^N` (R9). -/
theorem wrap_emod (n : Nat) (x : Int) :
    wrap n x % ((2 ^ n : Nat) : Int) = x % ((2 ^ n : Nat) : Int) := by
  rw [wrap, signedOf_emod (patternOf_lt n x), patternOf_cast]

/-- A value of the signed range is its own wrap. -/
theorem wrap_of_fits {n : Nat} {x : Int} (hn : 1 ≤ n) (hx : FitsSigned n x) : wrap n x = x :=
  signedOf_patternOf hn hx

end Machine

end Sys2Proof
end

