-- ==== Sys2Proof/Laws/State.lean ====
section
/-! SUPPORT. One lemma per field of `State` for each register write of Machine/Ops.lean and for each
operation that ends an instruction or a command, so that no later proof unfolds a record update. -/

namespace Sys2Proof.Machine

variable (s : State)

/-! `setPc` -/

@[simp] theorem setPc_cfg (v : Nat) : (setPc v s).cfg = s.cfg := rfl
@[simp] theorem setPc_prog (v : Nat) : (setPc v s).prog = s.prog := rfl
@[simp] theorem setPc_tape (v : Nat) : (setPc v s).tape = s.tape := rfl
@[simp] theorem setPc_tapeLen (v : Nat) : (setPc v s).tapeLen = s.tapeLen := rfl
@[simp] theorem setPc_cursor (v : Nat) : (setPc v s).cursor = s.cursor := rfl
@[simp] theorem setPc_pc (v : Nat) : (setPc v s).pc = v := rfl
@[simp] theorem setPc_scratchCap (v : Nat) : (setPc v s).scratchCap = s.scratchCap := rfl
@[simp] theorem setPc_scratch (v : Nat) : (setPc v s).scratch = s.scratch := rfl
@[simp] theorem setPc_phase (v : Nat) : (setPc v s).phase = s.phase := rfl
@[simp] theorem setPc_ir (v : Nat) : (setPc v s).ir = s.ir := rfl
@[simp] theorem setPc_rep (v : Nat) : (setPc v s).rep = s.rep := rfl
@[simp] theorem setPc_ncur (v : Nat) : (setPc v s).ncur = s.ncur := rfl
@[simp] theorem setPc_lastRsp (v : Nat) : (setPc v s).lastRsp = s.lastRsp := rfl
@[simp] theorem setPc_ldLen (v : Nat) : (setPc v s).ldLen = s.ldLen := rfl
@[simp] theorem setPc_ldStage (v : Nat) : (setPc v s).ldStage = s.ldStage := rfl
@[simp] theorem setPc_inp (v : Nat) : (setPc v s).inp = s.inp := rfl
@[simp] theorem setPc_out (v : Nat) : (setPc v s).out = s.out := rfl
@[simp] theorem setPc_host (v : Nat) : (setPc v s).host = s.host := rfl
@[simp] theorem setPc_trace (v : Nat) : (setPc v s).trace = s.trace := rfl

/-! `setPhase` -/

@[simp] theorem setPhase_cfg (p : Phase) : (setPhase p s).cfg = s.cfg := rfl
@[simp] theorem setPhase_prog (p : Phase) : (setPhase p s).prog = s.prog := rfl
@[simp] theorem setPhase_tape (p : Phase) : (setPhase p s).tape = s.tape := rfl
@[simp] theorem setPhase_tapeLen (p : Phase) : (setPhase p s).tapeLen = s.tapeLen := rfl
@[simp] theorem setPhase_cursor (p : Phase) : (setPhase p s).cursor = s.cursor := rfl
@[simp] theorem setPhase_pc (p : Phase) : (setPhase p s).pc = s.pc := rfl
@[simp] theorem setPhase_scratchCap (p : Phase) : (setPhase p s).scratchCap = s.scratchCap := rfl
@[simp] theorem setPhase_scratch (p : Phase) : (setPhase p s).scratch = s.scratch := rfl
@[simp] theorem setPhase_phase (p : Phase) : (setPhase p s).phase = p := rfl
@[simp] theorem setPhase_ir (p : Phase) : (setPhase p s).ir = s.ir := rfl
@[simp] theorem setPhase_rep (p : Phase) : (setPhase p s).rep = s.rep := rfl
@[simp] theorem setPhase_ncur (p : Phase) : (setPhase p s).ncur = s.ncur := rfl
@[simp] theorem setPhase_lastRsp (p : Phase) : (setPhase p s).lastRsp = s.lastRsp := rfl
@[simp] theorem setPhase_ldLen (p : Phase) : (setPhase p s).ldLen = s.ldLen := rfl
@[simp] theorem setPhase_ldStage (p : Phase) : (setPhase p s).ldStage = s.ldStage := rfl
@[simp] theorem setPhase_inp (p : Phase) : (setPhase p s).inp = s.inp := rfl
@[simp] theorem setPhase_out (p : Phase) : (setPhase p s).out = s.out := rfl
@[simp] theorem setPhase_host (p : Phase) : (setPhase p s).host = s.host := rfl
@[simp] theorem setPhase_trace (p : Phase) : (setPhase p s).trace = s.trace := rfl

/-! `setIr` -/

@[simp] theorem setIr_cfg (w : Word) : (setIr w s).cfg = s.cfg := rfl
@[simp] theorem setIr_prog (w : Word) : (setIr w s).prog = s.prog := rfl
@[simp] theorem setIr_tape (w : Word) : (setIr w s).tape = s.tape := rfl
@[simp] theorem setIr_tapeLen (w : Word) : (setIr w s).tapeLen = s.tapeLen := rfl
@[simp] theorem setIr_cursor (w : Word) : (setIr w s).cursor = s.cursor := rfl
@[simp] theorem setIr_pc (w : Word) : (setIr w s).pc = s.pc := rfl
@[simp] theorem setIr_scratchCap (w : Word) : (setIr w s).scratchCap = s.scratchCap := rfl
@[simp] theorem setIr_scratch (w : Word) : (setIr w s).scratch = s.scratch := rfl
@[simp] theorem setIr_phase (w : Word) : (setIr w s).phase = s.phase := rfl
@[simp] theorem setIr_ir (w : Word) : (setIr w s).ir = w := rfl
@[simp] theorem setIr_rep (w : Word) : (setIr w s).rep = s.rep := rfl
@[simp] theorem setIr_ncur (w : Word) : (setIr w s).ncur = s.ncur := rfl
@[simp] theorem setIr_lastRsp (w : Word) : (setIr w s).lastRsp = s.lastRsp := rfl
@[simp] theorem setIr_ldLen (w : Word) : (setIr w s).ldLen = s.ldLen := rfl
@[simp] theorem setIr_ldStage (w : Word) : (setIr w s).ldStage = s.ldStage := rfl
@[simp] theorem setIr_inp (w : Word) : (setIr w s).inp = s.inp := rfl
@[simp] theorem setIr_out (w : Word) : (setIr w s).out = s.out := rfl
@[simp] theorem setIr_host (w : Word) : (setIr w s).host = s.host := rfl
@[simp] theorem setIr_trace (w : Word) : (setIr w s).trace = s.trace := rfl

/-! `setRep` -/

@[simp] theorem setRep_cfg (n : Nat) : (setRep n s).cfg = s.cfg := rfl
@[simp] theorem setRep_prog (n : Nat) : (setRep n s).prog = s.prog := rfl
@[simp] theorem setRep_tape (n : Nat) : (setRep n s).tape = s.tape := rfl
@[simp] theorem setRep_tapeLen (n : Nat) : (setRep n s).tapeLen = s.tapeLen := rfl
@[simp] theorem setRep_cursor (n : Nat) : (setRep n s).cursor = s.cursor := rfl
@[simp] theorem setRep_pc (n : Nat) : (setRep n s).pc = s.pc := rfl
@[simp] theorem setRep_scratchCap (n : Nat) : (setRep n s).scratchCap = s.scratchCap := rfl
@[simp] theorem setRep_scratch (n : Nat) : (setRep n s).scratch = s.scratch := rfl
@[simp] theorem setRep_phase (n : Nat) : (setRep n s).phase = s.phase := rfl
@[simp] theorem setRep_ir (n : Nat) : (setRep n s).ir = s.ir := rfl
@[simp] theorem setRep_rep (n : Nat) : (setRep n s).rep = n := rfl
@[simp] theorem setRep_ncur (n : Nat) : (setRep n s).ncur = s.ncur := rfl
@[simp] theorem setRep_lastRsp (n : Nat) : (setRep n s).lastRsp = s.lastRsp := rfl
@[simp] theorem setRep_ldLen (n : Nat) : (setRep n s).ldLen = s.ldLen := rfl
@[simp] theorem setRep_ldStage (n : Nat) : (setRep n s).ldStage = s.ldStage := rfl
@[simp] theorem setRep_inp (n : Nat) : (setRep n s).inp = s.inp := rfl
@[simp] theorem setRep_out (n : Nat) : (setRep n s).out = s.out := rfl
@[simp] theorem setRep_host (n : Nat) : (setRep n s).host = s.host := rfl
@[simp] theorem setRep_trace (n : Nat) : (setRep n s).trace = s.trace := rfl

/-! `setNcur` -/

@[simp] theorem setNcur_cfg (x : Int) : (setNcur x s).cfg = s.cfg := rfl
@[simp] theorem setNcur_prog (x : Int) : (setNcur x s).prog = s.prog := rfl
@[simp] theorem setNcur_tape (x : Int) : (setNcur x s).tape = s.tape := rfl
@[simp] theorem setNcur_tapeLen (x : Int) : (setNcur x s).tapeLen = s.tapeLen := rfl
@[simp] theorem setNcur_cursor (x : Int) : (setNcur x s).cursor = s.cursor := rfl
@[simp] theorem setNcur_pc (x : Int) : (setNcur x s).pc = s.pc := rfl
@[simp] theorem setNcur_scratchCap (x : Int) : (setNcur x s).scratchCap = s.scratchCap := rfl
@[simp] theorem setNcur_scratch (x : Int) : (setNcur x s).scratch = s.scratch := rfl
@[simp] theorem setNcur_phase (x : Int) : (setNcur x s).phase = s.phase := rfl
@[simp] theorem setNcur_ir (x : Int) : (setNcur x s).ir = s.ir := rfl
@[simp] theorem setNcur_rep (x : Int) : (setNcur x s).rep = s.rep := rfl
@[simp] theorem setNcur_ncur (x : Int) : (setNcur x s).ncur = x := rfl
@[simp] theorem setNcur_lastRsp (x : Int) : (setNcur x s).lastRsp = s.lastRsp := rfl
@[simp] theorem setNcur_ldLen (x : Int) : (setNcur x s).ldLen = s.ldLen := rfl
@[simp] theorem setNcur_ldStage (x : Int) : (setNcur x s).ldStage = s.ldStage := rfl
@[simp] theorem setNcur_inp (x : Int) : (setNcur x s).inp = s.inp := rfl
@[simp] theorem setNcur_out (x : Int) : (setNcur x s).out = s.out := rfl
@[simp] theorem setNcur_host (x : Int) : (setNcur x s).host = s.host := rfl
@[simp] theorem setNcur_trace (x : Int) : (setNcur x s).trace = s.trace := rfl

/-! `setCursor` -/

@[simp] theorem setCursor_cfg (i : Nat) : (setCursor i s).cfg = s.cfg := rfl
@[simp] theorem setCursor_prog (i : Nat) : (setCursor i s).prog = s.prog := rfl
@[simp] theorem setCursor_tape (i : Nat) : (setCursor i s).tape = s.tape := rfl
@[simp] theorem setCursor_tapeLen (i : Nat) : (setCursor i s).tapeLen = s.tapeLen := rfl
@[simp] theorem setCursor_cursor (i : Nat) : (setCursor i s).cursor = i := rfl
@[simp] theorem setCursor_pc (i : Nat) : (setCursor i s).pc = s.pc := rfl
@[simp] theorem setCursor_scratchCap (i : Nat) : (setCursor i s).scratchCap = s.scratchCap := rfl
@[simp] theorem setCursor_scratch (i : Nat) : (setCursor i s).scratch = s.scratch := rfl
@[simp] theorem setCursor_phase (i : Nat) : (setCursor i s).phase = s.phase := rfl
@[simp] theorem setCursor_ir (i : Nat) : (setCursor i s).ir = s.ir := rfl
@[simp] theorem setCursor_rep (i : Nat) : (setCursor i s).rep = s.rep := rfl
@[simp] theorem setCursor_ncur (i : Nat) : (setCursor i s).ncur = s.ncur := rfl
@[simp] theorem setCursor_lastRsp (i : Nat) : (setCursor i s).lastRsp = s.lastRsp := rfl
@[simp] theorem setCursor_ldLen (i : Nat) : (setCursor i s).ldLen = s.ldLen := rfl
@[simp] theorem setCursor_ldStage (i : Nat) : (setCursor i s).ldStage = s.ldStage := rfl
@[simp] theorem setCursor_inp (i : Nat) : (setCursor i s).inp = s.inp := rfl
@[simp] theorem setCursor_out (i : Nat) : (setCursor i s).out = s.out := rfl
@[simp] theorem setCursor_host (i : Nat) : (setCursor i s).host = s.host := rfl
@[simp] theorem setCursor_trace (i : Nat) : (setCursor i s).trace = s.trace := rfl

/-! `setTape` -/

@[simp] theorem setTape_cfg (m : Memory) (n : Nat) : (setTape m n s).cfg = s.cfg := rfl
@[simp] theorem setTape_prog (m : Memory) (n : Nat) : (setTape m n s).prog = s.prog := rfl
@[simp] theorem setTape_tape (m : Memory) (n : Nat) : (setTape m n s).tape = m := rfl
@[simp] theorem setTape_tapeLen (m : Memory) (n : Nat) : (setTape m n s).tapeLen = n := rfl
@[simp] theorem setTape_cursor (m : Memory) (n : Nat) : (setTape m n s).cursor = s.cursor := rfl
@[simp] theorem setTape_pc (m : Memory) (n : Nat) : (setTape m n s).pc = s.pc := rfl
@[simp] theorem setTape_scratchCap (m : Memory) (n : Nat) : (setTape m n s).scratchCap = s.scratchCap := rfl
@[simp] theorem setTape_scratch (m : Memory) (n : Nat) : (setTape m n s).scratch = s.scratch := rfl
@[simp] theorem setTape_phase (m : Memory) (n : Nat) : (setTape m n s).phase = s.phase := rfl
@[simp] theorem setTape_ir (m : Memory) (n : Nat) : (setTape m n s).ir = s.ir := rfl
@[simp] theorem setTape_rep (m : Memory) (n : Nat) : (setTape m n s).rep = s.rep := rfl
@[simp] theorem setTape_ncur (m : Memory) (n : Nat) : (setTape m n s).ncur = s.ncur := rfl
@[simp] theorem setTape_lastRsp (m : Memory) (n : Nat) : (setTape m n s).lastRsp = s.lastRsp := rfl
@[simp] theorem setTape_ldLen (m : Memory) (n : Nat) : (setTape m n s).ldLen = s.ldLen := rfl
@[simp] theorem setTape_ldStage (m : Memory) (n : Nat) : (setTape m n s).ldStage = s.ldStage := rfl
@[simp] theorem setTape_inp (m : Memory) (n : Nat) : (setTape m n s).inp = s.inp := rfl
@[simp] theorem setTape_out (m : Memory) (n : Nat) : (setTape m n s).out = s.out := rfl
@[simp] theorem setTape_host (m : Memory) (n : Nat) : (setTape m n s).host = s.host := rfl
@[simp] theorem setTape_trace (m : Memory) (n : Nat) : (setTape m n s).trace = s.trace := rfl

/-! `setScratch` -/

@[simp] theorem setScratch_cfg (n : Nat) (bs : List Byte) : (setScratch n bs s).cfg = s.cfg := rfl
@[simp] theorem setScratch_prog (n : Nat) (bs : List Byte) : (setScratch n bs s).prog = s.prog := rfl
@[simp] theorem setScratch_tape (n : Nat) (bs : List Byte) : (setScratch n bs s).tape = s.tape := rfl
@[simp] theorem setScratch_tapeLen (n : Nat) (bs : List Byte) : (setScratch n bs s).tapeLen = s.tapeLen := rfl
@[simp] theorem setScratch_cursor (n : Nat) (bs : List Byte) : (setScratch n bs s).cursor = s.cursor := rfl
@[simp] theorem setScratch_pc (n : Nat) (bs : List Byte) : (setScratch n bs s).pc = s.pc := rfl
@[simp] theorem setScratch_scratchCap (n : Nat) (bs : List Byte) : (setScratch n bs s).scratchCap = n := rfl
@[simp] theorem setScratch_scratch (n : Nat) (bs : List Byte) : (setScratch n bs s).scratch = bs := rfl
@[simp] theorem setScratch_phase (n : Nat) (bs : List Byte) : (setScratch n bs s).phase = s.phase := rfl
@[simp] theorem setScratch_ir (n : Nat) (bs : List Byte) : (setScratch n bs s).ir = s.ir := rfl
@[simp] theorem setScratch_rep (n : Nat) (bs : List Byte) : (setScratch n bs s).rep = s.rep := rfl
@[simp] theorem setScratch_ncur (n : Nat) (bs : List Byte) : (setScratch n bs s).ncur = s.ncur := rfl
@[simp] theorem setScratch_lastRsp (n : Nat) (bs : List Byte) : (setScratch n bs s).lastRsp = s.lastRsp := rfl
@[simp] theorem setScratch_ldLen (n : Nat) (bs : List Byte) : (setScratch n bs s).ldLen = s.ldLen := rfl
@[simp] theorem setScratch_ldStage (n : Nat) (bs : List Byte) : (setScratch n bs s).ldStage = s.ldStage := rfl
@[simp] theorem setScratch_inp (n : Nat) (bs : List Byte) : (setScratch n bs s).inp = s.inp := rfl
@[simp] theorem setScratch_out (n : Nat) (bs : List Byte) : (setScratch n bs s).out = s.out := rfl
@[simp] theorem setScratch_host (n : Nat) (bs : List Byte) : (setScratch n bs s).host = s.host := rfl
@[simp] theorem setScratch_trace (n : Nat) (bs : List Byte) : (setScratch n bs s).trace = s.trace := rfl

/-! `setProg` -/

@[simp] theorem setProg_cfg (ws : List Word) : (setProg ws s).cfg = s.cfg := rfl
@[simp] theorem setProg_prog (ws : List Word) : (setProg ws s).prog = ws := rfl
@[simp] theorem setProg_tape (ws : List Word) : (setProg ws s).tape = s.tape := rfl
@[simp] theorem setProg_tapeLen (ws : List Word) : (setProg ws s).tapeLen = s.tapeLen := rfl
@[simp] theorem setProg_cursor (ws : List Word) : (setProg ws s).cursor = s.cursor := rfl
@[simp] theorem setProg_pc (ws : List Word) : (setProg ws s).pc = s.pc := rfl
@[simp] theorem setProg_scratchCap (ws : List Word) : (setProg ws s).scratchCap = s.scratchCap := rfl
@[simp] theorem setProg_scratch (ws : List Word) : (setProg ws s).scratch = s.scratch := rfl
@[simp] theorem setProg_phase (ws : List Word) : (setProg ws s).phase = s.phase := rfl
@[simp] theorem setProg_ir (ws : List Word) : (setProg ws s).ir = s.ir := rfl
@[simp] theorem setProg_rep (ws : List Word) : (setProg ws s).rep = s.rep := rfl
@[simp] theorem setProg_ncur (ws : List Word) : (setProg ws s).ncur = s.ncur := rfl
@[simp] theorem setProg_lastRsp (ws : List Word) : (setProg ws s).lastRsp = s.lastRsp := rfl
@[simp] theorem setProg_ldLen (ws : List Word) : (setProg ws s).ldLen = s.ldLen := rfl
@[simp] theorem setProg_ldStage (ws : List Word) : (setProg ws s).ldStage = s.ldStage := rfl
@[simp] theorem setProg_inp (ws : List Word) : (setProg ws s).inp = s.inp := rfl
@[simp] theorem setProg_out (ws : List Word) : (setProg ws s).out = s.out := rfl
@[simp] theorem setProg_host (ws : List Word) : (setProg ws s).host = s.host := rfl
@[simp] theorem setProg_trace (ws : List Word) : (setProg ws s).trace = s.trace := rfl

/-! `setLastRsp` -/

@[simp] theorem setLastRsp_cfg (r : Response) : (setLastRsp r s).cfg = s.cfg := rfl
@[simp] theorem setLastRsp_prog (r : Response) : (setLastRsp r s).prog = s.prog := rfl
@[simp] theorem setLastRsp_tape (r : Response) : (setLastRsp r s).tape = s.tape := rfl
@[simp] theorem setLastRsp_tapeLen (r : Response) : (setLastRsp r s).tapeLen = s.tapeLen := rfl
@[simp] theorem setLastRsp_cursor (r : Response) : (setLastRsp r s).cursor = s.cursor := rfl
@[simp] theorem setLastRsp_pc (r : Response) : (setLastRsp r s).pc = s.pc := rfl
@[simp] theorem setLastRsp_scratchCap (r : Response) : (setLastRsp r s).scratchCap = s.scratchCap := rfl
@[simp] theorem setLastRsp_scratch (r : Response) : (setLastRsp r s).scratch = s.scratch := rfl
@[simp] theorem setLastRsp_phase (r : Response) : (setLastRsp r s).phase = s.phase := rfl
@[simp] theorem setLastRsp_ir (r : Response) : (setLastRsp r s).ir = s.ir := rfl
@[simp] theorem setLastRsp_rep (r : Response) : (setLastRsp r s).rep = s.rep := rfl
@[simp] theorem setLastRsp_ncur (r : Response) : (setLastRsp r s).ncur = s.ncur := rfl
@[simp] theorem setLastRsp_lastRsp (r : Response) : (setLastRsp r s).lastRsp = r := rfl
@[simp] theorem setLastRsp_ldLen (r : Response) : (setLastRsp r s).ldLen = s.ldLen := rfl
@[simp] theorem setLastRsp_ldStage (r : Response) : (setLastRsp r s).ldStage = s.ldStage := rfl
@[simp] theorem setLastRsp_inp (r : Response) : (setLastRsp r s).inp = s.inp := rfl
@[simp] theorem setLastRsp_out (r : Response) : (setLastRsp r s).out = s.out := rfl
@[simp] theorem setLastRsp_host (r : Response) : (setLastRsp r s).host = s.host := rfl
@[simp] theorem setLastRsp_trace (r : Response) : (setLastRsp r s).trace = s.trace := rfl

/-! `setStage` -/

@[simp] theorem setStage_cfg (n : Nat) (es : List LoadElem) : (setStage n es s).cfg = s.cfg := rfl
@[simp] theorem setStage_prog (n : Nat) (es : List LoadElem) : (setStage n es s).prog = s.prog := rfl
@[simp] theorem setStage_tape (n : Nat) (es : List LoadElem) : (setStage n es s).tape = s.tape := rfl
@[simp] theorem setStage_tapeLen (n : Nat) (es : List LoadElem) : (setStage n es s).tapeLen = s.tapeLen := rfl
@[simp] theorem setStage_cursor (n : Nat) (es : List LoadElem) : (setStage n es s).cursor = s.cursor := rfl
@[simp] theorem setStage_pc (n : Nat) (es : List LoadElem) : (setStage n es s).pc = s.pc := rfl
@[simp] theorem setStage_scratchCap (n : Nat) (es : List LoadElem) : (setStage n es s).scratchCap = s.scratchCap := rfl
@[simp] theorem setStage_scratch (n : Nat) (es : List LoadElem) : (setStage n es s).scratch = s.scratch := rfl
@[simp] theorem setStage_phase (n : Nat) (es : List LoadElem) : (setStage n es s).phase = s.phase := rfl
@[simp] theorem setStage_ir (n : Nat) (es : List LoadElem) : (setStage n es s).ir = s.ir := rfl
@[simp] theorem setStage_rep (n : Nat) (es : List LoadElem) : (setStage n es s).rep = s.rep := rfl
@[simp] theorem setStage_ncur (n : Nat) (es : List LoadElem) : (setStage n es s).ncur = s.ncur := rfl
@[simp] theorem setStage_lastRsp (n : Nat) (es : List LoadElem) : (setStage n es s).lastRsp = s.lastRsp := rfl
@[simp] theorem setStage_ldLen (n : Nat) (es : List LoadElem) : (setStage n es s).ldLen = n := rfl
@[simp] theorem setStage_ldStage (n : Nat) (es : List LoadElem) : (setStage n es s).ldStage = es := rfl
@[simp] theorem setStage_inp (n : Nat) (es : List LoadElem) : (setStage n es s).inp = s.inp := rfl
@[simp] theorem setStage_out (n : Nat) (es : List LoadElem) : (setStage n es s).out = s.out := rfl
@[simp] theorem setStage_host (n : Nat) (es : List LoadElem) : (setStage n es s).host = s.host := rfl
@[simp] theorem setStage_trace (n : Nat) (es : List LoadElem) : (setStage n es s).trace = s.trace := rfl

/-! `setInp` -/

@[simp] theorem setInp_cfg (p : InPort) : (setInp p s).cfg = s.cfg := rfl
@[simp] theorem setInp_prog (p : InPort) : (setInp p s).prog = s.prog := rfl
@[simp] theorem setInp_tape (p : InPort) : (setInp p s).tape = s.tape := rfl
@[simp] theorem setInp_tapeLen (p : InPort) : (setInp p s).tapeLen = s.tapeLen := rfl
@[simp] theorem setInp_cursor (p : InPort) : (setInp p s).cursor = s.cursor := rfl
@[simp] theorem setInp_pc (p : InPort) : (setInp p s).pc = s.pc := rfl
@[simp] theorem setInp_scratchCap (p : InPort) : (setInp p s).scratchCap = s.scratchCap := rfl
@[simp] theorem setInp_scratch (p : InPort) : (setInp p s).scratch = s.scratch := rfl
@[simp] theorem setInp_phase (p : InPort) : (setInp p s).phase = s.phase := rfl
@[simp] theorem setInp_ir (p : InPort) : (setInp p s).ir = s.ir := rfl
@[simp] theorem setInp_rep (p : InPort) : (setInp p s).rep = s.rep := rfl
@[simp] theorem setInp_ncur (p : InPort) : (setInp p s).ncur = s.ncur := rfl
@[simp] theorem setInp_lastRsp (p : InPort) : (setInp p s).lastRsp = s.lastRsp := rfl
@[simp] theorem setInp_ldLen (p : InPort) : (setInp p s).ldLen = s.ldLen := rfl
@[simp] theorem setInp_ldStage (p : InPort) : (setInp p s).ldStage = s.ldStage := rfl
@[simp] theorem setInp_inp (p : InPort) : (setInp p s).inp = p := rfl
@[simp] theorem setInp_out (p : InPort) : (setInp p s).out = s.out := rfl
@[simp] theorem setInp_host (p : InPort) : (setInp p s).host = s.host := rfl
@[simp] theorem setInp_trace (p : InPort) : (setInp p s).trace = s.trace := rfl

/-! `setOut` -/

@[simp] theorem setOut_cfg (p : OutPort) : (setOut p s).cfg = s.cfg := rfl
@[simp] theorem setOut_prog (p : OutPort) : (setOut p s).prog = s.prog := rfl
@[simp] theorem setOut_tape (p : OutPort) : (setOut p s).tape = s.tape := rfl
@[simp] theorem setOut_tapeLen (p : OutPort) : (setOut p s).tapeLen = s.tapeLen := rfl
@[simp] theorem setOut_cursor (p : OutPort) : (setOut p s).cursor = s.cursor := rfl
@[simp] theorem setOut_pc (p : OutPort) : (setOut p s).pc = s.pc := rfl
@[simp] theorem setOut_scratchCap (p : OutPort) : (setOut p s).scratchCap = s.scratchCap := rfl
@[simp] theorem setOut_scratch (p : OutPort) : (setOut p s).scratch = s.scratch := rfl
@[simp] theorem setOut_phase (p : OutPort) : (setOut p s).phase = s.phase := rfl
@[simp] theorem setOut_ir (p : OutPort) : (setOut p s).ir = s.ir := rfl
@[simp] theorem setOut_rep (p : OutPort) : (setOut p s).rep = s.rep := rfl
@[simp] theorem setOut_ncur (p : OutPort) : (setOut p s).ncur = s.ncur := rfl
@[simp] theorem setOut_lastRsp (p : OutPort) : (setOut p s).lastRsp = s.lastRsp := rfl
@[simp] theorem setOut_ldLen (p : OutPort) : (setOut p s).ldLen = s.ldLen := rfl
@[simp] theorem setOut_ldStage (p : OutPort) : (setOut p s).ldStage = s.ldStage := rfl
@[simp] theorem setOut_inp (p : OutPort) : (setOut p s).inp = s.inp := rfl
@[simp] theorem setOut_out (p : OutPort) : (setOut p s).out = p := rfl
@[simp] theorem setOut_host (p : OutPort) : (setOut p s).host = s.host := rfl
@[simp] theorem setOut_trace (p : OutPort) : (setOut p s).trace = s.trace := rfl

/-! `setHost` -/

@[simp] theorem setHost_cfg (h : HostPort) : (setHost h s).cfg = s.cfg := rfl
@[simp] theorem setHost_prog (h : HostPort) : (setHost h s).prog = s.prog := rfl
@[simp] theorem setHost_tape (h : HostPort) : (setHost h s).tape = s.tape := rfl
@[simp] theorem setHost_tapeLen (h : HostPort) : (setHost h s).tapeLen = s.tapeLen := rfl
@[simp] theorem setHost_cursor (h : HostPort) : (setHost h s).cursor = s.cursor := rfl
@[simp] theorem setHost_pc (h : HostPort) : (setHost h s).pc = s.pc := rfl
@[simp] theorem setHost_scratchCap (h : HostPort) : (setHost h s).scratchCap = s.scratchCap := rfl
@[simp] theorem setHost_scratch (h : HostPort) : (setHost h s).scratch = s.scratch := rfl
@[simp] theorem setHost_phase (h : HostPort) : (setHost h s).phase = s.phase := rfl
@[simp] theorem setHost_ir (h : HostPort) : (setHost h s).ir = s.ir := rfl
@[simp] theorem setHost_rep (h : HostPort) : (setHost h s).rep = s.rep := rfl
@[simp] theorem setHost_ncur (h : HostPort) : (setHost h s).ncur = s.ncur := rfl
@[simp] theorem setHost_lastRsp (h : HostPort) : (setHost h s).lastRsp = s.lastRsp := rfl
@[simp] theorem setHost_ldLen (h : HostPort) : (setHost h s).ldLen = s.ldLen := rfl
@[simp] theorem setHost_ldStage (h : HostPort) : (setHost h s).ldStage = s.ldStage := rfl
@[simp] theorem setHost_inp (h : HostPort) : (setHost h s).inp = s.inp := rfl
@[simp] theorem setHost_out (h : HostPort) : (setHost h s).out = s.out := rfl
@[simp] theorem setHost_host (h : HostPort) : (setHost h s).host = h := rfl
@[simp] theorem setHost_trace (h : HostPort) : (setHost h s).trace = s.trace := rfl

/-! `emit` -/

@[simp] theorem emit_cfg (es : List PortEvent) : (emit es s).cfg = s.cfg := rfl
@[simp] theorem emit_prog (es : List PortEvent) : (emit es s).prog = s.prog := rfl
@[simp] theorem emit_tape (es : List PortEvent) : (emit es s).tape = s.tape := rfl
@[simp] theorem emit_tapeLen (es : List PortEvent) : (emit es s).tapeLen = s.tapeLen := rfl
@[simp] theorem emit_cursor (es : List PortEvent) : (emit es s).cursor = s.cursor := rfl
@[simp] theorem emit_pc (es : List PortEvent) : (emit es s).pc = s.pc := rfl
@[simp] theorem emit_scratchCap (es : List PortEvent) : (emit es s).scratchCap = s.scratchCap := rfl
@[simp] theorem emit_scratch (es : List PortEvent) : (emit es s).scratch = s.scratch := rfl
@[simp] theorem emit_phase (es : List PortEvent) : (emit es s).phase = s.phase := rfl
@[simp] theorem emit_ir (es : List PortEvent) : (emit es s).ir = s.ir := rfl
@[simp] theorem emit_rep (es : List PortEvent) : (emit es s).rep = s.rep := rfl
@[simp] theorem emit_ncur (es : List PortEvent) : (emit es s).ncur = s.ncur := rfl
@[simp] theorem emit_lastRsp (es : List PortEvent) : (emit es s).lastRsp = s.lastRsp := rfl
@[simp] theorem emit_ldLen (es : List PortEvent) : (emit es s).ldLen = s.ldLen := rfl
@[simp] theorem emit_ldStage (es : List PortEvent) : (emit es s).ldStage = s.ldStage := rfl
@[simp] theorem emit_inp (es : List PortEvent) : (emit es s).inp = s.inp := rfl
@[simp] theorem emit_out (es : List PortEvent) : (emit es s).out = s.out := rfl
@[simp] theorem emit_host (es : List PortEvent) : (emit es s).host = s.host := rfl
@[simp] theorem emit_trace (es : List PortEvent) : (emit es s).trace = s.trace ++ es := rfl

/-! `respond` -/

@[simp] theorem respond_cfg (r : Response) : (respond r s).cfg = s.cfg := rfl
@[simp] theorem respond_prog (r : Response) : (respond r s).prog = s.prog := rfl
@[simp] theorem respond_tape (r : Response) : (respond r s).tape = s.tape := rfl
@[simp] theorem respond_tapeLen (r : Response) : (respond r s).tapeLen = s.tapeLen := rfl
@[simp] theorem respond_cursor (r : Response) : (respond r s).cursor = s.cursor := rfl
@[simp] theorem respond_pc (r : Response) : (respond r s).pc = s.pc := rfl
@[simp] theorem respond_scratchCap (r : Response) : (respond r s).scratchCap = s.scratchCap := rfl
@[simp] theorem respond_scratch (r : Response) : (respond r s).scratch = s.scratch := rfl
@[simp] theorem respond_phase (r : Response) : (respond r s).phase = .idle := rfl
@[simp] theorem respond_ir (r : Response) : (respond r s).ir = s.ir := rfl
@[simp] theorem respond_rep (r : Response) : (respond r s).rep = s.rep := rfl
@[simp] theorem respond_ncur (r : Response) : (respond r s).ncur = s.ncur := rfl
@[simp] theorem respond_lastRsp (r : Response) : (respond r s).lastRsp = r := rfl
@[simp] theorem respond_ldLen (r : Response) : (respond r s).ldLen = s.ldLen := rfl
@[simp] theorem respond_ldStage (r : Response) : (respond r s).ldStage = s.ldStage := rfl
@[simp] theorem respond_inp (r : Response) : (respond r s).inp = s.inp := rfl
@[simp] theorem respond_out (r : Response) : (respond r s).out = s.out := rfl
@[simp] theorem respond_host (r : Response) :
    (respond r s).host = { s.host with reports := s.host.reports ++ [.response r] } := rfl
@[simp] theorem respond_trace (r : Response) : (respond r s).trace = s.trace := rfl

/-! `freshLoad` -/

@[simp] theorem freshLoad_cfg (ws : List Word) : (freshLoad ws s).cfg = s.cfg := rfl
@[simp] theorem freshLoad_prog (ws : List Word) : (freshLoad ws s).prog = ws := rfl
@[simp] theorem freshLoad_tape (ws : List Word) : (freshLoad ws s).tape = [] := rfl
@[simp] theorem freshLoad_tapeLen (ws : List Word) :
    (freshLoad ws s).tapeLen = s.cfg.initCap := rfl
@[simp] theorem freshLoad_cursor (ws : List Word) : (freshLoad ws s).cursor = 0 := rfl
@[simp] theorem freshLoad_pc (ws : List Word) : (freshLoad ws s).pc = 0 := rfl
@[simp] theorem freshLoad_scratchCap (ws : List Word) :
    (freshLoad ws s).scratchCap = s.cfg.scratchInit := rfl
@[simp] theorem freshLoad_scratch (ws : List Word) : (freshLoad ws s).scratch = [] := rfl
@[simp] theorem freshLoad_phase (ws : List Word) : (freshLoad ws s).phase = s.phase := rfl
@[simp] theorem freshLoad_ir (ws : List Word) : (freshLoad ws s).ir = s.ir := rfl
@[simp] theorem freshLoad_rep (ws : List Word) : (freshLoad ws s).rep = s.rep := rfl
@[simp] theorem freshLoad_ncur (ws : List Word) : (freshLoad ws s).ncur = s.ncur := rfl
@[simp] theorem freshLoad_lastRsp (ws : List Word) : (freshLoad ws s).lastRsp = s.lastRsp := rfl
@[simp] theorem freshLoad_ldLen (ws : List Word) : (freshLoad ws s).ldLen = s.ldLen := rfl
@[simp] theorem freshLoad_ldStage (ws : List Word) : (freshLoad ws s).ldStage = s.ldStage := rfl
@[simp] theorem freshLoad_inp (ws : List Word) : (freshLoad ws s).inp = s.inp := rfl
@[simp] theorem freshLoad_out (ws : List Word) : (freshLoad ws s).out = s.out := rfl
@[simp] theorem freshLoad_host (ws : List Word) : (freshLoad ws s).host = s.host := rfl
@[simp] theorem freshLoad_trace (ws : List Word) : (freshLoad ws s).trace = s.trace := rfl

/-! `assertReset` -/

@[simp] theorem assertReset_cfg : (assertReset s).cfg = s.cfg := rfl
@[simp] theorem assertReset_prog : (assertReset s).prog = [] := rfl
@[simp] theorem assertReset_tape : (assertReset s).tape = [] := rfl
@[simp] theorem assertReset_tapeLen : (assertReset s).tapeLen = s.cfg.initCap := rfl
@[simp] theorem assertReset_cursor : (assertReset s).cursor = 0 := rfl
@[simp] theorem assertReset_pc : (assertReset s).pc = 0 := rfl
@[simp] theorem assertReset_scratchCap : (assertReset s).scratchCap = s.cfg.scratchInit := rfl
@[simp] theorem assertReset_scratch : (assertReset s).scratch = [] := rfl
@[simp] theorem assertReset_phase : (assertReset s).phase = .idle := rfl
@[simp] theorem assertReset_ir : (assertReset s).ir = 0 := rfl
@[simp] theorem assertReset_rep : (assertReset s).rep = 0 := rfl
@[simp] theorem assertReset_ncur : (assertReset s).ncur = 0 := rfl
@[simp] theorem assertReset_lastRsp : (assertReset s).lastRsp = { kind := .ok, info := 0 } := rfl
@[simp] theorem assertReset_ldLen : (assertReset s).ldLen = 0 := rfl
@[simp] theorem assertReset_ldStage : (assertReset s).ldStage = [] := rfl
@[simp] theorem assertReset_inp : (assertReset s).inp = s.inp := rfl
@[simp] theorem assertReset_out : (assertReset s).out = s.out := rfl
@[simp] theorem assertReset_host : (assertReset s).host = s.host := rfl
@[simp] theorem assertReset_trace : (assertReset s).trace = s.trace := rfl

/-! `raiseFault` -/

@[simp] theorem raiseFault_cfg (k : RspKind) (x : Int) : (raiseFault k x s).cfg = s.cfg := rfl
@[simp] theorem raiseFault_prog (k : RspKind) (x : Int) : (raiseFault k x s).prog = s.prog := rfl
@[simp] theorem raiseFault_tape (k : RspKind) (x : Int) : (raiseFault k x s).tape = s.tape := rfl
@[simp] theorem raiseFault_tapeLen (k : RspKind) (x : Int) :
    (raiseFault k x s).tapeLen = s.tapeLen := rfl
@[simp] theorem raiseFault_cursor (k : RspKind) (x : Int) :
    (raiseFault k x s).cursor = s.cursor := rfl
@[simp] theorem raiseFault_pc (k : RspKind) (x : Int) : (raiseFault k x s).pc = s.pc := rfl
@[simp] theorem raiseFault_scratchCap (k : RspKind) (x : Int) :
    (raiseFault k x s).scratchCap = s.scratchCap := rfl
@[simp] theorem raiseFault_scratch (k : RspKind) (x : Int) :
    (raiseFault k x s).scratch = s.scratch := rfl
@[simp] theorem raiseFault_phase (k : RspKind) (x : Int) : (raiseFault k x s).phase = .idle := rfl
@[simp] theorem raiseFault_ir (k : RspKind) (x : Int) : (raiseFault k x s).ir = s.ir := rfl
@[simp] theorem raiseFault_rep (k : RspKind) (x : Int) : (raiseFault k x s).rep = s.rep := rfl
@[simp] theorem raiseFault_ncur (k : RspKind) (x : Int) : (raiseFault k x s).ncur = s.ncur := rfl
@[simp] theorem raiseFault_lastRsp (k : RspKind) (x : Int) :
    (raiseFault k x s).lastRsp = { kind := k, info := x } := rfl
@[simp] theorem raiseFault_ldLen (k : RspKind) (x : Int) :
    (raiseFault k x s).ldLen = s.ldLen := rfl
@[simp] theorem raiseFault_ldStage (k : RspKind) (x : Int) :
    (raiseFault k x s).ldStage = s.ldStage := rfl
@[simp] theorem raiseFault_inp (k : RspKind) (x : Int) : (raiseFault k x s).inp = s.inp := rfl
@[simp] theorem raiseFault_out (k : RspKind) (x : Int) : (raiseFault k x s).out = s.out := rfl
@[simp] theorem raiseFault_host (k : RspKind) (x : Int) : (raiseFault k x s).host = { s.host with
      reports := s.host.reports ++ [.response { kind := k, info := x }] } := rfl
@[simp] theorem raiseFault_trace (k : RspKind) (x : Int) :
    (raiseFault k x s).trace = s.trace := rfl

/-! `endInstr` -/

@[simp] theorem endInstr_cfg (tk : Bool) (off : Int) : (endInstr tk off s).cfg = s.cfg := rfl
@[simp] theorem endInstr_prog (tk : Bool) (off : Int) : (endInstr tk off s).prog = s.prog := rfl
@[simp] theorem endInstr_tape (tk : Bool) (off : Int) : (endInstr tk off s).tape = s.tape := rfl
@[simp] theorem endInstr_tapeLen (tk : Bool) (off : Int) :
    (endInstr tk off s).tapeLen = s.tapeLen := rfl
@[simp] theorem endInstr_cursor (tk : Bool) (off : Int) :
    (endInstr tk off s).cursor = s.cursor := rfl
@[simp] theorem endInstr_pc (tk : Bool) (off : Int) :
    (endInstr tk off s).pc = nextPc s.cfg s.pc tk off := rfl
@[simp] theorem endInstr_scratchCap (tk : Bool) (off : Int) :
    (endInstr tk off s).scratchCap = s.scratchCap := rfl
@[simp] theorem endInstr_scratch (tk : Bool) (off : Int) :
    (endInstr tk off s).scratch = s.scratch := rfl
@[simp] theorem endInstr_phase (tk : Bool) (off : Int) : (endInstr tk off s).phase = .fetch := rfl
@[simp] theorem endInstr_ir (tk : Bool) (off : Int) : (endInstr tk off s).ir = s.ir := rfl
@[simp] theorem endInstr_rep (tk : Bool) (off : Int) : (endInstr tk off s).rep = s.rep := rfl
@[simp] theorem endInstr_ncur (tk : Bool) (off : Int) : (endInstr tk off s).ncur = s.ncur := rfl
@[simp] theorem endInstr_lastRsp (tk : Bool) (off : Int) :
    (endInstr tk off s).lastRsp = s.lastRsp := rfl
@[simp] theorem endInstr_ldLen (tk : Bool) (off : Int) : (endInstr tk off s).ldLen = s.ldLen := rfl
@[simp] theorem endInstr_ldStage (tk : Bool) (off : Int) :
    (endInstr tk off s).ldStage = s.ldStage := rfl
@[simp] theorem endInstr_inp (tk : Bool) (off : Int) : (endInstr tk off s).inp = s.inp := rfl
@[simp] theorem endInstr_out (tk : Bool) (off : Int) : (endInstr tk off s).out = s.out := rfl
@[simp] theorem endInstr_host (tk : Bool) (off : Int) : (endInstr tk off s).host = s.host := rfl
@[simp] theorem endInstr_trace (tk : Bool) (off : Int) : (endInstr tk off s).trace = s.trace := rfl

/-! `advance` -/

@[simp] theorem advance_cfg : (advance s).cfg = s.cfg := rfl
@[simp] theorem advance_prog : (advance s).prog = s.prog := rfl
@[simp] theorem advance_tape : (advance s).tape = s.tape := rfl
@[simp] theorem advance_tapeLen : (advance s).tapeLen = s.tapeLen := rfl
@[simp] theorem advance_cursor : (advance s).cursor = s.cursor := rfl
@[simp] theorem advance_pc : (advance s).pc = nextPc s.cfg s.pc false 0 := rfl
@[simp] theorem advance_scratchCap : (advance s).scratchCap = s.scratchCap := rfl
@[simp] theorem advance_scratch : (advance s).scratch = s.scratch := rfl
@[simp] theorem advance_phase : (advance s).phase = .fetch := rfl
@[simp] theorem advance_ir : (advance s).ir = s.ir := rfl
@[simp] theorem advance_rep : (advance s).rep = s.rep := rfl
@[simp] theorem advance_ncur : (advance s).ncur = s.ncur := rfl
@[simp] theorem advance_lastRsp : (advance s).lastRsp = s.lastRsp := rfl
@[simp] theorem advance_ldLen : (advance s).ldLen = s.ldLen := rfl
@[simp] theorem advance_ldStage : (advance s).ldStage = s.ldStage := rfl
@[simp] theorem advance_inp : (advance s).inp = s.inp := rfl
@[simp] theorem advance_out : (advance s).out = s.out := rfl
@[simp] theorem advance_host : (advance s).host = s.host := rfl
@[simp] theorem advance_trace : (advance s).trace = s.trace := rfl

/-! `polled` -/

@[simp] theorem polled_cfg : (polled s).cfg = s.cfg := rfl
@[simp] theorem polled_prog : (polled s).prog = s.prog := rfl
@[simp] theorem polled_tape : (polled s).tape = s.tape := rfl
@[simp] theorem polled_tapeLen : (polled s).tapeLen = s.tapeLen := rfl
@[simp] theorem polled_cursor : (polled s).cursor = s.cursor := rfl
@[simp] theorem polled_pc : (polled s).pc = s.pc := rfl
@[simp] theorem polled_scratchCap : (polled s).scratchCap = s.scratchCap := rfl
@[simp] theorem polled_scratch : (polled s).scratch = s.scratch := rfl
@[simp] theorem polled_phase : (polled s).phase = s.phase := rfl
@[simp] theorem polled_ir : (polled s).ir = s.ir := rfl
@[simp] theorem polled_rep : (polled s).rep = s.rep := rfl
@[simp] theorem polled_ncur : (polled s).ncur = s.ncur := rfl
@[simp] theorem polled_lastRsp : (polled s).lastRsp = s.lastRsp := rfl
@[simp] theorem polled_ldLen : (polled s).ldLen = s.ldLen := rfl
@[simp] theorem polled_ldStage : (polled s).ldStage = s.ldStage := rfl
@[simp] theorem polled_inp : (polled s).inp = s.inp.drop 1 := rfl
@[simp] theorem polled_out : (polled s).out = s.out := rfl
@[simp] theorem polled_host : (polled s).host = s.host := rfl
@[simp] theorem polled_trace : (polled s).trace = s.trace := rfl

/-! `offered` -/

@[simp] theorem offered_cfg : (offered s).cfg = s.cfg := rfl
@[simp] theorem offered_prog : (offered s).prog = s.prog := rfl
@[simp] theorem offered_tape : (offered s).tape = s.tape := rfl
@[simp] theorem offered_tapeLen : (offered s).tapeLen = s.tapeLen := rfl
@[simp] theorem offered_cursor : (offered s).cursor = s.cursor := rfl
@[simp] theorem offered_pc : (offered s).pc = s.pc := rfl
@[simp] theorem offered_scratchCap : (offered s).scratchCap = s.scratchCap := rfl
@[simp] theorem offered_scratch : (offered s).scratch = s.scratch := rfl
@[simp] theorem offered_phase : (offered s).phase = s.phase := rfl
@[simp] theorem offered_ir : (offered s).ir = s.ir := rfl
@[simp] theorem offered_rep : (offered s).rep = s.rep := rfl
@[simp] theorem offered_ncur : (offered s).ncur = s.ncur := rfl
@[simp] theorem offered_lastRsp : (offered s).lastRsp = s.lastRsp := rfl
@[simp] theorem offered_ldLen : (offered s).ldLen = s.ldLen := rfl
@[simp] theorem offered_ldStage : (offered s).ldStage = s.ldStage := rfl
@[simp] theorem offered_inp : (offered s).inp = s.inp := rfl
@[simp] theorem offered_out : (offered s).out = s.out.drop 1 := rfl
@[simp] theorem offered_host : (offered s).host = s.host := rfl
@[simp] theorem offered_trace : (offered s).trace = s.trace := rfl

/-! `growStep` -/

@[simp] theorem growStep_cfg : (growStep s).cfg = s.cfg := rfl
@[simp] theorem growStep_prog : (growStep s).prog = s.prog := rfl
@[simp] theorem growStep_tape : (growStep s).tape = s.tape.below s.tapeLen := rfl
@[simp] theorem growStep_tapeLen : (growStep s).tapeLen = grownLen s.cfg.maxGrowth s.tapeLen := rfl
@[simp] theorem growStep_cursor : (growStep s).cursor = s.cursor := rfl
@[simp] theorem growStep_pc : (growStep s).pc = s.pc := rfl
@[simp] theorem growStep_scratchCap : (growStep s).scratchCap = s.scratchCap := rfl
@[simp] theorem growStep_scratch : (growStep s).scratch = s.scratch := rfl
@[simp] theorem growStep_phase : (growStep s).phase = s.phase := rfl
@[simp] theorem growStep_ir : (growStep s).ir = s.ir := rfl
@[simp] theorem growStep_rep : (growStep s).rep = s.rep := rfl
@[simp] theorem growStep_ncur : (growStep s).ncur = s.ncur := rfl
@[simp] theorem growStep_lastRsp : (growStep s).lastRsp = s.lastRsp := rfl
@[simp] theorem growStep_ldLen : (growStep s).ldLen = s.ldLen := rfl
@[simp] theorem growStep_ldStage : (growStep s).ldStage = s.ldStage := rfl
@[simp] theorem growStep_inp : (growStep s).inp = s.inp := rfl
@[simp] theorem growStep_out : (growStep s).out = s.out := rfl
@[simp] theorem growStep_host : (growStep s).host = s.host := rfl
@[simp] theorem growStep_trace : (growStep s).trace = s.trace := rfl

end Sys2Proof.Machine
end

