-- ==== Sys2Proof/Laws/Memory.lean ====
section
/-! SUPPORT. The tape as data: read after write, and that every operation keeps the canonical form
(`Memory.wf`). -/

namespace Sys2Proof.Machine

@[simp] theorem Memory.unlisted_eq : Memory.unlisted = 0 := rfl

@[simp] theorem Memory.read_nil (i : Nat) : Memory.read [] i = 0 := rfl

@[simp] theorem Memory.read_cons (k : Nat) (v : Int) (m : Memory) (i : Nat) :
    Memory.read ((k, v) :: m) i = if k = i then v else Memory.read m i := rfl

@[simp] theorem Memory.wf_nil : Memory.wf [] = true := rfl

@[simp] theorem Memory.wfFrom_nil (lo : Nat) : Memory.wfFrom lo [] = true := rfl

theorem Memory.wfFrom_cons (lo k : Nat) (v : Int) (m : Memory) :
    Memory.wfFrom lo ((k, v) :: m) = true ↔ lo ≤ k ∧ v ≠ 0 ∧ Memory.wfFrom (k + 1) m = true := by
  simp only [Memory.wfFrom, Bool.and_eq_true, decide_eq_true_eq, and_assoc]
  exact Iff.rfl

theorem Memory.wfFrom_mono {lo lo' : Nat} {m : Memory} (h : lo' ≤ lo)
    (hm : Memory.wfFrom lo m = true) : Memory.wfFrom lo' m = true := by
  cases m with
  | nil => rfl
  | cons c m =>
    obtain ⟨k, v⟩ := c
    rw [Memory.wfFrom_cons] at hm ⊢
    exact ⟨h.trans hm.1, hm.2⟩

/-- In a canonical tape nothing is listed below its first index. -/
theorem Memory.read_of_lt {lo i : Nat} {m : Memory} (hm : Memory.wfFrom lo m = true) (h : i < lo) :
    m.read i = 0 := by
  induction m generalizing lo with
  | nil => rfl
  | cons c m ih =>
    obtain ⟨k, v⟩ := c
    rw [Memory.wfFrom_cons] at hm
    have hk : k ≠ i := by omega
    simp [hk, ih hm.2.2 (by omega)]

theorem Memory.cons_wfFrom {lo i : Nat} {v : Int} {m : Memory} (hlo : lo ≤ i)
    (hm : Memory.wfFrom (i + 1) m = true) : Memory.wfFrom lo (Memory.cons i v m) = true := by
  unfold Memory.cons
  split
  · exact Memory.wfFrom_mono (by omega) hm
  · rename_i hv
    rw [Memory.wfFrom_cons]
    exact ⟨hlo, hv, hm⟩

theorem Memory.write_wfFrom {lo i : Nat} {v : Int} {m : Memory} (hlo : lo ≤ i)
    (hm : Memory.wfFrom lo m = true) : Memory.wfFrom lo (m.write i v) = true := by
  induction m generalizing lo with
  | nil => exact Memory.cons_wfFrom hlo rfl
  | cons c m ih =>
    obtain ⟨k, w⟩ := c
    have hc := (Memory.wfFrom_cons lo k w m).1 hm
    unfold Memory.write
    split
    · rename_i hik
      exact Memory.cons_wfFrom hlo ((Memory.wfFrom_cons _ _ _ _).2 ⟨hik, hc.2⟩)
    · split
      · rename_i hik
        subst hik
        exact Memory.cons_wfFrom hlo hc.2.2
      · rw [Memory.wfFrom_cons]
        exact ⟨hc.1, hc.2.1, ih (by omega) hc.2.2⟩

/-- A write keeps the canonical form. -/
theorem Memory.write_wf {i : Nat} {v : Int} {m : Memory} (hm : m.wf = true) :
    (m.write i v).wf = true :=
  Memory.write_wfFrom (Nat.zero_le i) hm

theorem Memory.read_cons_same {i : Nat} {v : Int} {m : Memory}
    (hm : Memory.wfFrom (i + 1) m = true) : (Memory.cons i v m).read i = v := by
  unfold Memory.cons
  split
  · rename_i hv
    rw [hv, Memory.read_of_lt hm (Nat.lt_succ_self i), Memory.unlisted_eq]
  · simp

theorem Memory.read_cons_ne {i j : Nat} {v : Int} {m : Memory} (h : i ≠ j) :
    (Memory.cons i v m).read j = m.read j := by
  unfold Memory.cons
  split <;> simp [h]

theorem Memory.read_write_same_from {lo i : Nat} {v : Int} {m : Memory}
    (hm : Memory.wfFrom lo m = true) : (m.write i v).read i = v := by
  induction m generalizing lo with
  | nil => exact Memory.read_cons_same rfl
  | cons c m ih =>
    obtain ⟨k, w⟩ := c
    have hc := (Memory.wfFrom_cons lo k w m).1 hm
    unfold Memory.write
    split
    · rename_i hik
      exact Memory.read_cons_same ((Memory.wfFrom_cons _ _ _ _).2 ⟨hik, hc.2⟩)
    · split
      · rename_i hik
        subst hik
        exact Memory.read_cons_same hc.2.2
      · rename_i hlt hne
        rw [Memory.read_cons, if_neg (Ne.symm hne)]
        exact ih hc.2.2

/-- A cell reads as it was last written. -/
theorem Memory.read_write_same {i : Nat} {v : Int} {m : Memory} (hm : m.wf = true) :
    (m.write i v).read i = v :=
  Memory.read_write_same_from hm

/-- A write leaves every other cell alone. -/
theorem Memory.read_write_ne {i j : Nat} {v : Int} {m : Memory} (h : j ≠ i) :
    (m.write i v).read j = m.read j := by
  induction m with
  | nil => exact Memory.read_cons_ne (Ne.symm h)
  | cons c m ih =>
    obtain ⟨k, w⟩ := c
    unfold Memory.write
    split
    · exact Memory.read_cons_ne (Ne.symm h)
    · split
      · rename_i hik
        subst hik
        rw [Memory.read_cons_ne (Ne.symm h), Memory.read_cons, if_neg (Ne.symm h)]
      · simp [ih]

theorem Memory.mem_cons_cell {i : Nat} {v : Int} {m : Memory} {c : Nat × Int}
    (h : c ∈ Memory.cons i v m) : c = (i, v) ∨ c ∈ m := by
  unfold Memory.cons at h
  split at h
  · exact .inr h
  · simpa using h

/-- Every entry after a write is the written one or an old one. -/
theorem Memory.mem_write {i : Nat} {v : Int} {m : Memory} {c : Nat × Int}
    (h : c ∈ m.write i v) : c = (i, v) ∨ c ∈ m := by
  induction m with
  | nil => exact Memory.mem_cons_cell h
  | cons e m ih =>
    obtain ⟨k, w⟩ := e
    unfold Memory.write at h
    split at h
    · exact Memory.mem_cons_cell h
    · split at h
      · rcases Memory.mem_cons_cell h with h | h
        · exact .inl h
        · exact .inr (List.mem_cons_of_mem _ h)
      · rcases List.mem_cons.1 h with h | h
        · exact .inr (by simp [h])
        · exact (ih h).imp_right (List.mem_cons_of_mem _)

theorem Memory.below_wfFrom {lo : Nat} {m : Memory} (n : Nat) (hm : Memory.wfFrom lo m = true) :
    Memory.wfFrom lo (m.below n) = true := by
  induction m generalizing lo with
  | nil => rfl
  | cons c m ih =>
    obtain ⟨k, v⟩ := c
    rw [Memory.wfFrom_cons] at hm
    by_cases hk : k < n
    · simp only [Memory.below, List.filter_cons, hk, decide_true, if_true]
      rw [Memory.wfFrom_cons]
      exact ⟨hm.1, hm.2.1, ih hm.2.2⟩
    · simp only [Memory.below, List.filter_cons, hk, decide_false, Bool.false_eq_true, if_false]
      exact Memory.wfFrom_mono (by omega) (ih hm.2.2)

/-- Cutting a tape keeps the canonical form. -/
theorem Memory.below_wf {m : Memory} (n : Nat) (hm : m.wf = true) : (m.below n).wf = true :=
  Memory.below_wfFrom n hm

/-- Cutting a tape keeps the cells below the cut; the others read 0. -/
theorem Memory.read_below (m : Memory) (n i : Nat) :
    (m.below n).read i = if i < n then m.read i else 0 := by
  induction m with
  | nil => simp [Memory.below]
  | cons c m ih =>
    obtain ⟨k, v⟩ := c
    unfold Memory.below at ih ⊢
    by_cases hk : k < n
    · simp only [List.filter_cons, hk, decide_true, if_true, Memory.read_cons, ih]
      by_cases hki : k = i
      · subst hki; simp [hk]
      · simp [hki]
    · simp only [List.filter_cons, hk, decide_false, Bool.false_eq_true, if_false,
        Memory.read_cons, ih]
      by_cases hki : k = i
      · subst hki; simp [hk]
      · simp [hki]

/-- Cutting at a length no entry reaches changes nothing. -/
theorem Memory.below_eq_self {m : Memory} {n : Nat} (h : ∀ c ∈ m, c.1 < n) : m.below n = m := by
  simpa [Memory.below, List.filter_eq_self] using h

theorem Memory.mem_below {m : Memory} {n : Nat} {c : Nat × Int} (h : c ∈ m.below n) :
    c ∈ m ∧ c.1 < n := by
  simpa [Memory.below] using h

theorem Memory.write_cons_same {i : Nat} {v w : Int} {m : Memory}
    (hm : Memory.wfFrom (i + 1) m = true) :
    (Memory.cons i v m).write i w = Memory.cons i w m := by
  unfold Memory.cons
  split
  · cases m with
    | nil => rfl
    | cons c m =>
      obtain ⟨k, x⟩ := c
      have hk := ((Memory.wfFrom_cons _ _ _ _).1 hm).1
      have hik : i < k := by omega
      simp [Memory.write, hik, Memory.cons]
  · simp [Memory.write, Memory.cons]

theorem Memory.write_write_from {lo i : Nat} {v w : Int} {m : Memory}
    (hm : Memory.wfFrom lo m = true) : (m.write i v).write i w = m.write i w := by
  induction m generalizing lo with
  | nil => exact Memory.write_cons_same rfl
  | cons c m ih =>
    obtain ⟨k, x⟩ := c
    have hc := (Memory.wfFrom_cons lo k x m).1 hm
    rw [Memory.write.eq_2, Memory.write.eq_2]
    split
    · rename_i hik
      exact Memory.write_cons_same ((Memory.wfFrom_cons _ _ _ _).2 ⟨hik, hc.2⟩)
    · split
      · rename_i hik
        subst hik
        exact Memory.write_cons_same hc.2.2
      · rename_i hlt hne
        rw [Memory.write.eq_2, if_neg hlt, if_neg hne, ih hc.2.2]

/-- The last write to a cell stays. -/
theorem Memory.write_write {i : Nat} {v w : Int} {m : Memory} (hm : m.wf = true) :
    (m.write i v).write i w = m.write i w :=
  Memory.write_write_from hm

/-- The reset tape is canonical. -/
theorem reset_tape_wf : State.reset.tape.wf = true := rfl

end Sys2Proof.Machine
end

