-- ==== Sys2Proof/Laws/Ops.lean ====
section
/-! SUPPORT. What each shared operation of Machine/Ops.lean does, said once. -/

namespace Sys2Proof.Machine

/-! ### Tape access (R56, R57) -/

theorem tapeRead_of_lt {s : State} {i : Nat} (h : i < s.tapeLen) :
    tapeRead s i = some (s.tape.read i) := if_pos h

theorem tapeRead_of_ge {s : State} {i : Nat} (h : s.tapeLen ≤ i) : tapeRead s i = none :=
  if_neg (Nat.not_lt.2 h)

theorem readCurrent_of_lt {s : State} (h : s.cursor < s.tapeLen) :
    readCurrent s = some (s.tape.read s.cursor) := tapeRead_of_lt h

theorem readCurrent_eq_some {s : State} {v : Int} (h : readCurrent s = some v) :
    s.cursor < s.tapeLen ∧ v = s.tape.read s.cursor := by
  unfold readCurrent tapeRead at h
  split at h
  · exact ⟨‹_›, by simpa using h.symm⟩
  · cases h

theorem readCurrent_eq_none {s : State} (h : readCurrent s = none) : s.tapeLen ≤ s.cursor := by
  unfold readCurrent tapeRead at h
  split at h
  · cases h
  · exact Nat.not_lt.1 ‹_›

theorem tapeWrite_of_lt {s : State} {i : Nat} {v : Int} (h : i < s.tapeLen) :
    tapeWrite i v s = { s with tape := s.tape.write i v } := if_pos h

theorem tapeWrite_of_ge {s : State} {i : Nat} {v : Int} (h : s.tapeLen ≤ i) : tapeWrite i v s = s :=
  if_neg (Nat.not_lt.2 h)

theorem writeCurrent_of_lt {s : State} {v : Int} (h : s.cursor < s.tapeLen) :
    writeCurrent v s = { s with tape := s.tape.write s.cursor v } := tapeWrite_of_lt h

@[simp] theorem tapeWrite_cfg (i : Nat) (v : Int) (s : State) :
    (tapeWrite i v s).cfg = s.cfg := by unfold tapeWrite; split <;> rfl
@[simp] theorem tapeWrite_prog (i : Nat) (v : Int) (s : State) :
    (tapeWrite i v s).prog = s.prog := by unfold tapeWrite; split <;> rfl
@[simp] theorem tapeWrite_tapeLen (i : Nat) (v : Int) (s : State) :
    (tapeWrite i v s).tapeLen = s.tapeLen := by unfold tapeWrite; split <;> rfl
@[simp] theorem tapeWrite_cursor (i : Nat) (v : Int) (s : State) :
    (tapeWrite i v s).cursor = s.cursor := by unfold tapeWrite; split <;> rfl
@[simp] theorem tapeWrite_pc (i : Nat) (v : Int) (s : State) :
    (tapeWrite i v s).pc = s.pc := by unfold tapeWrite; split <;> rfl
@[simp] theorem tapeWrite_scratchCap (i : Nat) (v : Int) (s : State) :
    (tapeWrite i v s).scratchCap = s.scratchCap := by unfold tapeWrite; split <;> rfl
@[simp] theorem tapeWrite_scratch (i : Nat) (v : Int) (s : State) :
    (tapeWrite i v s).scratch = s.scratch := by unfold tapeWrite; split <;> rfl
@[simp] theorem tapeWrite_phase (i : Nat) (v : Int) (s : State) :
    (tapeWrite i v s).phase = s.phase := by unfold tapeWrite; split <;> rfl
@[simp] theorem tapeWrite_ir (i : Nat) (v : Int) (s : State) :
    (tapeWrite i v s).ir = s.ir := by unfold tapeWrite; split <;> rfl
@[simp] theorem tapeWrite_rep (i : Nat) (v : Int) (s : State) :
    (tapeWrite i v s).rep = s.rep := by unfold tapeWrite; split <;> rfl
@[simp] theorem tapeWrite_ncur (i : Nat) (v : Int) (s : State) :
    (tapeWrite i v s).ncur = s.ncur := by unfold tapeWrite; split <;> rfl
@[simp] theorem tapeWrite_lastRsp (i : Nat) (v : Int) (s : State) :
    (tapeWrite i v s).lastRsp = s.lastRsp := by unfold tapeWrite; split <;> rfl
@[simp] theorem tapeWrite_ldLen (i : Nat) (v : Int) (s : State) :
    (tapeWrite i v s).ldLen = s.ldLen := by unfold tapeWrite; split <;> rfl
@[simp] theorem tapeWrite_ldStage (i : Nat) (v : Int) (s : State) :
    (tapeWrite i v s).ldStage = s.ldStage := by unfold tapeWrite; split <;> rfl
@[simp] theorem tapeWrite_inp (i : Nat) (v : Int) (s : State) :
    (tapeWrite i v s).inp = s.inp := by unfold tapeWrite; split <;> rfl
@[simp] theorem tapeWrite_out (i : Nat) (v : Int) (s : State) :
    (tapeWrite i v s).out = s.out := by unfold tapeWrite; split <;> rfl
@[simp] theorem tapeWrite_host (i : Nat) (v : Int) (s : State) :
    (tapeWrite i v s).host = s.host := by unfold tapeWrite; split <;> rfl
@[simp] theorem tapeWrite_trace (i : Nat) (v : Int) (s : State) :
    (tapeWrite i v s).trace = s.trace := by unfold tapeWrite; split <;> rfl

@[simp] theorem writeCurrent_cfg (v : Int) (s : State) : (writeCurrent v s).cfg = s.cfg :=
  tapeWrite_cfg _ _ _
@[simp] theorem writeCurrent_prog (v : Int) (s : State) : (writeCurrent v s).prog = s.prog :=
  tapeWrite_prog _ _ _
@[simp] theorem writeCurrent_tapeLen (v : Int) (s : State) : (writeCurrent v s).tapeLen = s.tapeLen :=
  tapeWrite_tapeLen _ _ _
@[simp] theorem writeCurrent_cursor (v : Int) (s : State) : (writeCurrent v s).cursor = s.cursor :=
  tapeWrite_cursor _ _ _
@[simp] theorem writeCurrent_pc (v : Int) (s : State) : (writeCurrent v s).pc = s.pc :=
  tapeWrite_pc _ _ _
@[simp] theorem writeCurrent_scratchCap (v : Int) (s : State) : (writeCurrent v s).scratchCap = s.scratchCap :=
  tapeWrite_scratchCap _ _ _
@[simp] theorem writeCurrent_scratch (v : Int) (s : State) : (writeCurrent v s).scratch = s.scratch :=
  tapeWrite_scratch _ _ _
@[simp] theorem writeCurrent_phase (v : Int) (s : State) : (writeCurrent v s).phase = s.phase :=
  tapeWrite_phase _ _ _
@[simp] theorem writeCurrent_ir (v : Int) (s : State) : (writeCurrent v s).ir = s.ir :=
  tapeWrite_ir _ _ _
@[simp] theorem writeCurrent_rep (v : Int) (s : State) : (writeCurrent v s).rep = s.rep :=
  tapeWrite_rep _ _ _
@[simp] theorem writeCurrent_ncur (v : Int) (s : State) : (writeCurrent v s).ncur = s.ncur :=
  tapeWrite_ncur _ _ _
@[simp] theorem writeCurrent_lastRsp (v : Int) (s : State) : (writeCurrent v s).lastRsp = s.lastRsp :=
  tapeWrite_lastRsp _ _ _
@[simp] theorem writeCurrent_ldLen (v : Int) (s : State) : (writeCurrent v s).ldLen = s.ldLen :=
  tapeWrite_ldLen _ _ _
@[simp] theorem writeCurrent_ldStage (v : Int) (s : State) : (writeCurrent v s).ldStage = s.ldStage :=
  tapeWrite_ldStage _ _ _
@[simp] theorem writeCurrent_inp (v : Int) (s : State) : (writeCurrent v s).inp = s.inp :=
  tapeWrite_inp _ _ _
@[simp] theorem writeCurrent_out (v : Int) (s : State) : (writeCurrent v s).out = s.out :=
  tapeWrite_out _ _ _
@[simp] theorem writeCurrent_host (v : Int) (s : State) : (writeCurrent v s).host = s.host :=
  tapeWrite_host _ _ _
@[simp] theorem writeCurrent_trace (v : Int) (s : State) : (writeCurrent v s).trace = s.trace :=
  tapeWrite_trace _ _ _

/-- A tape write writes the tape only. -/
theorem tapeWrite_frame (i : Nat) (v : Int) (s : State) :
    tapeWrite i v s = { s with tape := (tapeWrite i v s).tape } := by
  unfold tapeWrite; split <;> rfl

/-- A tape write keeps the canonical form. -/
theorem tapeWrite_wf {s : State} {i : Nat} {v : Int} (h : s.tape.wf = true) :
    (tapeWrite i v s).tape.wf = true := by
  unfold tapeWrite
  split
  · exact Memory.write_wf h
  · exact h

/-- A tape write leaves every other cell alone (R57). -/
theorem read_tapeWrite_ne {s : State} {i j : Nat} {v : Int} (h : j ≠ i) :
    (tapeWrite i v s).tape.read j = s.tape.read j := by
  unfold tapeWrite
  split
  · exact Memory.read_write_ne h
  · rfl

/-- Every entry after a tape write is an old one or the written one, inside the tape. -/
theorem mem_tapeWrite {s : State} {i : Nat} {v : Int} {c : Nat × Int}
    (h : c ∈ (tapeWrite i v s).tape) : c ∈ s.tape ∨ (c = (i, v) ∧ i < s.tapeLen) := by
  unfold tapeWrite at h
  split at h
  · exact (Memory.mem_write h).symm.imp_right fun e => ⟨e, ‹_›⟩
  · exact .inl h

/-! ### The ends of an instruction and of a command -/

theorem endInstr_eq (tk : Bool) (off : Int) (s : State) :
    endInstr tk off s = { s with pc := nextPc s.cfg s.pc tk off, phase := .fetch } := rfl

theorem advance_eq (s : State) :
    advance s = { s with pc := nextPc s.cfg s.pc false 0, phase := .fetch } := rfl

theorem respond_eq (r : Response) (s : State) :
    respond r s = { s with
      phase := .idle, lastRsp := r,
      host := { s.host with reports := s.host.reports ++ [.response r] } } := rfl

theorem raiseFault_eq (k : RspKind) (info : Int) (s : State) :
    raiseFault k info s = { s with
      phase := .idle, lastRsp := { kind := k, info := info },
      host := { s.host with
        reports := s.host.reports ++ [.response { kind := k, info := info }] } } := rfl

theorem freshLoad_eq (ws : List Word) (s : State) :
    freshLoad ws s = { s with
      prog := ws, tape := [], tapeLen := s.cfg.initCap, cursor := 0, pc := 0,
      scratchCap := s.cfg.scratchInit, scratch := [] } := rfl

/-! ### The program counter (R116) -/

theorem nextPc_lt (c : Config) (pc : Nat) (tk : Bool) (off : Int) :
    nextPc c pc tk off < 2 ^ c.pcW := by
  have hp : (0 : Int) < ((2 ^ c.pcW : Nat) : Int) := by exact_mod_cast Nat.two_pow_pos c.pcW
  have h1 := Int.emod_lt_of_pos ((pc : Int) + (if tk then off else 1)) hp
  have h2 := Int.emod_nonneg ((pc : Int) + (if tk then off else 1)) hp.ne'
  unfold nextPc patternOf
  omega

/-- A sum that fits the program counter is not reduced. -/
theorem nextPc_of_fits {c : Config} {pc : Nat} {tk : Bool} {off : Int}
    (h0 : 0 ≤ (pc : Int) + (if tk then off else 1))
    (h1 : (pc : Int) + (if tk then off else 1) < ((2 ^ c.pcW : Nat) : Int)) :
    (nextPc c pc tk off : Int) = (pc : Int) + (if tk then off else 1) := by
  unfold nextPc patternOf
  rw [Int.emod_eq_of_lt h0 h1]
  exact Int.toNat_of_nonneg h0

/-! ### Growth (R60, R61) -/

theorem growLenLoop_of_lt {mg fuel len c : Nat} (h : c < len) : growLenLoop mg fuel len c = len := by
  cases fuel with
  | zero => rfl
  | succ n => simp [growLenLoop, Nat.not_le.2 h]

theorem growLen_of_lt {mg len c : Nat} (h : c < len) : growLen mg len c = len :=
  growLenLoop_of_lt h

theorem le_growLenLoop (mg fuel len c : Nat) : len ≤ growLenLoop mg fuel len c := by
  induction fuel generalizing len with
  | zero => exact Nat.le_refl _
  | succ n ih =>
    unfold growLenLoop
    split
    · exact (Nat.le_add_right _ _).trans (ih _)
    · exact Nat.le_refl _

/-- Growth never shrinks the tape (R24). -/
theorem le_growLen (mg len c : Nat) : len ≤ growLen mg len c := le_growLenLoop _ _ _ _

/-- The growth loop moves `tape_len` as `growLenLoop` says, and cuts the tape at most at the old
length. -/
theorem growLoop_eq (fuel : Nat) (s : State) :
    growLoop fuel s = { s with
      tape := (growLoop fuel s).tape
      tapeLen := growLenLoop s.cfg.maxGrowth fuel s.tapeLen s.cursor } := by
  induction fuel generalizing s with
  | zero => rfl
  | succ n ih =>
    unfold growLoop growLenLoop
    split
    · exact ih (growStep s)
    · rfl

/-- Growth changes no entry when none lies outside the tape. -/
theorem growLoop_tape {fuel : Nat} {s : State} (h : ∀ c ∈ s.tape, c.1 < s.tapeLen) :
    (growLoop fuel s).tape = s.tape := by
  induction fuel generalizing s with
  | zero => rfl
  | succ n ih =>
    unfold growLoop
    split
    · have hb : (growStep s).tape = s.tape := Memory.below_eq_self h
      rw [ih (s := growStep s), hb]
      intro c hc
      rw [hb] at hc
      exact (h c hc).trans_le (Nat.le_add_right _ _)
    · rfl

/-- What growth does to a machine whose tape entries lie inside its tape (R61, R62). -/
theorem growTape_eq {s : State} (h : ∀ c ∈ s.tape, c.1 < s.tapeLen) :
    growTape s = { s with tapeLen := growLen s.cfg.maxGrowth s.tapeLen s.cursor } := by
  unfold growTape
  rw [growLoop_eq, growLoop_tape h]
  rfl

/-! ### The input port (R170, R171) -/

theorem polled_eq (s : State) : polled s = { s with inp := s.inp.drop 1 } := rfl

@[simp] theorem InPort.answer_drop (p : InPort) (n k : Nat) :
    (p.drop n).answer k = p.answer (n + k) := by
  simp [InPort.answer, InPort.drop, List.getD_eq_getElem?_getD]

@[simp] theorem InPort.drop_drop (p : InPort) (n k : Nat) : (p.drop n).drop k = p.drop (n + k) := by
  simp [InPort.drop]

@[simp] theorem InPort.drop_zero (p : InPort) : p.drop 0 = p := rfl

/-- One Get iteration on a non-`WAIT` answer, the cursor inside the tape. -/
theorem getIteration_eq {s : State} {v : Int} (n : Nat) (hc : s.cursor < s.tapeLen)
    (h : (inPoll s).cell s.cfg = some v) :
    getIteration n s = { s with
      tape := s.tape.write s.cursor v, rep := n, inp := s.inp.drop 1,
      trace := s.trace ++ (inPoll s).events } := by
  unfold getIteration
  rw [h]
  exact writeCurrent_of_lt hc

/-- One Get iteration leaves alone all it does not name. -/
theorem getIteration_frame (n : Nat) (s : State) :
    getIteration n s = { s with
      tape := (getIteration n s).tape, rep := (getIteration n s).rep,
      inp := s.inp.drop 1, trace := s.trace ++ (inPoll s).events } := by
  unfold getIteration
  cases h : inPoll s
  · simp [InAnswer.cell, InAnswer.events, polled, setInp]
  · simp only [InAnswer.cell]
    rw [writeCurrent, tapeWrite_frame]
    rfl
  · simp only [InAnswer.cell]
    rw [writeCurrent, tapeWrite_frame]
    rfl

/-- A Get iteration touches no cell but the current one. -/
theorem read_getIteration_ne {n j : Nat} {s : State} (h : j ≠ s.cursor) :
    (getIteration n s).tape.read j = s.tape.read j := by
  unfold getIteration
  split
  · rfl
  · exact read_tapeWrite_ne (s := setRep n (emit _ (polled s))) h

/-- Where a Get can stand after a step: at its end, or held with `WAIT` at the port; and all it
leaves alone (R171, R119). -/
theorem getRun_frame (n : Nat) (s : State) :
    (getRun n s = { s with
        tape := (getRun n s).tape, inp := (getRun n s).inp, trace := (getRun n s).trace,
        rep := 0, pc := nextPc s.cfg s.pc false 0, phase := .fetch }) ∨
    (getRun n s = { s with
        tape := (getRun n s).tape, inp := (getRun n s).inp, trace := (getRun n s).trace,
        rep := (getRun n s).rep, phase := .exGet } ∧
      0 < (getRun n s).rep ∧ (getRun n s).rep ≤ n) := by
  induction n generalizing s with
  | zero => exact .inl rfl
  | succ n ih =>
    have go : getRun (n + 1) s = getRun n (getIteration n s) →
        (getRun (n + 1) s = { s with
          tape := (getRun (n + 1) s).tape, inp := (getRun (n + 1) s).inp,
          trace := (getRun (n + 1) s).trace,
          rep := 0, pc := nextPc s.cfg s.pc false 0, phase := .fetch }) ∨
        (getRun (n + 1) s = { s with
          tape := (getRun (n + 1) s).tape, inp := (getRun (n + 1) s).inp,
          trace := (getRun (n + 1) s).trace,
          rep := (getRun (n + 1) s).rep, phase := .exGet } ∧
          0 < (getRun (n + 1) s).rep ∧ (getRun (n + 1) s).rep ≤ n + 1) := fun e => by
      have f := getIteration_frame n s
      rw [e]
      rcases ih (getIteration n s) with h | ⟨h, hp, hl⟩
      · left; rw [f] at h ⊢; exact h
      · right; refine ⟨?_, hp, hl.trans (Nat.le_succ n)⟩; rw [f] at h ⊢; exact h
    cases h : inPoll s with
    | wait =>
      have e : getRun (n + 1) s = setPhase .exGet (setRep (n + 1) (polled s)) := by
        simp only [getRun, h]
      right; rw [e]; exact ⟨rfl, Nat.succ_pos n, Nat.le_refl _⟩
    | eof => exact go (by simp only [getRun, h])
    | byte b => exact go (by simp only [getRun, h])

/-- A Get touches no cell but the current one (R171). -/
theorem read_getRun_ne {n j : Nat} {s : State} (hj : j ≠ s.cursor) :
    (getRun n s).tape.read j = s.tape.read j := by
  induction n generalizing s with
  | zero => rfl
  | succ n ih =>
    have hc : (getIteration n s).cursor = s.cursor := by rw [getIteration_frame]
    unfold getRun
    split
    · rfl
    · rw [ih (by rw [hc]; exact hj), read_getIteration_ne hj]
    · rw [ih (by rw [hc]; exact hj), read_getIteration_ne hj]

/-- A Get keeps the canonical form of the tape. -/
theorem getRun_wf {n : Nat} {s : State} (h : s.tape.wf = true) : (getRun n s).tape.wf = true := by
  induction n generalizing s with
  | zero => exact h
  | succ n ih =>
    have hi : (getIteration n s).tape.wf = true := by
      unfold getIteration
      split
      · exact h
      · exact tapeWrite_wf h
    unfold getRun
    split
    · exact h
    · exact ih hi
    · exact ih hi

/-! ### The output port (R162, R174) -/

@[simp] theorem OutPort.ready_drop (p : OutPort) (n k : Nat) :
    (p.drop n).ready k = p.ready (n + k) := by
  simp [OutPort.ready, OutPort.drop, List.getD_eq_getElem?_getD]

@[simp] theorem OutPort.drop_drop (p : OutPort) (n k : Nat) :
    (p.drop n).drop k = p.drop (n + k) := by
  simp [OutPort.drop]

@[simp] theorem OutPort.drop_zero (p : OutPort) : p.drop 0 = p := rfl

theorem sendByte_eq (n : Nat) (v : Int) (s : State) :
    sendByte n v s = { s with
      rep := n, out := s.out.drop 1,
      trace := s.trace ++ [.outByte (byteOfCell v) (decide (n = 0))] } := rfl

/-- The start of a Put leaves alone all it does not name. -/
theorem beginPut_frame (n : Nat) (s : State) :
    beginPut n s = { s with
      scratchCap := (beginPut n s).scratchCap, scratch := (beginPut n s).scratch, rep := n,
      trace := s.trace ++ [.outStart n (decide (n = 0))] } := by
  unfold beginPut growScratch fillScratch
  by_cases h : s.scratchCap < n
  · simp only [setRep_scratchCap, h, if_true]
    split <;> rfl
  · simp only [setRep_scratchCap, h, if_false]
    split <;> rfl

/-- Where a Put can stand after a step: at its end, or held with the collaborator not ready; and all
it leaves alone (R174, R119). -/
theorem putRun_frame {n : Nat} {s t : State} (h : putRun n s = .next t) :
    (t = { s with
        out := t.out, trace := t.trace,
        rep := 0, pc := nextPc s.cfg s.pc false 0, phase := .fetch }) ∨
    (t = { s with out := t.out, trace := t.trace, rep := t.rep, phase := .exPut } ∧
      0 < t.rep ∧ t.rep ≤ n) := by
  induction n generalizing s with
  | zero =>
    left
    simp only [putRun, Host.Outcome.next.injEq] at h
    subst h
    rfl
  | succ n ih =>
    unfold putRun at h
    split at h
    · cases h
    · split at h
      · rcases ih h with e | ⟨e, hp, hl⟩
        · left; rw [e]; rfl
        · right
          refine ⟨?_, hp, hl.trans (Nat.le_succ n)⟩
          rw [e]; rfl
      · right
        simp only [Host.Outcome.next.injEq] at h
        subst h
        exact ⟨rfl, Nat.succ_pos n, Nat.le_refl _⟩

/-- A Put stops only where the arbiter blocks the current cell, and never by a refusal. -/
theorem putRun_next {n : Nat} {s : State} (h : s.cursor < s.tapeLen) :
    ∃ t, putRun n s = .next t := by
  induction n generalizing s with
  | zero => exact ⟨_, rfl⟩
  | succ n ih =>
    unfold putRun
    rw [readCurrent_of_lt h]
    dsimp only
    split
    · exact ih h
    · exact ⟨_, rfl⟩

/-! ### Receiving the elements of a LOAD -/

/-- With all `N` received, on to `LOAD_COMMIT` (R104). -/
theorem receiveElement_of_all {s : State} (h : s.ldLen ≤ s.ldStage.length) :
    receiveElement s = setPhase .loadCommit s := by
  rw [receiveElement, if_neg (by omega)]

/-- With none presented, a hold: only the host's wire moves on (R119). -/
theorem receiveElement_of_none {s : State} (h : s.ldStage.length < s.ldLen)
    (hn : s.host.elems.head?.join = none) : receiveElement s = elementTaken s := by
  rw [receiveElement, if_pos h]
  split
  · rename_i e
    have ht : { s.host with elems := s.host.elems.tail } = s.host := by
      rw [e]; cases hh : s.host; simp_all
    unfold elementTaken
    rw [ht]
    rfl
  · rfl
  · rename_i e; simp [e] at hn

/-- With one presented, it goes into the staging store (R104). -/
theorem receiveElement_of_some {s : State} {e : LoadElem} {es : List (Option LoadElem)}
    (h : s.ldStage.length < s.ldLen) (he : s.host.elems = some e :: es) :
    receiveElement s = setStage s.ldLen (s.ldStage ++ [e]) (elementTaken s) := by
  rw [receiveElement, if_pos h, he]

end Sys2Proof.Machine
end

