-- ==== Sys2Proof/Laws/Instr.lean ====
section
/-! SUPPORT. What the pieces of the instructions do, case by case, and when a change of the state keeps
the invariant. -/

namespace Sys2Proof.Machine

/-! ### Growth -/

/-- The loop of R61 covers its index once it has passes enough. -/
theorem growLenLoop_covers {mg fuel len c : Nat} (hl : 1 ≤ len) (hm : 1 ≤ mg)
    (hf : c + 1 ≤ len + fuel) : c < growLenLoop mg fuel len c := by
  induction fuel generalizing len with
  | zero => exact hf
  | succ n ih =>
    unfold growLenLoop
    split
    · exact ih (by unfold grownLen; omega) (by unfold grownLen; omega)
    · omega

/-- `GrowLen` covers its index (R62 (c)). -/
theorem growLen_covers {mg len c : Nat} (hl : 1 ≤ len) (hm : 1 ≤ mg) : c < growLen mg len c :=
  growLenLoop_covers hl hm (by omega)

/-- The loop of R61 stays in the growth sequence (R24). -/
theorem growLenLoop_growthSeq (c : Config) (fuel k x : Nat) :
    ∃ j, growLenLoop c.maxGrowth fuel (growthSeq c k) x = growthSeq c j := by
  induction fuel generalizing k with
  | zero => exact ⟨k, rfl⟩
  | succ n ih =>
    unfold growLenLoop
    split
    · exact ih (k + 1)
    · exact ⟨k, rfl⟩

theorem growthSeq_pos {c : Config} (h : 1 ≤ c.initCap) (k : Nat) : 1 ≤ growthSeq c k := by
  induction k with
  | zero => exact h
  | succ k ih => unfold growthSeq grownLen; omega

/-- Growth moves `tape_len` to `GrowLen` (R61). -/
theorem growTape_frame (s : State) :
    growTape s = { s with
      tape := (growTape s).tape, tapeLen := growLen s.cfg.maxGrowth s.tapeLen s.cursor } :=
  growLoop_eq (s.cursor + 1) s

/-! ### ChangePointer -/

/-- The three ways a pointer move can go (R135): the fault, the move inside the tape, the growth. -/
theorem movePointer_cases (s : State) :
    ((s.ncur < 0 ∨ overLimit s.cfg (growLen s.cfg.maxGrowth s.tapeLen s.ncur.toNat) = true) ∧
      movePointer s = raiseFault .memoryOutOfBounds s.ncur s) ∨
    (0 ≤ s.ncur ∧ s.ncur < s.tapeLen ∧
      overLimit s.cfg (growLen s.cfg.maxGrowth s.tapeLen s.ncur.toNat) = false ∧
      movePointer s = advance (setCursor s.ncur.toNat s)) ∨
    ((s.tapeLen : Int) ≤ s.ncur ∧
      overLimit s.cfg (growLen s.cfg.maxGrowth s.tapeLen s.ncur.toNat) = false ∧
      movePointer s = advance (growTape (setCursor s.ncur.toNat s))) := by
  unfold movePointer boundsCheck
  by_cases h0 : s.ncur < 0
  · rw [if_pos h0]; exact .inl ⟨.inl h0, rfl⟩
  rw [if_neg h0]
  by_cases h1 : overLimit s.cfg (growLen s.cfg.maxGrowth s.tapeLen s.ncur.toNat) = true
  · rw [if_pos h1]; exact .inl ⟨.inr h1, rfl⟩
  rw [if_neg h1]
  have h1' := eq_false_of_ne_true h1
  by_cases h2 : s.ncur < s.tapeLen
  · rw [if_pos h2]; exact .inr (.inl ⟨by omega, h2, h1', rfl⟩)
  · rw [if_neg h2]; exact .inr (.inr ⟨by omega, h1', rfl⟩)

/-! ### Get and Put -/

/-- A run of Get iterations does not depend on the phase and the count it starts with. -/
theorem getRun_setPhase_setRep (n : Nat) (p : Phase) (r : Nat) (s : State) :
    getRun n (setPhase p (setRep r s)) = getRun n s := by
  induction n generalizing s p r with
  | zero => rfl
  | succ n ih =>
    have e : inPoll (setPhase p (setRep r s)) = inPoll s := rfl
    have hi : getIteration n (setPhase p (setRep r s)) =
        setPhase p (setRep (getIteration n (setPhase p (setRep r s))).rep (getIteration n s)) := by
      unfold getIteration
      simp only [e]
      cases inPoll s with
      | wait => rfl
      | eof => by_cases h : s.cursor < s.tapeLen <;>
          simp [InAnswer.cell, writeCurrent, tapeWrite, h] <;> rfl
      | byte b => by_cases h : s.cursor < s.tapeLen <;>
          simp [InAnswer.cell, writeCurrent, tapeWrite, h] <;> rfl
    simp only [getRun, e]
    rw [hi]
    cases inPoll s with
    | wait => rfl
    | eof => exact ih _ _ _
    | byte b => exact ih _ _ _

/-- A run of Put bytes does not depend on the phase and the count it starts with. -/
theorem putRun_setPhase_setRep (n : Nat) (p : Phase) (r : Nat) (s : State) :
    putRun n (setPhase p (setRep r s)) = putRun n s := by
  induction n generalizing s p r with
  | zero => rfl
  | succ n ih =>
    have e1 : readCurrent (setPhase p (setRep r s)) = readCurrent s := rfl
    have e2 : outReady (setPhase p (setRep r s)) = outReady s := rfl
    rw [putRun, putRun, e1, e2]
    cases readCurrent s with
    | none => rfl
    | some v =>
      have e3 : sendByte n v (setPhase p (setRep r s)) = setPhase p (setRep n (sendByte n v s)) :=
        rfl
      dsimp only
      rw [e3, ih]
      rfl

/-! ### Growth of the trace -/

theorem TraceGrows.of_eq {p : PortEvent → Bool} {s t : State} (h : t.trace = s.trace) :
    TraceGrows p s t := ⟨[], by simp [h], by simp⟩

theorem TraceGrows.trans {p : PortEvent → Bool} {s t u : State} (h : TraceGrows p s t)
    (h' : TraceGrows p t u) : TraceGrows p s u := by
  obtain ⟨a, ha, pa⟩ := h
  obtain ⟨b, hb, pb⟩ := h'
  refine ⟨a ++ b, by rw [hb, ha, List.append_assoc], fun e he => ?_⟩
  exact (List.mem_append.1 he).elim (pa e) (pb e)

/-- A Get iteration makes transactions of the input port only (R160). -/
theorem getIteration_traceGrows (n : Nat) (s : State) :
    TraceGrows PortEvent.isInput s (getIteration n s) := by
  unfold getIteration
  split
  · exact .of_eq rfl
  · refine ⟨(inPoll s).events, by simp [emit], ?_⟩
    cases inPoll s <;> simp [InAnswer.events, PortEvent.isInput]

/-- The beginning of a Put makes a transaction of the output port only (R160). -/
theorem beginPut_traceGrows (n : Nat) (s : State) :
    TraceGrows (fun e => !e.isInput) s (beginPut n s) := by
  refine ⟨[.outStart n (decide (n = 0))], ?_, by simp [PortEvent.isInput]⟩
  unfold beginPut growScratch
  dsimp only
  split <;> split <;> rfl

/-! ### The invariant -/

theorem Config.wf_facts {c : Config} (h : c.wf = true) :
    1 ≤ c.initCap ∧ c.initCap ≤ c.maxGrowth ∧ 7 ≤ c.opcW ∧ 1 ≤ c.argW ∧ 1 ≤ c.cellW ∧
      c.limitOk = true ∧ c.progLimit < 2 ^ c.pcW := by
  simp only [Config.wf, Bool.and_eq_true, decide_eq_true_eq] at h
  tauto

/-- A tape always has a cell. -/
theorem State.Inv.tapeLen_pos {s : State} (hi : s.Inv) : 1 ≤ s.tapeLen := by
  obtain ⟨k, hk⟩ := hi.lenInSeq
  rw [hk]
  exact growthSeq_pos (Config.wf_facts hi.cfgWf).1 k

/-- A change that leaves the configuration, the tape and the program alone keeps the invariant when
the registers stay within their bounds. -/
theorem State.Inv.of_same_tape {s t : State} (hi : s.Inv) (hcfg : t.cfg = s.cfg)
    (htape : t.tape = s.tape) (hlen : t.tapeLen = s.tapeLen) (hcur : t.cursor < s.tapeLen)
    (hprog : t.prog = s.prog) (hpc : FitsUnsigned s.cfg.pcW t.pc)
    (hmid : t.phase.midInstr = true → t.pc < s.prog.length)
    (hscr : t.scratch.length ≤ t.scratchCap) (hcap : s.cfg.scratchInit ≤ t.scratchCap)
    (hgrow : t.phase ≠ .grow)
    (hload : t.phase = .loadRecv ∨ t.phase = .loadCommit →
      t.ldLen ≤ s.cfg.progLimit ∧ t.ldStage.length ≤ t.ldLen)
    (hir : FitsUnsigned s.cfg.wordW t.ir) (hrep : FitsUnsigned (s.cfg.argW + 1) t.rep)
    (hncur : ∀ l, s.cfg.tapeLimit = some l → FitsSigned s.cfg.ncurW t.ncur)
    (hinfo : ∀ l, s.cfg.tapeLimit = some l → s.cfg.opcW < s.cfg.infoW →
      FitsSigned s.cfg.infoW t.lastRsp.info) : t.Inv where
  cfgWf := hcfg ▸ hi.cfgWf
  tapeWf := htape ▸ hi.tapeWf
  tapeBelow := by rw [htape, hlen]; exact hi.tapeBelow
  tapeFits := by rw [hcfg, htape]; exact hi.tapeFits
  lenInSeq := by rw [hcfg, hlen]; exact hi.lenInSeq
  lenInLimit := by rw [hcfg, hlen]; exact hi.lenInLimit
  cursorInTape := by rw [hlen]; exact fun _ => hcur
  growInLimit := fun h => (hgrow h).elim
  progInLimit := by rw [hcfg, hprog]; exact hi.progInLimit
  wordsFit := by rw [hcfg, hprog]; exact hi.wordsFit
  pcFits := by rw [hcfg]; exact hpc
  pcInProg := by rw [hprog]; exact hmid
  scratchInCap := hscr
  scratchCapInit := by rw [hcfg]; exact hcap
  loadInLimit := by rw [hcfg]; exact hload
  irFits := by rw [hcfg]; exact hir
  repFits := by rw [hcfg]; exact hrep
  ncurFits := by rw [hcfg]; exact hncur
  infoFits := by rw [hcfg]; exact hinfo

/-- Writing a value of the cell's range keeps the invariant (R57). -/
theorem State.Inv.writeCurrent {s : State} (hi : s.Inv) {v : Int} (hv : FitsSigned s.cfg.cellW v) :
    (writeCurrent v s).Inv where
  cfgWf := by simpa using hi.cfgWf
  tapeWf := tapeWrite_wf hi.tapeWf
  tapeBelow := by
    intro c hc
    rw [writeCurrent_tapeLen]
    rcases mem_tapeWrite hc with h | ⟨rfl, h⟩
    · exact hi.tapeBelow c h
    · exact h
  tapeFits := by
    intro c hc
    rw [writeCurrent_cfg]
    rcases mem_tapeWrite hc with h | ⟨rfl, _⟩
    · exact hi.tapeFits c h
    · exact hv
  lenInSeq := by simpa using hi.lenInSeq
  lenInLimit := by simpa using hi.lenInLimit
  cursorInTape := by simpa using hi.cursorInTape
  growInLimit := by simpa using hi.growInLimit
  progInLimit := by simpa using hi.progInLimit
  wordsFit := by simpa using hi.wordsFit
  pcFits := by simpa using hi.pcFits
  pcInProg := by simpa using hi.pcInProg
  scratchInCap := by simpa using hi.scratchInCap
  scratchCapInit := by simpa using hi.scratchCapInit
  loadInLimit := by simpa using hi.loadInLimit
  irFits := by simpa using hi.irFits
  repFits := by simpa using hi.repFits
  ncurFits := by simpa using hi.ncurFits
  infoFits := by simpa using hi.infoFits

end Sys2Proof.Machine
end

