-- ==== Sys2Proof/Laws/PerInstr.lean ====
section
/-! SUPPORT. What holds of each instruction as syntax, one lemma per constructor. -/

namespace Sys2Proof.Laws.WordShape

/-- The encoded word has `OPC_W + ARG_W` bits, and its two fields hold the instruction's code and the
pattern of its argument (R80, R86). -/
def Statement (i : Instr) : Prop :=
  ∀ c : Config, c.wf = true →
    FitsUnsigned c.wordW (encode c i) ∧ codeOf c (encode c i) = i.opcode.code
      ∧ argOf c (encode c i) = patternOf c.argW i.argument

theorem of_fields (i : Instr) : Statement i := by
  intro c hc
  simp only [Config.wf, Bool.and_eq_true, decide_eq_true_eq] at hc
  have h7 : 7 ≤ c.opcW := by omega
  have ha : 1 ≤ c.argW := by omega
  have hop : i.opcode.code < 2 ^ c.opcW :=
    lt_of_lt_of_le (i.opcode.code_lt.trans (by norm_num : 6 < 2 ^ 7))
      (Nat.pow_le_pow_right (by norm_num) h7)
  refine ⟨joinWord_fits c _ _, ?_, ?_⟩
  · rw [encode, codeOf_joinWord (by omega), Nat.mod_eq_of_lt hop]
  · rw [encode, argOf_joinWord ha, Nat.mod_eq_of_lt (patternOf_lt _ _)]

theorem changeValue (d : Int) : Statement (.changeValue d) := of_fields _
theorem changePointer (d : Int) : Statement (.changePointer d) := of_fields _
theorem get (n : Nat) : Statement (.get n) := of_fields _
theorem put (n : Nat) : Statement (.put n) := of_fields _
theorem branchIfZero (off : Int) : Statement (.branchIfZero off) := of_fields _
theorem branchIfNotZero (off : Int) : Statement (.branchIfNotZero off) := of_fields _

end Sys2Proof.Laws.WordShape
end

