-- ==== Sys2Proof/Laws/Step.lean ====
section
/-! SUPPORT. What one step is, by `rst`, by phase and by the fetched word. -/

namespace Sys2Proof.Machine

/-- With `rst` asserted a step is the reset of R220, in any phase. -/
theorem step_of_rst {s : State} (h : rstNow s = true) :
    step s = .next (assertReset (rstSampled s)) := by
  simp [step, machineStep, stepUnder, h]

/-- With `rst` not asserted a step is the sequencer's. -/
theorem step_of_running {s : State} (h : rstNow s = false) :
    step s = sequencerStep (rstSampled s) := by
  simp [step, machineStep, stepUnder, h]

/-- With nothing scheduled on `rst`, sampling it changes nothing. -/
theorem rstSampled_of_nil {s : State} (h : s.host.rst = []) : rstSampled s = s := by
  have e : { s.host with rst := s.host.rst.tail } = s.host := by
    rw [h]; cases hh : s.host; simp_all
  unfold rstSampled
  rw [e]
  rfl

theorem rstNow_of_nil {s : State} (h : s.host.rst = []) : rstNow s = false := by
  simp [rstNow, h]

theorem step_of_quiet {s : State} (h : s.host.rst = []) : step s = sequencerStep s := by
  rw [step_of_running (rstNow_of_nil h), rstSampled_of_nil h]

theorem microStep_of_quiet {s : State} (h : s.host.rst = []) : microStep s = phaseStep s := by
  simp [microStep, stepUnder, rstNow_of_nil h, rstSampled_of_nil h]

/-- The three ways a pass of the sequencer's loop can go (R111). -/
theorem runInstruction_cases (s : State) :
    (fetchWord s = none ∧ runInstruction s = .next (endRun s)) ∨
    (∃ w i, fetchWord s = some w ∧ decode s.cfg w = .instr i ∧
      runInstruction s = exec i (setIr w s)) ∨
    (∃ w code, fetchWord s = some w ∧ decode s.cfg w = .invalid code ∧
      runInstruction s = .next (raiseFault .invalidCommand code (setIr w s))) := by
  unfold runInstruction runWord
  cases hf : fetchWord s with
  | none => exact .inl ⟨rfl, rfl⟩
  | some w =>
    cases hd : decode s.cfg w with
    | instr i => exact .inr (.inl ⟨w, i, rfl, hd, by simp only [hd]⟩)
    | invalid code => exact .inr (.inr ⟨w, code, rfl, hd, by simp only [hd]⟩)

/-- No word at `pc` is the termination test's verdict (R113). -/
theorem fetchWord_eq_none_iff (s : State) : fetchWord s = none ↔ s.prog.length ≤ s.pc := by
  simp [fetchWord]

theorem fetchWord_of_lt {s : State} (h : s.pc < s.prog.length) :
    fetchWord s = some (s.prog[s.pc]) := by
  simp [fetchWord, h]

theorem hostRun_next (M : Host.Core) {k : Nat} {s t : M.State} (h : M.step s = .next t) :
    M.run (k + 1) s = M.run k t := by rw [Host.Core.run, h]

theorem hostRun_fault (M : Host.Core) {k : Nat} {s : M.State} {r : M.Fault}
    (h : M.step s = .fault r) : M.run (k + 1) s = .fault r := by rw [Host.Core.run, h]

theorem hostRun_refused (M : Host.Core) {k : Nat} {s : M.State} {r : M.Refusal}
    (h : M.step s = .refused r) : M.run (k + 1) s = .refused r := by rw [Host.Core.run, h]

/-- A run of the model is a run of the host's interface. -/
theorem runSteps_eq_hostRun (k : Nat) (s : State) :
    runSteps k s = Host.Core.run Sys2Proof.core k s := by
  induction k generalizing s with
  | zero => rfl
  | succ k ih =>
    cases h : step s with
    | next t =>
      have e : runSteps (k + 1) s = runSteps k t := by simp only [runSteps, iterate, h]
      exact e.trans ((ih t).trans (hostRun_next Sys2Proof.core h).symm)
    | fault r =>
      have e : runSteps (k + 1) s = .fault r := by simp only [runSteps, iterate, h]
      exact e.trans (hostRun_fault Sys2Proof.core h).symm
    | refused r =>
      have e : runSteps (k + 1) s = .refused r := by simp only [runSteps, iterate, h]
      exact e.trans (hostRun_refused Sys2Proof.core h).symm

theorem iterate_add (f : State → Host.Outcome State Fault Refusal) (j k : Nat) (s : State) :
    iterate f (j + k) s = match iterate f j s with
      | .next t => iterate f k t
      | .fault r => .fault r
      | .refused r => .refused r := by
  induction j generalizing s with
  | zero => simp [iterate]
  | succ j ih =>
    rw [Nat.add_right_comm]
    simp only [iterate]
    cases f s with
    | next t => exact ih t
    | fault r => rfl
    | refused r => rfl

end Sys2Proof.Machine
end

