-- ==== Sys2Proof/Tests/Slice0.lean ====
section
/-! SUPPORT. The model's own tests. Expected values come from `spec/95_test_vectors.md` (the vector's
name stands in each docstring), from the worked encodings of `spec/30_encoding.md` R90, or from the
rule named; and one witness for each statement with hypotheses. -/

namespace Sys2Proof.Tests

open Sys2Proof Sys2Proof.Machine

/-! ### Helpers -/

/-- A fresh tape with `v` in cell 0, under a configuration, with a program, in a phase. -/
def demoWith (c : Config) (ws : List Word) (p : Phase) (v : Int) : State :=
  { State.reset with
    cfg := c, prog := ws, phase := p, tape := Memory.write [] 0 v, tapeLen := c.initCap
    scratchCap := c.scratchInit }

/-- The same in the default configuration. -/
def demo (ws : List Word) (p : Phase) (v : Int) : State := demoWith Config.defaults ws p v

/-- A host port with commands and elements presented without a pause. -/
def hostWith (cs : List Command) (es : List LoadElem) : HostPort :=
  { rst := [], cmds := cs.map some, elems := es.map some, reports := [] }

/-- The next state, or the state itself where there is none. -/
def nextOf (s : State) : Host.Outcome State Fault Refusal → State
  | .next t => t
  | .fault _ => s
  | .refused _ => s

/-- One step on an instruction word placed at `pc`. -/
def after (w : Word) (s : State) : State := nextOf s (step (s.withFetchWord 40 w))

/-- Configuration T of the vectors. -/
def configT : Config := { Config.defaults with initCap := 4, maxGrowth := 8 }

/-- The default configuration with `TAPE_LIMIT = 1024`. -/
def config1024 : Config := { Config.defaults with tapeLimit := some 1024 }

/-- An input port that yields some bytes and then `EOF` for ever. -/
def bytes (bs : List Byte) : InPort := { script := bs.map .byte, standing := .eof }

/-! ### Configuration and well-formedness -/

theorem test_defaults_wf : Config.defaults.wf = true := by decide
theorem test_configT_wf : configT.wf = true := by decide
theorem test_config1024_wf : config1024.wf = true := by decide

/-- R8: `INIT_CAP` above `MAX_GROWTH`, and a `TAPE_LIMIT` below `INIT_CAP`, are refused. -/
theorem test_config_growth_refused : ({ Config.defaults with maxGrowth := 255 } : Config).wf = false := by
  decide
theorem test_config_limit_refused :
    ({ Config.defaults with tapeLimit := some 255 } : Config).wf = false := by decide

/-- R81: the first argument outside each range is refused. -/
theorem test_wf_changeValue : (Instr.changeValue 2147483648).wellFormed Config.defaults = false := by
  decide
theorem test_wf_changePointer :
    (Instr.changePointer (-2147483649)).wellFormed Config.defaults = false := by decide
theorem test_wf_get : (Instr.get 4294967296).wellFormed Config.defaults = false := by decide
theorem test_wf_put : (Instr.put 4294967296).wellFormed Config.defaults = false := by decide
theorem test_wf_branchIfZero :
    (Instr.branchIfZero 2147483648).wellFormed Config.defaults = false := by decide
theorem test_wf_branchIfNotZero :
    (Instr.branchIfNotZero (-2147483649)).wellFormed Config.defaults = false := by decide

/-- R81: the last argument inside the ranges is admitted. -/
theorem test_wf_boundary : (Instr.changeValue (-2147483648)).wellFormed Config.defaults = true ∧
    (Instr.put 4294967295).wellFormed Config.defaults = true := by decide

/-! ### Decoding of words written out bit by bit (R80, R82, EN1 to EN19) -/

/-- EN15. -/
theorem test_decode_changeValue : decodeTableWord 40
    0b0000000011111111111111111111111111111111 = some (.changeValue (-1)) := by decide
/-- EN6. -/
theorem test_decode_changePointer : decodeTableWord 40
    0b0000000111111111111111111111111011111111 = some (.changePointer (-257)) := by decide
/-- EN13. -/
theorem test_decode_get : decodeTableWord 40
    0b0000001011111111111111111111111111111111 = some (.get 4294967295) := by decide
/-- EN14. -/
theorem test_decode_put : decodeTableWord 40
    0b0000001111111111111111111111111111111111 = some (.put 4294967295) := by decide
/-- EN10. -/
theorem test_decode_branchIfZero : decodeTableWord 40
    0b0000010000000000000000000000000000000110 = some (.branchIfZero 6) := by decide
/-- EN12. -/
theorem test_decode_branchIfNotZero : decodeTableWord 40
    0b0000010111111111111111111111111111111110 = some (.branchIfNotZero (-2)) := by decide
/-- EN17, EN16, EN18. -/
theorem test_decode_illegal : decode Config.defaults 0x0600000000 = .invalid 6 ∧
    decode Config.defaults 0x6300000000 = .invalid 99 ∧
    decode Config.defaults 0xFF12345678 = .invalid 255 := by decide
/-- EN4, EN7, EN9, EN11. -/
theorem test_encode : encode Config.defaults (.changeValue (-2147483648)) = 0x0080000000 ∧
    encode Config.defaults (.changePointer 200000) = 0x0100030D40 ∧
    encode Config.defaults (.put 0) = 0x0300000000 ∧
    encode Config.defaults (.branchIfNotZero (-4)) = 0x05FFFFFFFC := by decide

/-! ### One step of each instruction -/

/-- CV2. -/
theorem test_changeValue : (fun t : State => (t.tape.read 0, t.pc)) (after 0x00FFFFFFF6
    (demo [] .idle 7)) = (-3, 1) := by decide
/-- CV4. -/
theorem test_changeValue_wraps : (after 0x0000000001 (demo [] .idle 2147483647)).tape.read 0 =
    -2147483648 := by decide
/-- CP23. -/
theorem test_changePointer_grows : (fun t : State => (t.cursor, t.tapeLen, t.tape.read 0, t.pc))
    (after 0x0100000008 (demoWith configT [] .idle 7)) = (8, 16, 7, 1) := by decide
/-- CP15. -/
theorem test_changePointer_faults : (fun t : State => (t.cursor, t.pc, t.phase, t.lastRsp))
    (after 0x01FFFFFFFF (demo [] .idle 0)) =
      (0, 0, .idle, { kind := .memoryOutOfBounds, info := -1 }) := by decide
/-- GT5. -/
theorem test_get_last_write : (fun t : State => (t.tape.read 0, t.inp.script, t.pc))
    (after 0x0200000003 { demoWith { Config.defaults with eofSentinel := -1 } [] .idle 9 with
      inp := bytes [10] }) = (-1, [], 1) := by decide
/-- GT11. -/
theorem test_get_eof_not_sticky : (after 0x0200000002
    { demoWith { Config.defaults with eofSentinel := 5 } [] .idle 9 with
      inp := { script := [.eof, .byte 66], standing := .eof } }).tape.read 0 = 66 := by decide
/-- PT9. -/
theorem test_put_truncates : (fun t : State => (t.trace, t.scratchCap, t.tape.read 0))
    (after 0x0300000003 (demo [] .idle (-1))) =
      ([.outStart 3 false, .outByte 255 false, .outByte 255 false, .outByte 255 true], 3, -1) := by
  decide
/-- PT4. -/
theorem test_put_empty : (fun t : State => (t.trace, t.scratchCap, t.pc)) (after 0x0300000000
    { demo [] .idle 72 with scratchCap := 8 }) = ([.outStart 0 true], 8, 1) := by decide
/-- BR1. -/
theorem test_branchIfZero_taken : (after 0x0400000006 { demo [] .idle 0 with pc := 1 }).pc = 7 := by
  decide
/-- BR6. -/
theorem test_branchIfZero_whole_cell : (after 0x0400000002
    { demo [] .idle 256 with pc := 3 }).pc = 4 := by decide
/-- BR5. -/
theorem test_branchIfNotZero_negative : (after 0x05FFFFFFFC
    { demo [] .idle (-5) with pc := 6 }).pc = 2 := by decide
/-- BR12. -/
theorem test_branchIfNotZero_wraps : (after 0x05FFFFFFFD
    { demo [] .idle 2 with pc := 2 }).pc = 4294967295 := by decide

/-! ### One step of the host commands and of reset -/

/-- LD2, the commit. -/
theorem test_load_commit : (fun t : State => (t.prog, t.tapeLen, t.tape, t.pc, t.cursor))
    (nextOf State.reset (step { demo [1, 2] .loadCommit 9 with
      tapeLen := 512, pc := 7, cursor := 300, ldLen := 2, ldStage := [.pair 0 5, .pair 99 0] })) =
      ([0x0000000005, 0x6300000000], 256, [], 0, 0) := by decide
/-- LD3, the rejection. -/
theorem test_load_rejects : (fun t : State => (t.prog, t.lastRsp))
    (nextOf State.reset (step { demo [5] .loadCommit 0 with
      ldLen := 3, ldStage := [.pair 0 1, .malformed, .pair 2 1] })) =
      ([5], { kind := .invalidProgram, info := 1 }) := by decide
/-- IN7. -/
theorem test_inspect : (nextOf State.reset (step { demo [1] .idle 1 with
    pc := 1, host := hostWith [.inspect] [] })).host.reports =
      [.snapshot { cursor := 0, tapeLen := 256, pc := 1, cell := some 1 }] := by decide
/-- EX3. -/
theorem test_invalid_command : (fun t : State => (t.pc, t.tape.read 0, t.lastRsp))
    (after 0x6300000000 { demo [5] .idle 5 with pc := 1 }) =
      (1, 5, { kind := .invalidCommand, info := 99 }) := by decide
/-- RS3: a reset while a Put is held after three of five bytes. -/
theorem test_reset_in_put : (fun t : State => (t.prog, t.phase, t.tape, t.trace.length))
    (nextOf State.reset (step { demo [0x0300000005] .exPut 65 with
      rep := 2, trace := [.outStart 5 false, .outByte 65 false, .outByte 65 false, .outByte 65 false]
      host := { hostWith [] [] with rst := [true] } })) = ([], .idle, [], 4) := by decide

/-! ### Witnesses: a state and operands that meet a statement's hypotheses together -/

/-- The demonstration state meets the invariant. -/
theorem demoWith_inv {c : Config} {ws : List Word} {p : Phase} {v : Int} (hc : c.wf = true)
    (hl : overLimit c c.initCap = false) (hv : v ≠ 0 ∧ FitsSigned c.cellW v)
    (hw : ws.length ≤ c.progLimit ∧ ∀ w ∈ ws, FitsUnsigned c.wordW w)
    (hp : p = .idle ∨ p = .fetch) : (demoWith c ws p v).Inv := by
  have h1 : 0 < c.initCap := (Config.wf_facts hc).1
  have ht : (demoWith c ws p v).tape = [(0, v)] := by
    simp [demoWith, Memory.write, Memory.cons, hv.1]
  exact {
    cfgWf := hc
    tapeWf := by rw [ht]; simp [Memory.wf, Memory.wfFrom, hv.1]
    tapeBelow := by rw [ht]; simpa [demoWith] using h1
    tapeFits := by rw [ht]; simpa [demoWith] using hv.2
    lenInSeq := ⟨0, rfl⟩
    lenInLimit := hl
    cursorInTape := fun _ => h1
    growInLimit := by intro h; rcases hp with rfl | rfl <;> cases h
    progInLimit := hw.1
    wordsFit := hw.2
    pcFits := Nat.two_pow_pos _
    pcInProg := by intro h; rcases hp with rfl | rfl <;> cases h
    scratchInCap := Nat.zero_le _
    scratchCapInit := Nat.le_refl _
    loadInLimit := by intro h; rcases hp with rfl | rfl <;> rcases h with h | h <;> cases h
    irFits := Nat.two_pow_pos _
    repFits := Nat.two_pow_pos _
    ncurFits := fun _ _ => zero_fitsSigned _
    infoFits := fun _ _ _ => zero_fitsSigned _ }

/-- What stands at the ports is no part of the invariant. -/
theorem inv_ports {s : State} (h : s.Inv) (i : InPort) (o : OutPort) (hp : HostPort) :
    State.Inv { s with inp := i, out := o, host := hp } :=
  ⟨h.1, h.2, h.3, h.4, h.5, h.6, h.7, h.8, h.9, h.10, h.11, h.12, h.13, h.14, h.15,
    h.16, h.17, h.18, h.19⟩

/-- A program of one word, fetching, with 7 in the cell. -/
theorem demo_inv (w : Word) (hw : FitsUnsigned Config.defaults.wordW w) {p : Phase}
    (hp : p = .idle ∨ p = .fetch) : (demo [w] p 7).Inv :=
  demoWith_inv (by decide) (by decide) (by decide) ⟨by simp [Config.defaults], by simpa using hw⟩ hp

theorem demo1024_inv : (demoWith config1024 [0x0100000400] .fetch 7).Inv :=
  demoWith_inv (by decide) (by decide) (by decide) (by decide) (.inr rfl)

theorem witness_AssertedResetFromAnyState :
    rstNow { demo [0x0300000005] .exPut 65 with host := { hostWith [] [] with rst := [true] } } =
      true := by decide

theorem witness_EmptyLoadEqualsReset :
    (fun s : State => s.phase = .idle ∧ s.host.rst = [] ∧ s.host.cmds = some (.load 0) :: [some .execute])
      { demo [5] .idle 7 with host := hostWith [.load 0, .execute] [] } := by decide

theorem witness_DecodeOfEncodeIsTheInstruction : Config.defaults.wf = true ∧
    (∀ i ∈ [Instr.changeValue (-2147483648), .changePointer 2147483647, .get 0, .put 4294967295,
      .branchIfZero (-1), .branchIfNotZero 2147483647], i.wellFormed Config.defaults = true) := by
  decide

theorem witness_EncodeOfDecodeIsTheWord : Config.defaults.wf = true ∧
    FitsUnsigned Config.defaults.wordW 0x05FFFFFFFF ∧
    decode Config.defaults 0x05FFFFFFFF = .instr (.branchIfNotZero (-1)) := by decide

theorem witness_IllegalWordsAreThoseWithCodeSixOrMore : Config.defaults.wf = true ∧
    (∀ code ∈ [0, 5, 6, 255], code < 2 ^ Config.defaults.opcW) ∧ 5 < 6 := by decide

theorem witness_StepRunsTheDecodedInstruction :
    (fun s : State => s.phase = .fetch ∧ rstNow s = false ∧ fetchWord s = some 0x0000000005 ∧
      decode s.cfg 0x0000000005 = .instr (.changeValue 5)) (demo [0x0000000005] .fetch 7) ∧
    (fun s : State => s.phase = .fetch ∧ rstNow s = false ∧ fetchWord s = some 0x6300000000 ∧
      decode s.cfg 0x6300000000 = .invalid 99) (demo [0x6300000000] .fetch 7) := by decide

theorem witness_RunEndsAtTheProgramLength :
    (fun s : State => s.host.rst = [] ∧ s.prog.length ≤ s.pc ∧ s.phase = .fetch)
      { demo [5] .fetch 7 with pc := 1 } ∧
    (fun s : State => s.host.rst = [] ∧ s.prog.length ≤ s.pc ∧ s.phase = .idle ∧
      s.host.cmds = some .execute :: []) { demo [] .idle 7 with host := hostWith [.execute] [] } := by
  decide

theorem witness_ExecuteStartsFromTheStateAsItStands :
    (fun s : State => s.phase = .idle ∧ s.host.rst = [] ∧ s.host.cmds = some .execute :: [])
      { demo [5] .idle 7 with host := hostWith [.execute] [] } := by decide

theorem witness_PcUpdateLaw : ((demo [5] .fetch 7).Inv ∧
    (demo [5] .fetch 7).pc < (demo [5] .fetch 7).prog.length) ∧
    (fun s : State => exec (.branchIfZero 6) s = .next (nextOf s (exec (.branchIfZero 6) s)))
      (demo [5] .fetch 0) ∧
    (fun s : State => exec (.changePointer (-1)) s = .next (nextOf s (exec (.changePointer (-1)) s)))
      (demo [5] .fetch 7) :=
  ⟨⟨demo_inv 5 (by decide) (.inr rfl), by decide⟩, rfl, rfl⟩

theorem witness_BranchResolverTestsEveryBit : Opcode.put ≠ .branchIfZero ∧
    Opcode.put ≠ .branchIfNotZero ∧ FitsSigned 1 (-1) ∧ FitsSigned 32 256 ∧ FitsSigned 32 0 ∧
    (demo [5] .fetch 7).cursor < (demo [5] .fetch 7).tapeLen := by decide

theorem witness_EndedRunRecursOnExecute :
    (fun s : State => s.phase = .fetch ∧ s.host.rst = [] ∧ step s = .next (nextOf s (step s)) ∧
      Responds s (nextOf s (step s)) { kind := .memoryOutOfBounds, info := -1 })
      (demo [0x01FFFFFFFF] .fetch 7) := ⟨rfl, rfl, rfl, rfl⟩

theorem witness_ChangeValueAddsToTheCurrentCell :
    (demo [5] .fetch 7).cursor < (demo [5] .fetch 7).tapeLen := by decide

theorem witness_ChangeValueObeysTheArithmeticLaw : (demo [5] .fetch 7).Inv ∧
    (demo [5] .fetch 7).cursor < (demo [5] .fetch 7).tapeLen :=
  ⟨demo_inv 5 (by decide) (.inr rfl), by decide⟩

/-- The first cell past the tape, the cell left of it, and the limit: one input for each clause. -/
theorem witness_ChangePointerMovesOrFaults :
    (fun s : State => s.Inv ∧ 0 ≤ (s.cursor : Int) + 256 ∧
      overLimit s.cfg (growLen s.cfg.maxGrowth s.tapeLen ((s.cursor : Int) + 256).toNat) = false)
      (demo [0x0100000100] .fetch 7) ∧
    (fun s : State => s.Inv ∧ (s.cursor : Int) + (-1) < 0) (demo [0x0100000100] .fetch 7) ∧
    (fun s : State => s.Inv ∧
      overLimit s.cfg (growLen s.cfg.maxGrowth s.tapeLen ((s.cursor : Int) + 1024).toNat) = true)
      (demoWith config1024 [0x0100000400] .fetch 7) ∧
    (fun s : State => s.Inv ∧
      overLimit s.cfg (growLen s.cfg.maxGrowth s.tapeLen ((s.cursor : Int) + 1023).toNat) = false)
      (demoWith config1024 [0x0100000400] .fetch 7) :=
  ⟨⟨demo_inv _ (by decide) (.inr rfl), by decide, by decide⟩,
    ⟨demo_inv _ (by decide) (.inr rfl), by decide⟩, ⟨demo1024_inv, by decide⟩,
    ⟨demo1024_inv, by decide⟩⟩

theorem witness_GrowLenIsTheLoopsResult : (1 ≤ 4 ∧ 1 ≤ 8) ∧ 8 ≤ 8 := by decide

theorem witness_GrowthStepZeroFills :
    3 < (demoWith configT [] .idle 7).tapeLen ∧ (demoWith configT [] .idle 7).tapeLen ≤ 4 := by decide

theorem witness_GrowthKeepsCellsAndCovers :
    (fun s : State => 1 ≤ s.tapeLen ∧ 1 ≤ s.cfg.maxGrowth ∧ s.cfg.initCap ≤ s.cfg.maxGrowth ∧
      s.tapeLen = s.cfg.initCap ∧ s.cursor = s.cfg.initCap ∧ 3 < s.tapeLen ∧ s.tapeLen ≤ 7 ∧
      7 < (growTape s).tapeLen) (setCursor 4 (demoWith configT [] .idle 7)) := by decide

theorem witness_BranchesWritePcOnly :
    (demo [5] .fetch 7).cursor < (demo [5] .fetch 7).tapeLen := by decide

/-- BR11 ends the run past `prog_len`; a backward branch on a non-zero cell goes on at index 0. -/
theorem witness_TakenBranchContinuesOrEndsTheRun :
    (fun s : State => s.phase = .fetch ∧ s.host.rst = [] ∧ s.cursor < s.tapeLen ∧
      fetchWord s = some 0x0400000005 ∧
      (decode s.cfg 0x0400000005 = .instr (.branchIfZero 5) ∧ s.tape.read s.cursor = 0) ∧
      (s.pc : Int) + 5 = (5 : Nat) ∧ 5 < 2 ^ s.cfg.pcW ∧ s.prog.length ≤ 5)
      (demo [0x0400000005, 1] .fetch 0) ∧
    (fun s : State => s.phase = .fetch ∧ s.host.rst = [] ∧ s.cursor < s.tapeLen ∧
      fetchWord s = some 0x05FFFFFFFF ∧
      (decode s.cfg 0x05FFFFFFFF = .instr (.branchIfNotZero (-1)) ∧ s.tape.read s.cursor ≠ 0) ∧
      (s.pc : Int) + (-1) = (0 : Nat) ∧ 0 < 2 ^ s.cfg.pcW ∧ 0 < s.prog.length)
      { demo [1, 0x05FFFFFFFF] .fetch 7 with pc := 1 } := by decide

/-- A branch from index 0 to the end of its one-word program. -/
theorem witness_WellFormedTargetsKeepPcInRange :
    (fun s : State => s.Inv ∧ wellFormedTargets s.cfg s.prog ∧ s.pc ≤ s.prog.length ∧
      s.phase ≠ .exBr ∧ s.phase ≠ .loadCommit ∧ rstNow s = false ∧
      step s = .next (nextOf s (step s))) (demo [0x0500000001] .fetch 7) := by
  refine ⟨demo_inv _ (by decide) (.inr rfl), ?_, by decide, by decide, by decide, rfl, rfl⟩
  intro i w hw off hd
  obtain rfl : i = 0 := by
    have := (List.getElem?_eq_some_iff.1 hw).1
    simpa [demo, demoWith] using this
  obtain rfl : w = 0x0500000001 := by simpa [demo, demoWith] using hw.symm
  have e : decode (demo [0x0500000001] .fetch 7).cfg 0x0500000001 = .instr (.branchIfNotZero 1) := by
    decide
  rw [e] at hd
  rcases hd with h | h
  · cases h
  · cases h
    decide

theorem witness_GetStoresTheLastAnswer :
    (fun s : State => s.Inv ∧ s.cursor < s.tapeLen ∧ ∀ k, k < 3 → s.inp.answer k ≠ .wait)
      { demo [0x0200000003] .fetch 7 with inp := bytes [10, 20] } :=
  ⟨inv_ports (demo_inv _ (by decide) (.inr rfl)) _ _ _, by decide, by decide⟩

theorem witness_GetStoresBytesAsIntegers :
    (fun s : State => s.Inv ∧ 8 < s.cfg.cellW ∧ s.cursor < s.tapeLen ∧
      (∀ k, k < 3 → s.inp.answer k ≠ .wait) ∧ s.inp.answer 1 = .byte 255 ∧ s.inp.answer 2 = .eof)
      { demo [0x0200000003] .fetch 7 with inp := bytes [10, 255] } :=
  ⟨inv_ports (demo_inv _ (by decide) (.inr rfl)) _ _ _, by decide, by decide, by decide, by decide,
    by decide⟩

theorem witness_WaitHoldsAGet :
    (fun s : State => s.Inv ∧ s.cursor < s.tapeLen ∧ (1 < 2 ∧ ∀ j, j < 1 → s.inp.answer j ≠ .wait) ∧
      s.inp.answer 1 = .wait) { demo [0x0200000002] .fetch 7 with
        inp := { script := [.byte 10, .wait, .byte 20], standing := .eof } } :=
  ⟨inv_ports (demo_inv _ (by decide) (.inr rfl)) _ _ _, by decide, by decide, by decide⟩

theorem witness_WaitsDoNotChangeAGet :
    (fun s : State => s.host.rst = [] ∧ 2 ≤ s.inp.withoutWaits.script.length)
      { demo [0x0200000002] .fetch 7 with
        inp := { script := [.wait, .byte 10, .wait, .eof], standing := .wait } } := by decide

theorem witness_PutSendsOneBatch :
    (fun s : State => s.cursor < s.tapeLen ∧ ∀ k, k < 3 → s.out.ready k = true)
      (demo [0x0300000003] .fetch 7) := by decide

theorem witness_StallHoldsAPut :
    (fun s : State => s.cursor < s.tapeLen ∧ 1 < 2 ∧ (∀ j, j < 1 → s.out.ready j = true) ∧
      s.out.ready 1 = false) { demo [0x0300000002] .fetch 7 with
        out := { script := [true, false], standing := true } } := by decide

theorem witness_StallsDoNotChangeAPut :
    (fun s : State => s.host.rst = [] ∧ s.cursor < s.tapeLen ∧
      2 ≤ s.out.withoutStalls.script.length) { demo [0x0300000002] .fetch 7 with
        out := { script := [false, true, false, true], standing := false } } := by decide

theorem witness_TapeReadAfterTapeWrite :
    (fun s : State => s.tape.wf = true ∧ 255 < s.tapeLen ∧ s.tapeLen ≤ 256) (demo [5] .fetch 7) := by
  decide

/-- One state for each opcode, the fault of ChangePointer and the two holds included. -/
theorem witness_FrameOfEveryInstruction (i : Instr)
    (hi : i ∈ [Instr.changeValue 5, .changePointer 1, .changePointer (-1), .get 2, .put 2,
      .branchIfZero 6, .branchIfNotZero (-4)]) :
    (fun s : State => s.Inv ∧ exec i s = .next (nextOf s (exec i s)))
      { demo [5] .fetch 7 with
        inp := { script := [.byte 10], standing := .wait }
        out := { script := [true], standing := false } } := by
  refine ⟨inv_ports (demo_inv _ (by decide) (.inr rfl)) _ _ _, ?_⟩
  simp only [List.mem_cons, List.not_mem_nil, or_false] at hi
  rcases hi with rfl | rfl | rfl | rfl | rfl | rfl | rfl <;> rfl

theorem witness_BlockedCurrentCellStops :
    (fun s : State => s.tapeLen ≤ s.cursor) (setCursor 256 (demo [5] .fetch 7)) := by decide

theorem witness_FaultLeavesTheStateUntouched :
    (fun s : State => rstNow s = false ∧ step s = .next (nextOf s (step s)) ∧
      Responds s (nextOf s (step s)) { kind := .invalidCommand, info := 99 } ∧
      RspKind.invalidCommand ≠ .ok) (demo [0x6300000000] .fetch 7) :=
  ⟨rfl, rfl, rfl, by decide⟩

theorem witness_FaultCausesOfAnInstruction :
    (fun s : State => s.phase = .fetch ∧ rstNow s = false ∧ fetchWord s = some 0x01FFFFFFFF ∧
      decode s.cfg 0x01FFFFFFFF = .instr (.changePointer (-1)) ∧ (s.cursor : Int) + (-1) < 0)
      (demo [0x01FFFFFFFF] .fetch 7) ∧
    (fun s : State => s.phase = .fetch ∧ rstNow s = false ∧ fetchWord s = some 0x0600000000 ∧
      decode s.cfg 0x0600000000 = .invalid 6) (demo [0x0600000000] .fetch 7) := by decide

theorem witness_LoadCommitsAWellFormedSequence :
    (fun s : State => s.phase = .idle ∧ s.host.rst = [] ∧
      s.host.cmds = some (.load [LoadElem.pair 0 5, .pair 99 0].length) :: [some .execute] ∧
      s.host.elems = [LoadElem.pair 0 5, .pair 99 0].map some ++ [some .malformed] ∧
      [LoadElem.pair 0 5, .pair 99 0].length ≤ s.cfg.progLimit ∧
      LoadElem.malformed ∉ [LoadElem.pair 0 5, .pair 99 0])
      { demo [5] .idle 7 with
        host := hostWith [.load 2, .execute] [.pair 0 5, .pair 99 0, .malformed] } := by decide

theorem witness_LoadRejectsAMalformedElement :
    (fun s : State => s.phase = .idle ∧ s.host.rst = [] ∧
      s.host.cmds = some (.load [LoadElem.pair 0 1, .malformed].length) :: [] ∧
      s.host.elems = [LoadElem.pair 0 1, .malformed].map some ++ [] ∧
      [LoadElem.pair 0 1, .malformed].length ≤ s.cfg.progLimit ∧
      [LoadElem.pair 0 1, .malformed][1]? = some .malformed ∧
      ∀ j, j < 1 → [LoadElem.pair 0 1, .malformed][j]? ≠ some .malformed)
      { demo [5] .idle 7 with host := hostWith [.load 2] [.pair 0 1, .malformed] } := by decide

/-- A LOAD of two elements that has one: the host pauses, then presents the other. -/
theorem witness_LoadHoldsForTheHost :
    (fun s : State => s.phase = .loadRecv ∧ rstNow s = false ∧ s.ldStage.length < s.ldLen ∧
      s.host.elems.head?.join = none) { demo [5] .loadRecv 7 with
        ldLen := 2, ldStage := [.malformed]
        host := { hostWith [] [] with elems := [none, some (.pair 0 1)] } } ∧
    (fun s : State => s.phase = .loadRecv ∧ rstNow s = false ∧ s.ldStage.length < s.ldLen ∧
      s.host.elems = some (.pair 0 1) :: []) { demo [5] .loadRecv 7 with
        ldLen := 2, ldStage := [.malformed], host := hostWith [] [.pair 0 1] } := by decide

theorem witness_HostPausesDoNotChangeALoad :
    (fun s : State => s.phase = .loadRecv ∧ s.host.rst = [] ∧
      s.host.elems = [none, some (.pair 0 5), none, none] ++ some (.pair 99 0) :: [] ∧
      s.ldStage.length + [none, some (LoadElem.pair 0 5), none, none].reduceOption.length < s.ldLen)
      { demo [5] .loadRecv 7 with
        ldLen := 2
        host := { hostWith [] [] with
          elems := [none, some (.pair 0 5), none, none, some (.pair 99 0)] } } := by decide

theorem witness_LoadCommitIsAtomic :
    (fun s : State => s.phase = .loadCommit ∧ rstNow s = false ∧ .malformed ∉ s.ldStage)
      { demo [5] .loadCommit 7 with ldLen := 1, ldStage := [.pair 99 0] } ∧
    (fun s : State => s.phase = .loadCommit ∧ rstNow s = false ∧ s.ldStage[1]? = some .malformed ∧
      ∀ j, j < 1 → s.ldStage[j]? ≠ some .malformed)
      { demo [5] .loadCommit 7 with ldLen := 2, ldStage := [.pair 0 1, .malformed] } := by decide

theorem witness_InspectIsAPureAccessor :
    (fun s : State => s.phase = .idle ∧ s.host.rst = [] ∧ s.host.cmds = some .inspect :: [] ∧ s.Inv)
      { demo [5] .idle 7 with host := hostWith [.inspect] [] } :=
  ⟨rfl, rfl, rfl, inv_ports (demo_inv _ (by decide) (.inl rfl)) _ _ _⟩

/-- Both refusals, and the longest LOAD that is admitted. -/
theorem witness_RefusalsAreTheTwoHostMoves :
    (fun s : State => rstNow s = false ∧ s.phase = .idle ∧ s.host.cmds.head? = some (some .opThree))
      { demo [5] .idle 7 with host := hostWith [.opThree] [] } ∧
    (fun s : State => rstNow s = false ∧ s.phase = .idle ∧
      s.host.cmds.head? = some (some (.load 4294967296)) ∧ s.cfg.progLimit < 4294967296 ∧
      ¬ s.cfg.progLimit < 4294967295)
      { demo [5] .idle 7 with host := hostWith [.load 4294967296] [] } := by decide

theorem witness_CommandsWaitWhileOneIsInProgress :
    (fun s : State => cmdReady s = false ∧ step s = .next (nextOf s (step s)) ∧
      s.host.cmds = [some .inspect])
      { demo [5] .fetch 7 with host := hostWith [.inspect] [] } := ⟨rfl, rfl, rfl⟩

theorem witness_EveryStepKeepsTheInvariant :
    (fun s : State => s.Inv ∧ step s = .next (nextOf s (step s))) (demo [0x0100000100] .fetch 7) :=
  ⟨demo_inv _ (by decide) (.inr rfl), rfl⟩

theorem witness_NoStepFaultsUnderTheInvariant : (demo [0x0300000001] .fetch 7).Inv :=
  demo_inv _ (by decide) (.inr rfl)

theorem witness_StateMachineRefinesTheStep :
    (fun s : State => s.Inv ∧ s.host.rst = []) (demo [0x0100000100] .fetch 7) :=
  ⟨demo_inv _ (by decide) (.inr rfl), rfl⟩

theorem witness_EveryTransitionKeepsTheInvariant :
    (fun s : State => s.Inv ∧ microStep s = .next (nextOf s (microStep s)))
      (demo [0x0100000100] .fetch 7) := ⟨demo_inv _ (by decide) (.inr rfl), rfl⟩

/-- The largest and the smallest argument, with a limit. -/
theorem witness_RegistersFitTheirWidths :
    (fun s : State => s.Inv ∧ s.cfg.tapeLimit = some 1024 ∧ s.cfg.opcW < s.cfg.infoW ∧
      FitsSigned s.cfg.argW 2147483647 ∧ FitsSigned s.cfg.argW (-2147483648)) (demoWith config1024 [0x0100000400] .fetch 7) :=
  ⟨demo1024_inv, by decide, by decide, by decide, by decide⟩

theorem witness_OnlyLoadAndResetWriteTheProgram :
    (fun s : State => step s = .next (nextOf s (step s)) ∧ rstNow s = false ∧
      s.phase ≠ .loadCommit) (demo [0x0000000005] .fetch 7) := ⟨rfl, rfl, by decide⟩

theorem witness_TapeOnlyGrowsBetweenLoads :
    (fun s : State => step s = .next (nextOf s (step s)) ∧ rstNow s = false ∧
      s.phase ≠ .loadCommit ∧ 255 < s.tapeLen ∧ 255 ≠ s.cursor) (demo [0x0100000100] .fetch 7) :=
  ⟨rfl, rfl, by decide, by decide, by decide⟩

/-- A command, another word, and both holds. -/
theorem witness_PortsActOnlyInGetAndPut :
    (fun s : State => step s = .next (nextOf s (step s)) ∧ s.phase = .idle)
      { demo [5] .idle 7 with host := hostWith [.execute] [] } ∧
    (fun s : State => step s = .next (nextOf s (step s)) ∧ s.phase = .fetch ∧
      ∀ w n, fetchWord s = some w →
        decode s.cfg w ≠ .instr (.get n) ∧ decode s.cfg w ≠ .instr (.put n))
      (demo [0x0000000005] .fetch 7) ∧
    (fun s : State => step s = .next (nextOf s (step s)) ∧ s.phase = .exGet)
      { demo [0x0200000002] .exGet 7 with rep := 1 } ∧
    (fun s : State => step s = .next (nextOf s (step s)) ∧ s.phase = .exPut)
      { demo [0x0300000002] .exPut 7 with rep := 1 } ∧
    (fun s : State => step s = .next (nextOf s (step s)) ∧ s.phase = .decode ∧
      Opcode.ofCode (codeOf s.cfg s.ir) ≠ some .put)
      { demo [0x0200000002] .decode 7 with ir := 0x0200000002 } := by
  refine ⟨⟨rfl, rfl⟩, ⟨rfl, rfl, ?_⟩, ⟨rfl, rfl⟩, ⟨rfl, rfl⟩, rfl, rfl, by decide⟩
  intro w n hw
  obtain rfl : w = 0x0000000005 := by simpa [fetchWord, demo, demoWith, State.reset] using hw.symm
  have e : decode (demo [0x0000000005] .fetch 7).cfg 0x0000000005 = .instr (.changeValue 5) := by
    decide
  rw [e]
  exact ⟨by simp, by simp⟩

theorem witness_WorkingRegistersAreDeadBetweenInstructions :
    (demo [5] .fetch 7).phase.midInstr = false := rfl

theorem witness_PlacedWordRunsNext : (demo [5] .idle 7).cfg = Config.defaults ∧
    decodeTableWord 40 0x0100000100 = some (.changePointer 256) := by decide

end Sys2Proof.Tests
end

namespace Sys2Proof.Machine

/-! ### Ranges of the wide registers (R30, R31, R136) -/

/-- A wider signed field holds every value of a narrower one. -/
theorem fitsSigned_mono {m n : Nat} {x : Int} (h : m ≤ n) (hx : FitsSigned m x) :
    FitsSigned n x := by
  obtain ⟨hlo, hhi⟩ := hx
  have hp : 2 ^ (m - 1) ≤ 2 ^ (n - 1) := Nat.pow_le_pow_right (by norm_num) (by omega)
  exact ⟨by omega, by omega⟩

/-- An unsigned number of `m` bits fits every signed field with a bit more. -/
theorem fitsSigned_natCast {m n k : Nat} (h : m < n) (hk : k < 2 ^ m) : FitsSigned n (k : Int) := by
  have hp : 2 ^ m ≤ 2 ^ (n - 1) := Nat.pow_le_pow_right (by norm_num) (by omega)
  exact ⟨by omega, by omega⟩

/-- `rsp_info` is at least as wide as `ncur` (R30, R31). -/
theorem ncurW_le_infoW (c : Config) : c.ncurW ≤ c.infoW := by
  unfold Config.ncurW Config.infoW; omega

theorem pcW_lt_infoW (c : Config) : c.pcW < c.infoW := by
  unfold Config.infoW; omega

/-- R136: `ncur` has room for every candidate cursor. -/
theorem fitsSigned_candidate {c : Config} {cur : Nat} {d : Int} (hc : cur < 2 ^ c.curW)
    (hd : FitsSigned c.argW d) : FitsSigned c.ncurW ((cur : Int) + d) := by
  obtain ⟨hlo, hhi⟩ := hd
  have h1 : 2 ^ c.curW ≤ 2 ^ max c.curW c.argW := Nat.pow_le_pow_right (by norm_num) (by omega)
  have h2 : 2 ^ (c.argW - 1) ≤ 2 ^ max c.curW c.argW :=
    Nat.pow_le_pow_right (by norm_num) (by omega)
  have h3 : 2 ^ (c.ncurW - 1) = 2 ^ max c.curW c.argW * 2 := pow_succ 2 _
  exact ⟨by omega, by omega⟩

theorem signedArg_fits {c : Config} (h : 1 ≤ c.argW) (w : Word) :
    FitsSigned c.argW (signedArg c w) := by
  refine signedOf_fits h ?_
  rw [argOf_eq h]
  exact Nat.mod_lt _ (Nat.two_pow_pos _)

theorem countArg_fits {c : Config} (h : 1 ≤ c.argW) (w : Word) :
    FitsUnsigned (c.argW + 1) (countArg c w) := by
  have ha : countArg c w < 2 ^ c.argW := by
    rw [countArg, argOf_eq h]
    exact Nat.mod_lt _ (Nat.two_pow_pos _)
  have hp : 2 ^ c.argW ≤ 2 ^ (c.argW + 1) := Nat.pow_le_pow_right (by norm_num) (Nat.le_succ _)
  exact ha.trans_le hp

theorem codeOf_lt {c : Config} (h : 1 ≤ c.opcW) (w : Word) : codeOf c w < 2 ^ c.opcW := by
  rw [codeOf_eq h]
  exact Nat.mod_lt _ (Nat.two_pow_pos _)

/-! ### The limit and the growth sequence (R24, R58, R61) -/

theorem overLimit_eq_false_iff {c : Config} {len : Nat} :
    overLimit c len = false ↔ ∀ l, c.tapeLimit = some l → len ≤ l := by
  unfold overLimit
  cases c.tapeLimit <;> simp

/-- A length within `TAPE_LIMIT` has every shorter one within it. -/
theorem overLimit_of_le {c : Config} {m n : Nat} (h : m ≤ n) (hn : overLimit c n = false) :
    overLimit c m = false :=
  overLimit_eq_false_iff.2 fun l hl => h.trans (overLimit_eq_false_iff.1 hn l hl)

/-- A numeric `TAPE_LIMIT` lies between `INIT_CAP` and `2^CUR_W` (R8). -/
theorem tapeLimit_bounds {c : Config} (hc : c.wf = true) {l : Nat} (hl : c.tapeLimit = some l) :
    c.initCap ≤ l ∧ l ≤ 2 ^ c.curW := by
  obtain ⟨-, -, -, -, -, hlim, -⟩ := Config.wf_facts hc
  simpa [Config.limitOk, hl] using hlim

theorem growLenLoop_of_le {mg fuel len c : Nat} (h : len ≤ c) :
    growLenLoop mg (fuel + 1) len c = growLenLoop mg fuel (grownLen mg len) c := if_pos h

/-- More passes than the loop of R61 needs change nothing. -/
theorem growLenLoop_succ {mg fuel len c : Nat} (hl : 1 ≤ len) (hm : 1 ≤ mg)
    (hf : c + 1 ≤ len + fuel) : growLenLoop mg (fuel + 1) len c = growLenLoop mg fuel len c := by
  induction fuel generalizing len with
  | zero => exact growLenLoop_of_lt hf
  | succ n ih =>
    by_cases h : len ≤ c
    · rw [growLenLoop_of_le h, growLenLoop_of_le h]
      exact ih (by unfold grownLen; omega) (by unfold grownLen; omega)
    · rw [growLenLoop_of_lt (by omega), growLenLoop_of_lt (by omega)]

/-- One growth step on the way to an index does not change where growth ends (R61). -/
theorem growLen_grownLen {mg len c : Nat} (hl : 1 ≤ len) (hm : 1 ≤ mg) (hc : len ≤ c) :
    growLen mg (grownLen mg len) c = growLen mg len c := by
  have hg : 1 ≤ grownLen mg len ∧ c + 1 ≤ grownLen mg len + c := by
    unfold grownLen; omega
  calc growLen mg (grownLen mg len) c
      = growLenLoop mg c (grownLen mg len) c := growLenLoop_succ hg.1 hm hg.2
    _ = growLen mg len c := (growLenLoop_of_le hc).symm

theorem maxGrowth_pos {c : Config} (hc : c.wf = true) : 1 ≤ c.maxGrowth := by
  obtain ⟨hinit, hmax, -⟩ := Config.wf_facts hc
  exact hinit.trans hmax

namespace State.Inv

variable {s : State} (hi : s.Inv)
include hi

/-- In every phase, `GROW` included, the cursor fits `CUR_W` where the tape is bounded (R23). -/
theorem cursor_fits {l : Nat} (hl : s.cfg.tapeLimit = some l) : s.cursor < 2 ^ s.cfg.curW := by
  refine lt_of_lt_of_le ?_ (tapeLimit_bounds hi.cfgWf hl).2
  by_cases hg : s.phase = .grow
  · exact (growLen_covers hi.tapeLen_pos (maxGrowth_pos hi.cfgWf)).trans_le
      (overLimit_eq_false_iff.1 (hi.growInLimit hg) l hl)
  · exact (hi.cursorInTape hg).trans_le (overLimit_eq_false_iff.1 hi.lenInLimit l hl)

/-- What `ncur` holds can be recorded in `rsp_info` (R31). -/
theorem ncur_fits_info {l : Nat} (hl : s.cfg.tapeLimit = some l) :
    FitsSigned s.cfg.infoW s.ncur :=
  fitsSigned_mono (ncurW_le_infoW _) (hi.ncurFits l hl)

/-- The candidate cursor of an admissible move fits `ncur` (R136). -/
theorem candidate_fits {d : Int} (hd : FitsSigned s.cfg.argW d) :
    ∀ l, s.cfg.tapeLimit = some l → FitsSigned s.cfg.ncurW (candidateCursor s.cursor d) :=
  fun _ hl => fitsSigned_candidate (hi.cursor_fits hl) hd

/-! ### One rule per state operation -/

protected theorem setHost (h : HostPort) : (setHost h s).Inv := { hi with }
protected theorem polled : (polled s).Inv := { hi with }
protected theorem offered : (offered s).Inv := { hi with }
protected theorem emit (es : List PortEvent) : (emit es s).Inv := { hi with }

protected theorem setIr {w : Word} (hw : FitsUnsigned s.cfg.wordW w) : (setIr w s).Inv :=
  { hi with irFits := hw }

protected theorem setRep {n : Nat} (hn : FitsUnsigned (s.cfg.argW + 1) n) : (setRep n s).Inv :=
  { hi with repFits := hn }

protected theorem setNcur {x : Int}
    (hx : ∀ l, s.cfg.tapeLimit = some l → FitsSigned s.cfg.ncurW x) : (setNcur x s).Inv :=
  { hi with ncurFits := hx }

protected theorem setScratch {cap : Nat} {bs : List Byte} (hb : bs.length ≤ cap)
    (hcap : s.scratchCap ≤ cap) : (setScratch cap bs s).Inv :=
  { hi with scratchInCap := hb, scratchCapInit := hi.scratchCapInit.trans hcap }

/-- Into a phase that demands nothing of `pc` or of the staging store. -/
theorem setPhase_of_quiet {p : Phase} (hc : s.cursor < s.tapeLen) (hg : p ≠ .grow)
    (hm : p.midInstr = false) (hl : p ≠ .loadRecv ∧ p ≠ .loadCommit) : (setPhase p s).Inv :=
  { hi with
    cursorInTape := fun _ => hc
    growInLimit := fun h => (hg h).elim
    pcInProg := fun h => by simp [hm] at h
    loadInLimit := fun h => by simp [hl] at h }

/-- Into a phase of the instruction under way (R22). -/
theorem setPhase_of_midInstr {p : Phase} (hc : s.cursor < s.tapeLen) (hg : p ≠ .grow)
    (hm : p.midInstr = true) (hpc : s.pc < s.prog.length) : (setPhase p s).Inv :=
  { hi with
    cursorInTape := fun _ => hc
    growInLimit := fun h => (hg h).elim
    pcInProg := fun _ => hpc
    loadInLimit := fun h => by rcases h with rfl | rfl <;> cases hm }

/-- Into a phase of a LOAD under way (R104). -/
theorem setPhase_of_load {p : Phase} (hc : s.cursor < s.tapeLen)
    (hp : p = .loadRecv ∨ p = .loadCommit)
    (hl : s.ldLen ≤ s.cfg.progLimit ∧ s.ldStage.length ≤ s.ldLen) : (setPhase p s).Inv :=
  { hi with
    cursorInTape := fun _ => hc
    growInLimit := fun h => by rcases hp with rfl | rfl <;> cases h
    pcInProg := fun h => by rcases hp with rfl | rfl <;> cases h
    loadInLimit := fun _ => hl }

/-- The staging store of a LOAD (R104). -/
protected theorem setStage {n : Nat} {es : List LoadElem} (hn : n ≤ s.cfg.progLimit)
    (hes : es.length ≤ n) : (setStage n es s).Inv :=
  { hi with loadInLimit := fun _ => ⟨hn, hes⟩ }

/-- The end of an instruction writes `pc` within its width (R116). -/
protected theorem endInstr (hc : s.cursor < s.tapeLen) (tk : Bool) (off : Int) :
    (endInstr tk off s).Inv :=
  { hi with
    cursorInTape := fun _ => hc
    growInLimit := fun h => by cases h
    pcFits := nextPc_lt _ _ _ _
    pcInProg := fun h => by cases h
    loadInLimit := fun h => by rcases h with h | h <;> cases h }

protected theorem advance (hc : s.cursor < s.tapeLen) : (advance s).Inv := hi.endInstr hc _ _

/-- A response whose `info` fits (R195). -/
protected theorem respond {r : Response} (hc : s.cursor < s.tapeLen)
    (hr : ∀ l, s.cfg.tapeLimit = some l → s.cfg.opcW < s.cfg.infoW →
      FitsSigned s.cfg.infoW r.info) : (respond r s).Inv :=
  { hi with
    cursorInTape := fun _ => hc
    growInLimit := fun h => by cases h
    pcInProg := fun h => by cases h
    loadInLimit := fun h => by rcases h with h | h <;> cases h
    infoFits := hr }

/-- The cursor moved within `TAPE_LIMIT` and the tape grown to cover it (R135, R61). -/
theorem moveTo {i : Nat} (hg : s.phase ≠ .grow)
    (hlim : overLimit s.cfg (growLen s.cfg.maxGrowth s.tapeLen i) = false) :
    State.Inv { s with cursor := i, tapeLen := growLen s.cfg.maxGrowth s.tapeLen i } :=
  { hi with
    tapeBelow := fun c hc => (hi.tapeBelow c hc).trans_le (le_growLen _ _ _)
    lenInSeq := by
      obtain ⟨k, hk⟩ := hi.lenInSeq
      show ∃ j, growLen s.cfg.maxGrowth s.tapeLen i = growthSeq s.cfg j
      rw [hk]
      exact growLenLoop_growthSeq s.cfg _ k i
    lenInLimit := hlim
    cursorInTape := fun _ => growLen_covers hi.tapeLen_pos (maxGrowth_pos hi.cfgWf)
    growInLimit := fun h => (hg h).elim }

/-- The cursor committed ahead of the tape, into `GROW` (R139). -/
theorem setPhase_grow {i : Nat} (hpc : s.pc < s.prog.length)
    (hlim : overLimit s.cfg (growLen s.cfg.maxGrowth s.tapeLen i) = false) :
    (setPhase .grow (setCursor i s)).Inv :=
  { hi with
    cursorInTape := fun h => (h rfl).elim
    growInLimit := fun _ => hlim
    pcInProg := fun _ => hpc
    loadInLimit := fun h => by rcases h with h | h <;> cases h }

/-- One growth step in `GROW` (R60). -/
protected theorem growStep (hg : s.phase = .grow) (hc : s.tapeLen ≤ s.cursor) :
    (growStep s).Inv := by
  have hend : growLen s.cfg.maxGrowth (grownLen s.cfg.maxGrowth s.tapeLen) s.cursor =
      growLen s.cfg.maxGrowth s.tapeLen s.cursor :=
    growLen_grownLen hi.tapeLen_pos (maxGrowth_pos hi.cfgWf) hc
  have hlim := hi.growInLimit hg
  exact { hi with
    tapeWf := Memory.below_wf _ hi.tapeWf
    tapeBelow := fun c hc => (Memory.mem_below hc).2.trans_le (Nat.le_add_right _ _)
    tapeFits := fun c hc => hi.tapeFits c (Memory.mem_below hc).1
    lenInSeq := by
      obtain ⟨k, hk⟩ := hi.lenInSeq
      exact ⟨k + 1, by rw [growStep_tapeLen, hk]; rfl⟩
    lenInLimit := overLimit_of_le (hend ▸ le_growLen _ _ _) hlim
    cursorInTape := fun h => (h hg).elim
    growInLimit := fun _ => by
      rw [growStep_cfg, growStep_tapeLen, growStep_cursor, hend]; exact hlim }

end State.Inv

/-- What a LOAD and reset leave meets the invariant (R102, R220); nothing is asked of the tape, the
cursor and `pc` that stood there before. -/
theorem freshLoad_inv {ws : List Word} {s : State} (hcfg : s.cfg.wf = true) (hp : s.phase = .idle)
    (hlen : ws.length ≤ s.cfg.progLimit) (hws : ∀ w ∈ ws, FitsUnsigned s.cfg.wordW w)
    (hir : FitsUnsigned s.cfg.wordW s.ir) (hrep : FitsUnsigned (s.cfg.argW + 1) s.rep)
    (hncur : ∀ l, s.cfg.tapeLimit = some l → FitsSigned s.cfg.ncurW s.ncur)
    (hinfo : ∀ l, s.cfg.tapeLimit = some l → s.cfg.opcW < s.cfg.infoW →
      FitsSigned s.cfg.infoW s.lastRsp.info) : (freshLoad ws s).Inv where
  cfgWf := hcfg
  tapeWf := rfl
  tapeBelow := by simp
  tapeFits := by simp
  lenInSeq := ⟨0, rfl⟩
  lenInLimit := overLimit_eq_false_iff.2 fun _ hl => (tapeLimit_bounds hcfg hl).1
  cursorInTape := fun _ => (Config.wf_facts hcfg).1
  growInLimit := by simp [hp]
  progInLimit := hlen
  wordsFit := hws
  pcFits := Nat.two_pow_pos _
  pcInProg := by simp [hp, Phase.midInstr]
  scratchInCap := Nat.zero_le _
  scratchCapInit := Nat.le_refl _
  loadInLimit := by simp [hp]
  irFits := hir
  repFits := hrep
  ncurFits := hncur
  infoFits := hinfo

end Sys2Proof.Machine

namespace Sys2Proof.Machine

/-! ### What a Get iteration and the start of a Put leave alone -/

@[simp] theorem getIteration_cfg (n : Nat) (s : State) : (getIteration n s).cfg = s.cfg := by
  rw [getIteration_frame]
@[simp] theorem getIteration_prog (n : Nat) (s : State) : (getIteration n s).prog = s.prog := by
  rw [getIteration_frame]
@[simp] theorem getIteration_tapeLen (n : Nat) (s : State) : (getIteration n s).tapeLen = s.tapeLen := by
  rw [getIteration_frame]
@[simp] theorem getIteration_cursor (n : Nat) (s : State) : (getIteration n s).cursor = s.cursor := by
  rw [getIteration_frame]
@[simp] theorem getIteration_pc (n : Nat) (s : State) : (getIteration n s).pc = s.pc := by
  rw [getIteration_frame]
@[simp] theorem beginPut_cfg (n : Nat) (s : State) : (beginPut n s).cfg = s.cfg := by
  rw [beginPut_frame]
@[simp] theorem beginPut_prog (n : Nat) (s : State) : (beginPut n s).prog = s.prog := by
  rw [beginPut_frame]
@[simp] theorem beginPut_tape (n : Nat) (s : State) : (beginPut n s).tape = s.tape := by
  rw [beginPut_frame]
@[simp] theorem beginPut_tapeLen (n : Nat) (s : State) : (beginPut n s).tapeLen = s.tapeLen := by
  rw [beginPut_frame]
@[simp] theorem beginPut_cursor (n : Nat) (s : State) : (beginPut n s).cursor = s.cursor := by
  rw [beginPut_frame]
@[simp] theorem beginPut_pc (n : Nat) (s : State) : (beginPut n s).pc = s.pc := by
  rw [beginPut_frame]

/-! ### What a step can do -/

/-- A step under `rst` is the reset or the machine's own step, the wire having moved on (R220). -/
theorem stepUnder_next {next : State → Host.Outcome State Fault Refusal} {s t : State}
    (h : stepUnder next s = .next t) :
    (rstNow s = true ∧ t = assertReset (rstSampled s)) ∨
      (rstNow s = false ∧ next (rstSampled s) = .next t) := by
  unfold stepUnder at h
  cases hr : rstNow s with
  | true => rw [hr, if_pos rfl] at h; cases h; exact .inl ⟨rfl, rfl⟩
  | false => rw [hr, if_neg Bool.false_ne_true] at h; exact .inr ⟨rfl, h⟩

/-- Where the architectural step differs from R118's table: a whole instruction from `FETCH`, the rest
of a held one from `EX_GET` and `EX_PUT` (R111, R112, R119). -/
theorem sequencerStep_cases (s : State) :
    (s.phase = .fetch ∧ sequencerStep s = runInstruction s) ∨
    (s.phase = .exGet ∧ sequencerStep s = .next (getRun s.rep s)) ∨
    (s.phase = .exPut ∧ sequencerStep s = putRun s.rep s) ∨
    sequencerStep s = phaseStep s := by
  unfold sequencerStep
  cases s.phase <;> simp

theorem sequencerStep_of_fetch {s : State} (h : s.phase = .fetch) :
    sequencerStep s = runInstruction s := by
  simp only [sequencerStep, h]

/-- A host command is the same transition in both machines. -/
theorem sequencerStep_of_quiet {s : State} (hm : s.phase.midInstr = false) (hf : s.phase ≠ .fetch) :
    sequencerStep s = phaseStep s := by
  rcases sequencerStep_cases s with ⟨hp, -⟩ | ⟨hp, -⟩ | ⟨hp, -⟩ | e
  · exact (hf hp).elim
  · rw [hp] at hm; cases hm
  · rw [hp] at hm; cases hm
  · exact e

/-- What `IDLE` does with the command presented (R118). -/
theorem acceptCommand_next {s t : State} (h : acceptCommand s = .next t) :
    t = s ∨ t = commandTaken s ∨
    (∃ n, n ≤ s.cfg.progLimit ∧ t = setPhase .loadRecv (setStage n [] (commandTaken s))) ∨
    t = resumeRun (commandTaken s) ∨ t = inspect (commandTaken s) := by
  unfold acceptCommand at h
  split at h
  · cases h; exact .inl rfl
  · cases h; exact .inr (.inl rfl)
  · split at h
    · cases h
    · cases h; exact .inr (.inr (.inl ⟨_, Nat.not_lt.1 ‹_›, rfl⟩))
  · cases h; exact .inr (.inr (.inr (.inl rfl)))
  · cases h; exact .inr (.inr (.inr (.inr rfl)))
  · cases h

/-- What `LOAD_RECV` does (R104, R119). -/
theorem receiveElement_cases (s : State) :
    receiveElement s = s ∨ receiveElement s = elementTaken s ∨
    (∃ e, s.ldStage.length < s.ldLen ∧
      receiveElement s = setStage s.ldLen (s.ldStage ++ [e]) (elementTaken s)) ∨
    receiveElement s = setPhase .loadCommit s := by
  unfold receiveElement
  split
  · split
    · exact .inl rfl
    · exact .inr (.inl rfl)
    · exact .inr (.inr (.inl ⟨_, ‹_›, rfl⟩))
  · exact .inr (.inr (.inr rfl))

theorem firstMalformed_lt {es : List LoadElem} {k : Nat} (h : firstMalformed es = some k) :
    k < es.length := by
  induction es generalizing k with
  | nil => cases h
  | cons e es ih =>
    cases e with
    | malformed => cases h; exact Nat.succ_pos _
    | pair code arg =>
      obtain ⟨j, hj, rfl⟩ := Option.map_eq_some_iff.1 h
      exact Nat.succ_lt_succ (ih hj)

theorem stagedWords_length_le (c : Config) (es : List LoadElem) :
    (stagedWords c es).length ≤ es.length := by
  induction es with
  | nil => exact Nat.le_refl _
  | cons e es ih =>
    cases e with
    | malformed => exact ih.trans (Nat.le_succ _)
    | pair code arg => exact Nat.succ_le_succ ih

theorem stagedWords_fit (c : Config) (es : List LoadElem) :
    ∀ w ∈ stagedWords c es, FitsUnsigned c.wordW w := by
  induction es with
  | nil => simp [stagedWords]
  | cons e es ih =>
    cases e with
    | malformed => exact ih
    | pair code arg => exact List.forall_mem_cons.2 ⟨joinWord_fits c code arg, ih⟩

/-- What `LOAD_COMMIT` does: the failure of R105 or the commit of R102. -/
theorem commitLoad_cases (s : State) :
    (∃ k, k < s.ldStage.length ∧ commitLoad s = raiseFault .invalidProgram k s) ∨
    commitLoad s =
      respond { kind := .ok, info := 0 } (freshLoad (stagedWords s.cfg s.ldStage) s) := by
  unfold commitLoad
  split
  · exact .inl ⟨_, firstMalformed_lt ‹_›, rfl⟩
  · exact .inr rfl

/-- A ChangeValue that answers read the current cell (R131, R56). -/
theorem execChangeValue_next {d : Int} {s t : State} (h : execChangeValue d s = .next t) :
    s.cursor < s.tapeLen ∧ ∃ v, t = advance (writeCurrent (cellSum s.cfg v d) s) := by
  unfold execChangeValue at h
  split at h
  · cases h
  · cases h; exact ⟨(readCurrent_eq_some ‹_›).1, _, rfl⟩

/-- A branch that answers read the current cell and wrote `pc` (R151, R152). -/
theorem resolveBranch_next {op : Opcode} {off : Int} {s t : State}
    (h : resolveBranch op off s = .next t) :
    s.cursor < s.tapeLen ∧ ∃ tk, t = endInstr tk off s := by
  unfold resolveBranch at h
  split at h
  · cases h
  · cases h; exact ⟨(readCurrent_eq_some ‹_›).1, _, rfl⟩

/-- `EX_BR` likewise (R118). -/
theorem phaseExBr_next {s t : State} (h : phaseExBr s = .next t) :
    s.cursor < s.tapeLen ∧ ∃ tk off, t = endInstr tk off s := by
  unfold phaseExBr at h
  split at h
  · cases h
  · split at h <;> cases h <;> exact ⟨(readCurrent_eq_some ‹_›).1, _, _, rfl⟩

/-- A pointer move with every tape entry inside the tape: the fault, or the cursor moved and the tape
grown to cover it, no cell changed (R135). -/
theorem movePointer_eq {s : State} (h : ∀ c ∈ s.tape, c.1 < s.tapeLen) :
    movePointer s = raiseFault .memoryOutOfBounds s.ncur s ∨
    (overLimit s.cfg (growLen s.cfg.maxGrowth s.tapeLen s.ncur.toNat) = false ∧
      movePointer s = advance { s with
        cursor := s.ncur.toNat
        tapeLen := growLen s.cfg.maxGrowth s.tapeLen s.ncur.toNat }) := by
  rcases movePointer_cases s with ⟨-, e⟩ | ⟨h0, hlt, hlim, e⟩ | ⟨-, hlim, e⟩
  · exact .inl e
  · refine .inr ⟨hlim, ?_⟩
    rw [e, growLen_of_lt (by omega)]
    rfl
  · refine .inr ⟨hlim, ?_⟩
    rw [e, growTape_eq (s := setCursor s.ncur.toNat s) h]
    rfl

/-- `EX_CP` ends a move as ChangePointer does, or commits the cursor and leaves the growth to `GROW`
(R118, R139). -/
theorem phaseExCp_cases (s : State) :
    phaseExCp s = movePointer s ∨
    (overLimit s.cfg (growLen s.cfg.maxGrowth s.tapeLen s.ncur.toNat) = false ∧
      phaseExCp s = setPhase .grow (setCursor s.ncur.toNat s)) := by
  unfold phaseExCp movePointer
  cases hb : boundsCheck s.cfg s.ncur s.tapeLen with
  | negative => exact .inl rfl
  | overLimit => exact .inl rfl
  | inside => exact .inl rfl
  | grow =>
    refine .inr ⟨?_, rfl⟩
    unfold boundsCheck at hb
    split at hb
    · cases hb
    · split at hb
      · cases hb
      · exact eq_false_of_ne_true ‹_›

/-- A value Get stores is a cell's (R53, R28). -/
theorem InAnswer.cell_fits {c : Config} (hc : 1 ≤ c.cellW) {a : InAnswer} {v : Int}
    (h : a.cell c = some v) : FitsSigned c.cellW v := by
  cases a with
  | wait => cases h
  | eof => cases h; exact wrap_fits hc _
  | byte b => cases h; exact wrap_fits hc _

/-- The scratch bytes after the start of a Put lie within its capacity, which never shrinks (R27). -/
theorem beginPut_scratch {n : Nat} {s : State} (h : s.scratch.length ≤ s.scratchCap) :
    (beginPut n s).scratch.length ≤ (beginPut n s).scratchCap ∧
      s.scratchCap ≤ (beginPut n s).scratchCap := by
  unfold beginPut growScratch
  by_cases hn : s.scratchCap < n
  · simp only [setRep_scratchCap, hn, if_true]
    split <;> simp [fillScratch] <;> omega
  · simp only [setRep_scratchCap, hn, if_false]
    split <;> simp [fillScratch] <;> omega

theorem decode_invalid {c : Config} {w : Word} {code : Nat} (h : decode c w = .invalid code) :
    codeOf c w = code := by
  unfold decode at h
  split at h <;> cases h
  rfl

/-- A decoded argument lies in its range (R81). -/
theorem decode_wellFormed {c : Config} (hc : c.wf = true) {w : Word} {i : Instr}
    (h : decode c w = .instr i) : i.wellFormed c = true := by
  obtain ⟨-, -, -, harg, -⟩ := Config.wf_facts hc
  have hs := signedArg_fits harg w
  have hu : argOf c w < 2 ^ c.argW := by
    rw [argOf_eq harg]; exact Nat.mod_lt _ (Nat.two_pow_pos _)
  unfold decode at h
  split at h
  · rename_i op _
    cases h
    cases op <;> simp only [Opcode.apply, Instr.wellFormed, decide_eq_true_eq]
    · exact hs
    · exact hs
    · exact hu
    · exact hu
    · exact hs
    · exact hs
  · cases h

end Sys2Proof.Machine

namespace Sys2Proof.Machine

/-! ### The invariant through the instructions -/

namespace State.Inv

variable {s : State} (hi : s.Inv)
include hi

/-- One Get iteration (R171). -/
protected theorem getIteration {n : Nat} (hn : FitsUnsigned (s.cfg.argW + 1) n) :
    (getIteration n s).Inv := by
  obtain ⟨-, -, -, -, hcell, -⟩ := Config.wf_facts hi.cfgWf
  unfold Machine.getIteration
  split
  · exact hi.polled
  · exact State.Inv.writeCurrent ((hi.polled.emit _).setRep hn) (InAnswer.cell_fits hcell ‹_›)

/-- A Get, run to its end or to a hold (R171, R119). -/
protected theorem getRun {n : Nat} (hc : s.cursor < s.tapeLen) (hpc : s.pc < s.prog.length)
    (hn : FitsUnsigned (s.cfg.argW + 1) n) : (getRun n s).Inv := by
  induction n generalizing s with
  | zero => exact (hi.setRep hn).advance hc
  | succ n ih =>
    have hn' : FitsUnsigned (s.cfg.argW + 1) n := (Nat.lt_succ_self n).trans hn
    have go : (Machine.getRun n (Machine.getIteration n s)).Inv :=
      ih (hi.getIteration hn') (by simpa using hc) (by simpa using hpc) (by simpa using hn')
    unfold Machine.getRun
    split
    · exact (hi.polled.setRep hn).setPhase_of_midInstr (p := .exGet) hc (by decide) rfl hpc
    · exact go
    · exact go

/-- A Put from its start on (R174). -/
protected theorem beginPut {n : Nat} (hn : FitsUnsigned (s.cfg.argW + 1) n) :
    (beginPut n s).Inv := by
  obtain ⟨hlen, hcap⟩ := beginPut_scratch (n := n) hi.scratchInCap
  rw [beginPut_frame]
  exact ((hi.setScratch hlen hcap).setRep hn).emit _

/-- A Put, run to its end or to a hold (R174, R119). -/
theorem putRun_next {n : Nat} {t : State} (hc : s.cursor < s.tapeLen) (hpc : s.pc < s.prog.length)
    (hn : FitsUnsigned (s.cfg.argW + 1) n) (h : putRun n s = .next t) : t.Inv := by
  rcases putRun_frame h with e | ⟨e, -, hle⟩
  · have h0 : FitsUnsigned (s.cfg.argW + 1) 0 := Nat.two_pow_pos _
    rw [e]
    exact { (hi.setRep h0).advance hc with }
  · rw [e]
    exact { (hi.setRep (hle.trans_lt hn)).setPhase_of_midInstr (p := .exPut) hc (by decide) rfl hpc
      with }

/-- A pointer move: the fault or the move (R135). -/
protected theorem movePointer (hg : s.phase ≠ .grow) : (movePointer s).Inv := by
  rcases movePointer_eq hi.tapeBelow with e | ⟨hlim, e⟩
  · rw [e]
    exact hi.respond (hi.cursorInTape hg) fun _ hl _ => hi.ncur_fits_info hl
  · rw [e]
    exact (hi.moveTo hg hlim).advance (growLen_covers hi.tapeLen_pos (maxGrowth_pos hi.cfgWf))

/-- An illegal word's response (R115, R192). -/
theorem invalidCommand (hc : s.cursor < s.tapeLen) (w : Word) :
    (raiseFault .invalidCommand (codeOf s.cfg w) s).Inv := by
  obtain ⟨-, -, hopc, -⟩ := Config.wf_facts hi.cfgWf
  exact hi.respond hc fun _ _ hw => fitsSigned_natCast hw (codeOf_lt (by omega) w)

/-- The response to a run or a LOAD that succeeded (R113, R102). -/
theorem respondOk (hc : s.cursor < s.tapeLen) : (respond { kind := .ok, info := 0 } s).Inv :=
  hi.respond hc fun _ _ _ => zero_fitsSigned _

protected theorem execChangeValue {d : Int} {t : State} (h : execChangeValue d s = .next t) :
    t.Inv := by
  obtain ⟨-, -, -, -, hcell, -⟩ := Config.wf_facts hi.cfgWf
  obtain ⟨hc, v, rfl⟩ := execChangeValue_next h
  exact (State.Inv.writeCurrent hi (wrap_fits hcell _)).advance (by simpa using hc)

protected theorem resolveBranch {op : Opcode} {off : Int} {t : State}
    (h : resolveBranch op off s = .next t) : t.Inv := by
  obtain ⟨hc, tk, rfl⟩ := resolveBranch_next h
  exact hi.endInstr hc tk off

/-- Every instruction under way keeps the invariant (R32). -/
protected theorem exec {i : Instr} {t : State} (hg : s.phase ≠ .grow) (hpc : s.pc < s.prog.length)
    (hw : i.wellFormed s.cfg = true) (h : exec i s = .next t) : t.Inv := by
  have hc := hi.cursorInTape hg
  have hcount {n : Nat} (hn : n < 2 ^ s.cfg.argW) : FitsUnsigned (s.cfg.argW + 1) n :=
    hn.trans (Nat.pow_lt_pow_right (by norm_num) (Nat.lt_succ_self _))
  cases i with
  | changeValue d => exact hi.execChangeValue h
  | changePointer d =>
    cases h
    exact (hi.setNcur (hi.candidate_fits (of_decide_eq_true hw))).movePointer hg
  | get n =>
    cases h
    exact hi.getRun hc hpc (hcount (of_decide_eq_true hw))
  | put n =>
    have hn := hcount (of_decide_eq_true hw)
    exact (hi.beginPut hn).putRun_next (by simpa using hc) (by simpa using hpc) (by simpa using hn) h
  | branchIfZero off => exact hi.resolveBranch h
  | branchIfNotZero off => exact hi.resolveBranch h

/-- A pass of the loop of R111. -/
protected theorem runInstruction {t : State} (hg : s.phase ≠ .grow)
    (h : runInstruction s = .next t) : t.Inv := by
  have hc := hi.cursorInTape hg
  have hir {w : Word} (hf : fetchWord s = some w) : (setIr w s).Inv :=
    hi.setIr (hi.wordsFit w (List.mem_of_getElem? hf))
  rcases runInstruction_cases s with ⟨-, e⟩ | ⟨w, i, hf, hd, e⟩ | ⟨w, code, hf, hd, e⟩
  · rw [e] at h; cases h
    exact hi.respondOk hc
  · rw [e] at h
    exact (hir hf).exec hg (List.getElem?_eq_some_iff.1 hf).1 (decode_wellFormed hi.cfgWf hd) h
  · rw [e] at h; cases h
    obtain rfl : codeOf s.cfg w = code := decode_invalid hd
    exact (hir hf).invalidCommand hc w

/-! ### The invariant through the transitions of R118 -/

protected theorem acceptCommand {t : State} (hp : s.phase = .idle)
    (h : acceptCommand s = .next t) : t.Inv := by
  have hc := hi.cursorInTape (by simp [hp])
  have ht : (commandTaken s).Inv := hi.setHost _
  rcases acceptCommand_next h with rfl | rfl | ⟨n, hn, rfl⟩ | rfl | rfl
  · exact hi
  · exact ht
  · exact (ht.setStage (es := []) hn (Nat.zero_le n)).setPhase_of_load hc (.inl rfl) ⟨hn, Nat.zero_le n⟩
  · exact ht.setPhase_of_quiet hc (by decide) rfl (by decide)
  · exact ht.setHost _

protected theorem receiveElement (hp : s.phase = .loadRecv) : (receiveElement s).Inv := by
  have hc := hi.cursorInTape (by simp [hp])
  have ht : (elementTaken s).Inv := hi.setHost _
  obtain ⟨hn, hlen⟩ := hi.loadInLimit (.inl hp)
  rcases receiveElement_cases s with e | e | ⟨x, hlt, e⟩ | e <;> rw [e]
  · exact hi
  · exact ht
  · exact ht.setStage hn (by simpa using hlt)
  · exact hi.setPhase_of_load hc (.inr rfl) ⟨hn, hlen⟩

protected theorem commitLoad (hp : s.phase = .loadCommit) : (commitLoad s).Inv := by
  have hc := hi.cursorInTape (by simp [hp])
  obtain ⟨hn, hlen⟩ := hi.loadInLimit (.inr hp)
  obtain ⟨-, -, -, -, -, -, hpc⟩ := Config.wf_facts hi.cfgWf
  rcases commitLoad_cases s with ⟨k, hk, e⟩ | e <;> rw [e]
  · exact hi.respond hc fun _ _ _ => fitsSigned_natCast (pcW_lt_infoW _) (by omega)
  · exact freshLoad_inv (s := respond { kind := .ok, info := 0 } s) hi.cfgWf rfl
      ((stagedWords_length_le _ _).trans (hlen.trans hn)) (stagedWords_fit _ _) hi.irFits hi.repFits
      hi.ncurFits fun _ _ _ => zero_fitsSigned _

protected theorem phaseFetch (hp : s.phase = .fetch) : (phaseFetch s).Inv := by
  have hc := hi.cursorInTape (by simp [hp])
  unfold Machine.phaseFetch
  cases hf : fetchWord s with
  | none => exact hi.respondOk hc
  | some w =>
    exact (hi.setIr (hi.wordsFit w (List.mem_of_getElem? hf))).setPhase_of_midInstr hc (by decide) rfl
      (List.getElem?_eq_some_iff.1 hf).1

protected theorem phaseDecode (hp : s.phase = .decode) : (phaseDecode s).Inv := by
  have hc := hi.cursorInTape (by simp [hp])
  have hpc := hi.pcInProg (by simp [hp, Phase.midInstr])
  obtain ⟨-, -, -, harg, -⟩ := Config.wf_facts hi.cfgWf
  have hn := countArg_fits harg s.ir
  unfold Machine.phaseDecode
  split
  · exact hi.setPhase_of_midInstr hc (by decide) rfl hpc
  · exact (hi.setNcur (hi.candidate_fits (signedArg_fits harg s.ir))).setPhase_of_midInstr hc
      (by decide) rfl hpc
  · exact (hi.setRep hn).setPhase_of_midInstr hc (by decide) rfl hpc
  · exact (hi.beginPut hn).setPhase_of_midInstr (by simpa using hc) (by decide) rfl
      (by simpa using hpc)
  · exact hi.setPhase_of_midInstr hc (by decide) rfl hpc
  · exact hi.setPhase_of_midInstr hc (by decide) rfl hpc
  · exact hi.invalidCommand hc s.ir

protected theorem phaseExCp (hp : s.phase = .exCp) : (phaseExCp s).Inv := by
  rcases phaseExCp_cases s with e | ⟨hlim, e⟩ <;> rw [e]
  · exact hi.movePointer (by simp [hp])
  · exact hi.setPhase_grow (hi.pcInProg (by simp [hp, Phase.midInstr])) hlim

protected theorem phaseGrow (hp : s.phase = .grow) : (phaseGrow s).Inv := by
  unfold Machine.phaseGrow
  split
  · exact hi.growStep hp ‹_›
  · exact hi.advance (Nat.not_le.1 ‹_›)

protected theorem phaseExGet (hp : s.phase = .exGet) : (phaseExGet s).Inv := by
  have hrep := hi.repFits
  unfold Machine.phaseExGet
  split
  · exact hi.advance (hi.cursorInTape (by simp [hp]))
  · rename_i n hn
    rw [hn] at hrep
    exact hi.getIteration ((Nat.lt_succ_self n).trans hrep)

protected theorem phaseExPut {t : State} (hp : s.phase = .exPut) (h : phaseExPut s = .next t) :
    t.Inv := by
  have hrep := hi.repFits
  unfold Machine.phaseExPut at h
  split at h
  · cases h
    exact hi.advance (hi.cursorInTape (by simp [hp]))
  · rename_i n hn
    rw [hn] at hrep
    split at h
    · cases h
    · split at h <;> cases h
      · exact (hi.offered.emit _).setRep ((Nat.lt_succ_self n).trans hrep)
      · exact hi.offered

/-- Every transition of R118's table keeps the invariant (R32). -/
protected theorem phaseStep {t : State} (h : phaseStep s = .next t) : t.Inv := by
  unfold Machine.phaseStep at h
  split at h
  · exact hi.acceptCommand ‹_› h
  · cases h; exact hi.receiveElement ‹_›
  · cases h; exact hi.commitLoad ‹_›
  · cases h; exact hi.phaseFetch ‹_›
  · cases h; exact hi.phaseDecode ‹_›
  · exact hi.execChangeValue h
  · cases h; exact hi.phaseExCp ‹_›
  · cases h; exact hi.phaseGrow ‹_›
  · obtain ⟨hc, tk, off, rfl⟩ := phaseExBr_next h
    exact hi.endInstr hc tk off
  · cases h; exact hi.phaseExGet ‹_›
  · exact hi.phaseExPut ‹_› h

/-- Every architectural step keeps the invariant (R32). -/
protected theorem sequencerStep {t : State} (h : sequencerStep s = .next t) : t.Inv := by
  have held (hg : s.phase ≠ .grow) (hm : s.phase.midInstr = true) :
      s.cursor < s.tapeLen ∧ s.pc < s.prog.length := ⟨hi.cursorInTape hg, hi.pcInProg hm⟩
  rcases sequencerStep_cases s with ⟨hp, e⟩ | ⟨hp, e⟩ | ⟨hp, e⟩ | e <;> rw [e] at h
  · exact hi.runInstruction (by simp [hp]) h
  · cases h
    obtain ⟨hc, hpc⟩ := held (by simp [hp]) (by simp [hp, Phase.midInstr])
    exact hi.getRun hc hpc hi.repFits
  · obtain ⟨hc, hpc⟩ := held (by simp [hp]) (by simp [hp, Phase.midInstr])
    exact hi.putRun_next hc hpc hi.repFits h
  · exact hi.phaseStep h

/-- Reset makes the invariant hold whatever stood in the registers (R220). -/
protected theorem assertReset : (assertReset s).Inv :=
  freshLoad_inv (ws := []) (s := { s with
      phase := .idle, ir := 0, rep := 0, ncur := 0, lastRsp := { kind := .ok, info := 0 }
      ldLen := 0, ldStage := [] })
    hi.cfgWf rfl (Nat.zero_le _) (by simp) (Nat.two_pow_pos _) (Nat.two_pow_pos _)
    (fun _ _ => zero_fitsSigned _) (fun _ _ _ => zero_fitsSigned _)

/-- A machine that keeps the invariant while `rst` is quiet keeps it under `rst` as well. -/
theorem stepUnder_next {next : State → Host.Outcome State Fault Refusal}
    (hnext : ∀ s t : State, s.Inv → next s = .next t → t.Inv) {t : State}
    (h : stepUnder next s = .next t) : t.Inv := by
  have hs : (rstSampled s).Inv := hi.setHost _
  rcases Machine.stepUnder_next h with ⟨-, rfl⟩ | ⟨-, h⟩
  · exact hs.assertReset
  · exact hnext _ t hs h

end State.Inv

/-- Settles O42: reset makes the invariant, and the sequencer keeps it phase by phase. -/
theorem everyStepKeepsTheInvariant : Obligations.EveryStepKeepsTheInvariant :=
  fun _ _ hi h => hi.stepUnder_next (fun _ _ hi h => hi.sequencerStep h) h

/-- Settles O45: the same for each row of R118's table. -/
theorem everyTransitionKeepsTheInvariant : Obligations.EveryTransitionKeepsTheInvariant :=
  fun _ _ hi h => hi.stepUnder_next (fun _ _ hi h => hi.phaseStep h) h

end Sys2Proof.Machine

namespace Sys2Proof.Machine

/-! ### Frames -/

/-- A Get writes the current cell, the input port, the trace, `rep`, `pc` and the phase (R171). -/
theorem getRun_writes (n : Nat) (s : State) :
    ∃ m p tr r pc ph, getRun n s =
      { s with tape := m, inp := p, trace := tr, rep := r, pc := pc, phase := ph } ∧
      ∀ j, j ≠ s.cursor → m.read j = s.tape.read j := by
  rcases getRun_frame n s with e | ⟨e, -⟩ <;>
    exact ⟨_, _, _, _, _, _, e, fun _ hj => read_getRun_ne hj⟩

/-- A Put under way writes the output port, the trace, `rep`, `pc` and the phase (R174). -/
theorem putRun_writes {n : Nat} {s t : State} (h : putRun n s = .next t) :
    ∃ o tr r pc ph, t = { s with out := o, trace := tr, rep := r, pc := pc, phase := ph } := by
  rcases putRun_frame h with e | ⟨e, -⟩ <;> exact ⟨_, _, _, _, _, e⟩

/-- A whole Put also writes the scratch buffer (R174). -/
theorem execPut_writes {n : Nat} {s t : State} (h : execPut n s = .next t) :
    ∃ cap bs o tr r pc ph, t = { s with
      scratchCap := cap, scratch := bs, out := o, trace := tr, rep := r, pc := pc, phase := ph } := by
  obtain ⟨o, tr, r, pc, ph, rfl⟩ := putRun_writes h
  exact ⟨_, _, o, tr, r, pc, ph, by rw [beginPut_frame]⟩

/-- A write of the current cell leaves the others alone (R57). -/
theorem read_writeCurrent_ne {s : State} {j : Nat} {v : Int} (h : j ≠ s.cursor) :
    (writeCurrent v s).tape.read j = s.tape.read j := read_tapeWrite_ne h

/-- Growth keeps every cell of the old tape (R62). -/
theorem read_growLoop_of_lt {fuel i : Nat} {s : State} (h : i < s.tapeLen) :
    (growLoop fuel s).tape.read i = s.tape.read i := by
  induction fuel generalizing s with
  | zero => rfl
  | succ n ih =>
    unfold growLoop
    split
    · rw [ih (s := growStep s) (h.trans_le (Nat.le_add_right _ _)), growStep_tape,
        Memory.read_below, if_pos h]
    · rfl

/-- Settles O32, instruction by instruction. -/
theorem frameOfEveryInstruction : Obligations.FrameOfEveryInstruction := by
  intro i s t hi h
  cases i with
  | changeValue d =>
    obtain ⟨-, v, rfl⟩ := execChangeValue_next h
    have hread (j) (hj : j ≠ s.cursor) := read_writeCurrent_ne (v := cellSum s.cfg v d) hj
    simpa [Instr.opcode] using hread
  | changePointer d =>
    cases h
    rcases movePointer_eq (s := setNcur (candidateCursor s.cursor d) s) hi.tapeBelow
      with e | ⟨-, e⟩ <;> simp [e, Instr.opcode]
  | get n =>
    cases h
    obtain ⟨m, p, tr, r, pc, ph, e, hread⟩ := getRun_writes n s
    simpa [e, Instr.opcode] using hread
  | put n =>
    obtain ⟨cap, bs, o, tr, r, pc, ph, rfl⟩ := execPut_writes h
    simp [Instr.opcode]
  | branchIfZero off =>
    obtain ⟨-, tk, rfl⟩ := resolveBranch_next h
    simp [Instr.opcode]
  | branchIfNotZero off =>
    obtain ⟨-, tk, rfl⟩ := resolveBranch_next h
    simp [Instr.opcode]

/-- Settles O46: the invariant's bounds, and R136's room for every candidate. -/
theorem registersFitTheirWidths : Obligations.RegistersFitTheirWidths := by
  intro s hi
  obtain ⟨-, -, -, -, -, -, hprog⟩ := Config.wf_facts hi.cfgWf
  refine ⟨hi.pcFits, hi.progInLimit.trans_lt hprog, hi.irFits, hi.repFits, fun l hl => ?_⟩
  have hcur := hi.cursor_fits hl
  have hlen : s.tapeLen ≤ 2 ^ s.cfg.curW :=
    (overLimit_eq_false_iff.1 hi.lenInLimit l hl).trans (tapeLimit_bounds hi.cfgWf hl).2
  refine ⟨hlen.trans_lt (Nat.pow_lt_pow_right (by norm_num) (Nat.lt_succ_self _)), hcur,
    hi.ncurFits l hl, hi.infoFits l hl, fun d hd => ?_⟩
  have hcand := fitsSigned_candidate hcur hd
  exact ⟨hcand, fitsSigned_mono (ncurW_le_infoW _) hcand⟩

/-! ### The two stores between loads (R24, R25, R26) -/

/-- The configuration and the Instruction Store are as they were, the tape no shorter, and every old
cell but the current one as it was. -/
structure StoresKept (s t : State) : Prop where
  cfg : t.cfg = s.cfg
  prog : t.prog = s.prog
  len : s.tapeLen ≤ t.tapeLen
  cells : ∀ i, i < s.tapeLen → i ≠ s.cursor → t.tape.read i = s.tape.read i

namespace StoresKept

variable {s : State}

/-- What writes neither store. -/
theorem of_eq {t : State} (hcfg : t.cfg = s.cfg) (hprog : t.prog = s.prog) (htape : t.tape = s.tape)
    (hlen : t.tapeLen = s.tapeLen) : StoresKept s t :=
  ⟨hcfg, hprog, hlen.ge, fun _ _ _ => by rw [htape]⟩

protected theorem getIteration (n : Nat) : StoresKept s (getIteration n s) :=
  ⟨by simp, by simp, by simp, fun _ _ hj => read_getIteration_ne hj⟩

protected theorem getRun (n : Nat) : StoresKept s (getRun n s) := by
  obtain ⟨m, p, tr, r, pc, ph, e, hread⟩ := getRun_writes n s
  rw [e]
  exact ⟨rfl, rfl, Nat.le_refl _, fun j _ hj => hread j hj⟩

protected theorem putRun {n : Nat} {t : State} (h : putRun n s = .next t) : StoresKept s t := by
  obtain ⟨o, tr, r, pc, ph, rfl⟩ := putRun_writes h
  exact of_eq rfl rfl rfl rfl

protected theorem execChangeValue {d : Int} {t : State} (h : execChangeValue d s = .next t) :
    StoresKept s t := by
  obtain ⟨-, v, rfl⟩ := execChangeValue_next h
  exact ⟨writeCurrent_cfg _ _, writeCurrent_prog _ _, (writeCurrent_tapeLen _ _).ge,
    fun _ _ hj => read_writeCurrent_ne hj⟩

protected theorem growStep : StoresKept s (growStep s) :=
  ⟨rfl, rfl, Nat.le_add_right _ _, fun i hlt _ => by
    rw [growStep_tape, Memory.read_below, if_pos hlt]⟩

protected theorem movePointer : StoresKept s (movePointer s) := by
  rcases movePointer_cases s with ⟨-, e⟩ | ⟨-, -, -, e⟩ | ⟨-, -, e⟩ <;> rw [e]
  · exact of_eq rfl rfl rfl rfl
  · exact of_eq rfl rfl rfl rfl
  · have hf := growTape_frame (setCursor s.ncur.toNat s)
    refine ⟨by rw [hf]; rfl, by rw [hf]; rfl, ?_, fun i hlt _ => ?_⟩
    · rw [hf]; exact le_growLen _ _ _
    · exact read_growLoop_of_lt (s := setCursor s.ncur.toNat s) hlt

/-- No instruction writes the Instruction Store or shortens the tape. -/
protected theorem exec {i : Instr} {t : State} (h : exec i s = .next t) : StoresKept s t := by
  cases i with
  | changeValue d => exact .execChangeValue h
  | changePointer d =>
    cases h
    have hk : StoresKept (setNcur (candidateCursor s.cursor d) s) _ := .movePointer
    exact ⟨hk.cfg, hk.prog, hk.len, hk.cells⟩
  | get n => cases h; exact .getRun n
  | put n =>
    obtain ⟨cap, bs, o, tr, r, pc, ph, rfl⟩ := execPut_writes h
    exact of_eq rfl rfl rfl rfl
  | branchIfZero off => obtain ⟨-, tk, rfl⟩ := resolveBranch_next h; exact of_eq rfl rfl rfl rfl
  | branchIfNotZero off => obtain ⟨-, tk, rfl⟩ := resolveBranch_next h; exact of_eq rfl rfl rfl rfl

protected theorem runInstruction {t : State} (h : runInstruction s = .next t) :
    StoresKept s t := by
  rcases runInstruction_cases s with ⟨-, e⟩ | ⟨w, i, -, -, e⟩ | ⟨w, code, -, -, e⟩ <;> rw [e] at h
  · cases h; exact of_eq rfl rfl rfl rfl
  · have hk : StoresKept (setIr w s) t := .exec h
    exact ⟨hk.cfg, hk.prog, hk.len, hk.cells⟩
  · cases h; exact of_eq rfl rfl rfl rfl

protected theorem phaseDecode : StoresKept s (phaseDecode s) := by
  unfold Machine.phaseDecode
  split
  · exact of_eq rfl rfl rfl rfl
  · exact of_eq rfl rfl rfl rfl
  · exact of_eq rfl rfl rfl rfl
  · exact of_eq (beginPut_cfg _ s) (beginPut_prog _ s) (beginPut_tape _ s) (beginPut_tapeLen _ s)
  · exact of_eq rfl rfl rfl rfl
  · exact of_eq rfl rfl rfl rfl
  · exact of_eq rfl rfl rfl rfl

/-- No transition of R118 but the commit of a LOAD writes the Instruction Store or shortens the
tape. -/
protected theorem phaseStep {t : State} (hp : s.phase ≠ .loadCommit) (h : phaseStep s = .next t) :
    StoresKept s t := by
  unfold Machine.phaseStep at h
  split at h
  · rcases acceptCommand_next h with rfl | rfl | ⟨n, -, rfl⟩ | rfl | rfl <;>
      exact of_eq rfl rfl rfl rfl
  · cases h
    rcases receiveElement_cases s with e | e | ⟨x, -, e⟩ | e <;> rw [e] <;>
      exact of_eq rfl rfl rfl rfl
  · exact (hp ‹_›).elim
  · cases h
    unfold phaseFetch
    split <;> exact of_eq rfl rfl rfl rfl
  · cases h; exact .phaseDecode
  · exact .execChangeValue h
  · cases h
    rcases phaseExCp_cases s with e | ⟨-, e⟩ <;> rw [e]
    · exact .movePointer
    · exact of_eq rfl rfl rfl rfl
  · cases h
    unfold phaseGrow
    split
    · exact .growStep
    · exact of_eq rfl rfl rfl rfl
  · obtain ⟨-, tk, off, rfl⟩ := phaseExBr_next h
    exact of_eq rfl rfl rfl rfl
  · cases h
    unfold phaseExGet
    split
    · exact of_eq rfl rfl rfl rfl
    · exact .getIteration _
  · unfold phaseExPut at h
    split at h
    · cases h; exact of_eq rfl rfl rfl rfl
    · split at h
      · cases h
      · split at h <;> cases h <;> exact of_eq rfl rfl rfl rfl

protected theorem sequencerStep {t : State} (hp : s.phase ≠ .loadCommit)
    (h : sequencerStep s = .next t) : StoresKept s t := by
  rcases sequencerStep_cases s with ⟨-, e⟩ | ⟨-, e⟩ | ⟨-, e⟩ | e <;> rw [e] at h
  · exact .runInstruction h
  · cases h; exact .getRun _
  · exact .putRun h
  · exact .phaseStep hp h

/-- Every step between loads, `rst` quiet, keeps the two stores. -/
protected theorem step {t : State} (hr : rstNow s = false) (hp : s.phase ≠ .loadCommit)
    (h : step s = .next t) : StoresKept s t := by
  rw [step_of_running hr] at h
  have hk : StoresKept (rstSampled s) t := .sequencerStep hp h
  exact ⟨hk.cfg, hk.prog, hk.len, hk.cells⟩

end StoresKept

/-- The configuration survives the commit of a LOAD (R28). -/
theorem commitLoad_cfg (s : State) : (commitLoad s).cfg = s.cfg := by
  rcases commitLoad_cases s with ⟨k, -, e⟩ | e <;> rw [e] <;> rfl

/-- No step writes the configuration (R28). -/
theorem step_cfg {s t : State} (h : step s = .next t) : t.cfg = s.cfg := by
  by_cases hr : rstNow s = true
  · rw [step_of_rst hr] at h; cases h; rfl
  · have hr := eq_false_of_ne_true hr
    by_cases hp : s.phase = .loadCommit
    · have e : phaseStep (rstSampled s) = .next (commitLoad (rstSampled s)) := by
        simp only [phaseStep, show (rstSampled s).phase = .loadCommit from hp]
      rw [step_of_running hr, sequencerStep_of_quiet (s := rstSampled s) (congrArg _ hp)
        (by simp [rstSampled, hp]), e] at h
      cases h
      exact commitLoad_cfg _
    · exact (StoresKept.step hr hp h).cfg

/-- Settles O47: `step_cfg`, and the Instruction Store as `StoresKept` has it. -/
theorem onlyLoadAndResetWriteTheProgram : Obligations.OnlyLoadAndResetWriteTheProgram :=
  fun _ _ h => ⟨step_cfg h, fun hr hp => (StoresKept.step hr hp h).prog⟩

/-- Settles O48: the tape as `StoresKept` has it, read through the arbiter. -/
theorem tapeOnlyGrowsBetweenLoads : Obligations.TapeOnlyGrowsBetweenLoads := by
  intro s t h hr hp
  have hk := StoresKept.step hr hp h
  refine ⟨hk.len, fun i hlt hne => ?_⟩
  rw [tapeRead_of_lt hlt, tapeRead_of_lt (hlt.trans_le hk.len), hk.cells i hlt hne]

/-- Settles O1: each row of R35's table, and the commit of no element. -/
theorem resetStateHasTheTableValues : Obligations.ResetStateHasTheTableValues :=
  ⟨rfl, rfl, fun _ hi => tapeRead_of_lt hi, rfl, rfl, rfl, rfl, rfl, rfl,
    ⟨rfl, rfl, rfl, rfl, rfl, rfl, rfl, rfl⟩⟩

end Sys2Proof.Machine

namespace Sys2Proof.Machine

/-! ### One pass of each loop -/

theorem growLoop_of_le {fuel : Nat} {s : State} (h : s.tapeLen ≤ s.cursor) :
    growLoop (fuel + 1) s = growLoop fuel (growStep s) := if_pos h

theorem growLoop_of_lt {fuel : Nat} {s : State} (h : s.cursor < s.tapeLen) :
    growLoop fuel s = s := by
  cases fuel with
  | zero => rfl
  | succ n => exact if_neg (Nat.not_le.2 h)

theorem phaseGrow_of_le {s : State} (h : s.tapeLen ≤ s.cursor) : phaseGrow s = growStep s := if_pos h

theorem phaseGrow_of_lt {s : State} (h : s.cursor < s.tapeLen) : phaseGrow s = advance s :=
  if_neg (Nat.not_le.2 h)

theorem putRun_of_blocked {n : Nat} {s : State} (h : readCurrent s = none) :
    putRun (n + 1) s = .fault .tapeAccessBlocked := by
  simp only [putRun, h]

theorem putRun_of_ready {n : Nat} {s : State} {v : Int} (hv : readCurrent s = some v)
    (h : outReady s = true) : putRun (n + 1) s = putRun n (sendByte n v s) := by
  simp [putRun, hv, h]

theorem putRun_of_stall {n : Nat} {s : State} {v : Int} (hv : readCurrent s = some v)
    (h : outReady s = false) :
    putRun (n + 1) s = .next (setPhase .exPut (setRep (n + 1) (offered s))) := by
  simp [putRun, hv, h]

/-! ### Registers forgotten (R27, R30, R31) -/

theorem onNext_onNext (f g : State → State) (x : Host.Outcome State Fault Refusal) :
    onNext f (onNext g x) = onNext (f ∘ g) x := by
  cases x <;> rfl

theorem onNext_congr {f g : State → State} {x : Host.Outcome State Fault Refusal}
    (h : ∀ t, x = .next t → f t = g t) : onNext f x = onNext g x := by
  cases x with
  | next t => exact congrArg _ (h t rfl)
  | fault r => rfl
  | refused r => rfl

/-- `z` where `b`, else `x`: a register blanked or kept. -/
def blank {α : Type} (b : Bool) (z x : α) : α := bif b then z else x

@[simp] theorem blank_true {α : Type} (z x : α) : blank true z x = z := rfl

@[simp] theorem blank_false {α : Type} (z x : α) : blank false z x = x := rfl

@[simp] theorem blank_blank {α : Type} (b : Bool) (z x : α) :
    blank b z (blank b z x) = blank b z x := by
  cases b <;> rfl

/-- A choice among the registers that some rule says nothing reads: the scratch buffer (R27),
`last_rsp` (R31), and the working registers (R30). -/
structure Hidden where
  scratch : Bool
  rsp : Bool
  ir : Bool
  rep : Bool
  ncur : Bool

namespace Hidden

/-- The chosen registers set to the values that `forgetScratch`, `forgetLastRsp` and `forgetDead`
give them, the others kept. -/
def forget (k : Hidden) (s : State) : State :=
  { s with
    scratchCap := blank k.scratch 0 s.scratchCap
    scratch := blank k.scratch [] s.scratch
    lastRsp := blank k.rsp { kind := .ok, info := 0 } s.lastRsp
    ir := blank k.ir 0 s.ir
    rep := blank k.rep 0 s.rep
    ncur := blank k.ncur 0 s.ncur }

variable (k : Hidden) (s : State)

@[simp] theorem forget_cfg : (k.forget s).cfg = s.cfg := rfl
@[simp] theorem forget_cursor : (k.forget s).cursor = s.cursor := rfl
@[simp] theorem forget_tapeLen : (k.forget s).tapeLen = s.tapeLen := rfl
@[simp] theorem forget_ldStage : (k.forget s).ldStage = s.ldStage := rfl
@[simp] theorem forget_phase : (k.forget s).phase = s.phase := rfl
@[simp] theorem forget_host : (k.forget s).host = s.host := rfl
@[simp] theorem forget_readCurrent : readCurrent (k.forget s) = readCurrent s := rfl
@[simp] theorem forget_inPoll : inPoll (k.forget s) = inPoll s := rfl
@[simp] theorem forget_fetchWord : fetchWord (k.forget s) = fetchWord s := rfl

@[simp] theorem forget_forget : k.forget (k.forget s) = k.forget s := by
  simp [forget]

/-! What neither reads nor writes a register of the choice commutes with `forget`; what writes one
agrees once it is forgotten again. -/

theorem setRep_forget (hr : k.rep = false) (n : Nat) :
    setRep n (k.forget s) = k.forget (setRep n s) := by
  simp [setRep, forget, hr]

theorem writeCurrent_forget (v : Int) :
    writeCurrent v (k.forget s) = k.forget (writeCurrent v s) := by
  by_cases h : s.cursor < s.tapeLen
  · rw [writeCurrent_of_lt h, writeCurrent_of_lt (s := k.forget s) h]
    rfl
  · have hle := Nat.not_lt.1 h
    exact (tapeWrite_of_ge (s := k.forget s) hle).trans (congrArg k.forget (tapeWrite_of_ge hle)).symm

theorem respond_forget (r : Response) :
    k.forget (respond r (k.forget s)) = k.forget (respond r s) := by
  simp [forget, respond]

theorem growLoop_forget (fuel : Nat) :
    growLoop fuel (k.forget s) = k.forget (growLoop fuel s) := by
  induction fuel generalizing s with
  | zero => rfl
  | succ n ih =>
    by_cases h : s.tapeLen ≤ s.cursor
    · rw [growLoop_of_le h, growLoop_of_le (s := k.forget s) h]
      exact ih (growStep s)
    · have hlt := Nat.not_le.1 h
      rw [growLoop_of_lt hlt, growLoop_of_lt (s := k.forget s) hlt]

theorem getIteration_forget (hr : k.rep = false) (n : Nat) :
    getIteration n (k.forget s) = k.forget (getIteration n s) := by
  simp only [getIteration, forget_inPoll, forget_cfg]
  split
  · rfl
  · rw [← writeCurrent_forget, ← setRep_forget _ _ hr]
    rfl

theorem getRun_forget (hr : k.rep = false) (n : Nat) :
    getRun n (k.forget s) = k.forget (getRun n s) := by
  induction n generalizing s with
  | zero => exact congrArg advance (setRep_forget k s hr 0)
  | succ n ih =>
    dsimp only [getRun, forget_inPoll]
    split
    · exact congrArg (setPhase .exGet) (setRep_forget k (polled s) hr (n + 1))
    · rw [getIteration_forget k s hr, ih]
    · rw [getIteration_forget k s hr, ih]

theorem sendByte_forget (hr : k.rep = false) (n : Nat) (v : Int) :
    sendByte n v (k.forget s) = k.forget (sendByte n v s) :=
  setRep_forget k (emit [.outByte (byteOfCell v) (decide (n = 0))] (offered s)) hr n

theorem putRun_forget (hr : k.rep = false) (n : Nat) :
    putRun n (k.forget s) = onNext k.forget (putRun n s) := by
  induction n generalizing s with
  | zero => exact congrArg (Host.Outcome.next ∘ advance) (setRep_forget k s hr 0)
  | succ n ih =>
    cases hv : readCurrent s with
    | none => rw [putRun_of_blocked hv, putRun_of_blocked (s := k.forget s) hv]; rfl
    | some v =>
      cases ho : outReady s with
      | true =>
        rw [putRun_of_ready hv ho, putRun_of_ready (s := k.forget s) hv ho, sendByte_forget k s hr,
          ih]
      | false =>
        rw [putRun_of_stall hv ho, putRun_of_stall (s := k.forget s) hv ho]
        exact congrArg (Host.Outcome.next ∘ setPhase .exPut)
          (setRep_forget k (offered s) hr (n + 1))

theorem setScratch_forget (hs : k.scratch = false) (cap : Nat) (bs : List Byte) :
    setScratch cap bs (k.forget s) = k.forget (setScratch cap bs s) := by
  simp [setScratch, forget, hs]

theorem growScratch_forget (hs : k.scratch = false) (n : Nat) :
    growScratch n (k.forget s) = k.forget (growScratch n s) := by
  have hcap : (k.forget s).scratchCap = s.scratchCap := by simp [forget, hs]
  by_cases h : s.scratchCap < n
  · simp only [growScratch, hcap, h, if_true, setScratch_forget k s hs]
  · simp only [growScratch, hcap, h, if_false]

theorem fillScratch_forget (hs : k.scratch = false) (n : Nat) (b : Byte) :
    fillScratch n b (k.forget s) = k.forget (fillScratch n b s) := by
  simp [fillScratch, setScratch, forget, hs]

theorem beginPut_forget (hr : k.rep = false) (n : Nat) :
    k.forget (beginPut n (k.forget s)) = k.forget (beginPut n s) := by
  cases hs : k.scratch with
  | true =>
    rw [beginPut_frame n s, beginPut_frame n (k.forget s)]
    simp [forget, hs]
  | false =>
    have he (es : List PortEvent) : emit es (growScratch n (setRep n (k.forget s))) =
        k.forget (emit es (growScratch n (setRep n s))) := by
      rw [setRep_forget k s hr, growScratch_forget k _ hs]
      rfl
    simp only [beginPut, he, forget_readCurrent]
    split
    · exact forget_forget k _
    · rw [fillScratch_forget k _ hs]
      exact forget_forget k _

theorem movePointer_forget (hn : k.ncur = false) :
    k.forget (movePointer (k.forget s)) = k.forget (movePointer s) := by
  have hncur : (k.forget s).ncur = s.ncur := by simp [forget, hn]
  simp only [movePointer, hncur, forget_cfg, forget_tapeLen]
  split
  · exact respond_forget k s _
  · exact respond_forget k s _
  · exact forget_forget k (advance (setCursor s.ncur.toNat s))
  · have hg : growTape (k.forget (setCursor s.ncur.toNat s)) =
        k.forget (growTape (setCursor s.ncur.toNat s)) := growLoop_forget k _ _
    have hc : setCursor s.ncur.toNat (k.forget s) = k.forget (setCursor s.ncur.toNat s) := rfl
    rw [hc, hg]
    exact forget_forget k (advance (growTape (setCursor s.ncur.toNat s)))

end Hidden

end Sys2Proof.Machine

namespace Sys2Proof.Machine

namespace Hidden

variable (k : Hidden) (s : State)

theorem onNext_forget_forget (x : Host.Outcome State Fault Refusal) :
    onNext k.forget (onNext k.forget x) = onNext k.forget x := by
  rw [onNext_onNext]
  exact onNext_congr fun t _ => forget_forget k t

/-- What commutes with `forget` agrees once it is forgotten again. -/
theorem forget_of_eq {x y : Host.Outcome State Fault Refusal} (h : x = onNext k.forget y) :
    onNext k.forget x = onNext k.forget y := by
  rw [h, onNext_forget_forget]

/-! ### The instructions -/

theorem execChangeValue_forget (d : Int) :
    execChangeValue d (k.forget s) = onNext k.forget (execChangeValue d s) := by
  simp only [execChangeValue, forget_readCurrent, forget_cfg]
  split
  · rfl
  · rw [writeCurrent_forget]
    rfl

theorem resolveBranch_forget (op : Opcode) (off : Int) :
    resolveBranch op off (k.forget s) = onNext k.forget (resolveBranch op off s) := by
  simp only [resolveBranch, forget_readCurrent]
  split <;> rfl

/-- ChangePointer writes `ncur` before it reads it (R136), so `ncur` may be forgotten too. -/
theorem execChangePointer_forget (d : Int) :
    onNext k.forget (execChangePointer d (k.forget s)) =
      onNext k.forget (execChangePointer d s) := by
  have hk (t : State) : k.forget (forget { k with ncur := false } t) = k.forget t := by
    simp [forget]
  have hm := movePointer_forget { k with ncur := false }
    (setNcur (candidateCursor s.cursor d) s) rfl
  have hf := congrArg k.forget hm
  rw [hk, hk] at hf
  exact congrArg Host.Outcome.next hf

theorem execPut_forget (hr : k.rep = false) (n : Nat) :
    onNext k.forget (execPut n (k.forget s)) = onNext k.forget (execPut n s) := by
  simp only [execPut, ← putRun_forget k _ hr, beginPut_forget k s hr]

/-- No instruction reads a hidden register; `rep` is read on the way only by Get and Put. -/
theorem exec_forget {i : Instr} (hr : i.opcode = .get ∨ i.opcode = .put → k.rep = false) :
    onNext k.forget (exec i (k.forget s)) = onNext k.forget (exec i s) := by
  cases i with
  | changeValue d => exact forget_of_eq k (execChangeValue_forget k s d)
  | changePointer d => exact execChangePointer_forget k s d
  | get n =>
    exact forget_of_eq k (congrArg Host.Outcome.next (getRun_forget k s (hr (.inl rfl)) n))
  | put n => exact execPut_forget k s (hr (.inr rfl)) n
  | branchIfZero off => exact forget_of_eq k (resolveBranch_forget k s _ off)
  | branchIfNotZero off => exact forget_of_eq k (resolveBranch_forget k s _ off)

/-! ### The host commands -/

theorem acceptCommand_forget :
    acceptCommand (k.forget s) = onNext k.forget (acceptCommand s) := by
  simp only [acceptCommand, forget_host]
  split
  · rfl
  · rfl
  · rename_i n _ _
    by_cases h : s.cfg.progLimit < n
    · rw [if_pos h, if_pos (c := (k.forget s).cfg.progLimit < n) h]; rfl
    · rw [if_neg h, if_neg (c := (k.forget s).cfg.progLimit < n) h]; rfl
  · rfl
  · rfl
  · rfl

theorem receiveElement_forget : receiveElement (k.forget s) = k.forget (receiveElement s) := by
  by_cases h : s.ldStage.length < s.ldLen
  · have none_case (hj : s.host.elems.head?.join = none) :
        receiveElement (k.forget s) = k.forget (receiveElement s) := by
      rw [receiveElement_of_none h hj, receiveElement_of_none (s := k.forget s) h hj]
      rfl
    rcases he : s.host.elems with _ | ⟨_ | e, es⟩
    · exact none_case (by simp [he])
    · exact none_case (by simp [he])
    · rw [receiveElement_of_some h he, receiveElement_of_some (s := k.forget s) h he]
      rfl
  · have hle := Nat.not_lt.1 h
    rw [receiveElement_of_all hle, receiveElement_of_all (s := k.forget s) hle]
    rfl

theorem commitLoad_forget : k.forget (commitLoad (k.forget s)) = k.forget (commitLoad s) := by
  simp only [commitLoad, forget_ldStage, forget_cfg]
  split
  · exact respond_forget k s _
  · simp [forget, respond, freshLoad]

theorem assertReset_forget : k.forget (assertReset (k.forget s)) = k.forget (assertReset s) := by
  simp [forget, assertReset, freshLoad]

end Hidden

end Sys2Proof.Machine

namespace Sys2Proof.Machine

namespace Hidden

/-! ### No step reads the scratch buffer or `last_rsp` (R27, R31) -/

/-- The two registers that no step reads: each forgotten or kept. -/
def silent (scratch rsp : Bool) : Hidden :=
  { scratch := scratch, rsp := rsp, ir := false, rep := false, ncur := false }

section Silent

variable (a b : Bool) (s : State)

theorem silent_exec (i : Instr) :
    onNext (silent a b).forget (exec i ((silent a b).forget s)) =
      onNext (silent a b).forget (exec i s) :=
  exec_forget _ s fun _ => rfl

theorem silent_runInstruction :
    onNext (silent a b).forget (runInstruction ((silent a b).forget s)) =
      onNext (silent a b).forget (runInstruction s) := by
  simp only [runInstruction, forget_fetchWord]
  split
  · exact congrArg Host.Outcome.next (respond_forget _ s _)
  · rename_i w _
    simp only [runWord, forget_cfg]
    split
    · exact silent_exec a b (setIr w s) _
    · exact congrArg Host.Outcome.next (respond_forget _ (setIr w s) _)

theorem silent_phaseFetch :
    (silent a b).forget (phaseFetch ((silent a b).forget s)) =
      (silent a b).forget (phaseFetch s) := by
  simp only [phaseFetch, forget_fetchWord]
  split
  · exact respond_forget _ s _
  · rename_i w _
    exact forget_forget (silent a b) (setPhase .decode (setIr w s))

theorem silent_phaseDecode :
    (silent a b).forget (phaseDecode ((silent a b).forget s)) =
      (silent a b).forget (phaseDecode s) := by
  have hir : ((silent a b).forget s).ir = s.ir := rfl
  simp only [phaseDecode, forget_cfg, forget_cursor, hir]
  split
  · exact forget_forget _ (setPhase .exCv s)
  · exact forget_forget (silent a b)
      (setPhase .exCp (setNcur (candidateCursor s.cursor (signedArg s.cfg s.ir)) s))
  · exact forget_forget (silent a b) (setPhase .exGet (setRep (countArg s.cfg s.ir) s))
  · exact congrArg (setPhase .exPut) (beginPut_forget _ s rfl _)
  · exact forget_forget _ (setPhase .exBr s)
  · exact forget_forget _ (setPhase .exBr s)
  · exact respond_forget _ s _

theorem silent_phaseExCp :
    (silent a b).forget (phaseExCp ((silent a b).forget s)) =
      (silent a b).forget (phaseExCp s) := by
  have hncur : ((silent a b).forget s).ncur = s.ncur := rfl
  simp only [phaseExCp, forget_cfg, forget_tapeLen, hncur]
  split
  · exact respond_forget _ s _
  · exact respond_forget _ s _
  · exact forget_forget _ (advance (setCursor _ s))
  · exact forget_forget _ (setPhase .grow (setCursor _ s))

theorem silent_phaseGrow :
    phaseGrow ((silent a b).forget s) = (silent a b).forget (phaseGrow s) := by
  by_cases h : s.tapeLen ≤ s.cursor
  · rw [phaseGrow_of_le h, phaseGrow_of_le (s := (silent a b).forget s) h]
    rfl
  · have hlt := Nat.not_le.1 h
    rw [phaseGrow_of_lt hlt, phaseGrow_of_lt (s := (silent a b).forget s) hlt]
    rfl

theorem silent_phaseExBr :
    phaseExBr ((silent a b).forget s) = onNext (silent a b).forget (phaseExBr s) := by
  have hir : ((silent a b).forget s).ir = s.ir := rfl
  simp only [phaseExBr, forget_readCurrent, forget_cfg, hir]
  split
  · rfl
  · split <;> rfl

theorem silent_phaseExGet :
    phaseExGet ((silent a b).forget s) = (silent a b).forget (phaseExGet s) := by
  have hrep : ((silent a b).forget s).rep = s.rep := rfl
  simp only [phaseExGet, hrep]
  split
  · rfl
  · exact getIteration_forget _ s rfl _

theorem silent_phaseExPut :
    phaseExPut ((silent a b).forget s) = onNext (silent a b).forget (phaseExPut s) := by
  have hrep : ((silent a b).forget s).rep = s.rep := rfl
  simp only [phaseExPut, forget_readCurrent, hrep]
  split
  · rfl
  · split
    · rfl
    · by_cases ho : outReady s = true
      · rw [if_pos ho, if_pos (c := outReady ((silent a b).forget s) = true) ho]
        rfl
      · rw [if_neg ho, if_neg (c := outReady ((silent a b).forget s) = true) ho]
        rfl

theorem silent_phaseStep :
    onNext (silent a b).forget (phaseStep ((silent a b).forget s)) =
      onNext (silent a b).forget (phaseStep s) := by
  have hir : ((silent a b).forget s).ir = s.ir := rfl
  simp only [phaseStep, forget_phase, forget_cfg, hir]
  split
  · exact forget_of_eq _ (acceptCommand_forget _ s)
  · exact forget_of_eq _ (congrArg Host.Outcome.next (receiveElement_forget _ s))
  · exact congrArg Host.Outcome.next (commitLoad_forget _ s)
  · exact congrArg Host.Outcome.next (silent_phaseFetch a b s)
  · exact congrArg Host.Outcome.next (silent_phaseDecode a b s)
  · exact forget_of_eq _ (execChangeValue_forget _ s _)
  · exact congrArg Host.Outcome.next (silent_phaseExCp a b s)
  · exact forget_of_eq _ (congrArg Host.Outcome.next (silent_phaseGrow a b s))
  · exact forget_of_eq _ (silent_phaseExBr a b s)
  · exact forget_of_eq _ (congrArg Host.Outcome.next (silent_phaseExGet a b s))
  · exact forget_of_eq _ (silent_phaseExPut a b s)

theorem silent_sequencerStep :
    onNext (silent a b).forget (sequencerStep ((silent a b).forget s)) =
      onNext (silent a b).forget (sequencerStep s) := by
  have hrep : ((silent a b).forget s).rep = s.rep := rfl
  simp only [sequencerStep, forget_phase, hrep]
  split
  · exact silent_runInstruction a b s
  · exact forget_of_eq _ (congrArg Host.Outcome.next (getRun_forget _ s rfl _))
  · exact forget_of_eq _ (putRun_forget _ s rfl _)
  all_goals exact silent_phaseStep a b s

theorem silent_step :
    onNext (silent a b).forget (step ((silent a b).forget s)) =
      onNext (silent a b).forget (step s) := by
  cases hr : rstNow s with
  | true =>
    rw [step_of_rst hr, step_of_rst (s := (silent a b).forget s) hr]
    exact congrArg Host.Outcome.next (assertReset_forget _ (rstSampled s))
  | false =>
    rw [step_of_running hr, step_of_running (s := (silent a b).forget s) hr]
    exact silent_sequencerStep a b (rstSampled s)

/-- States that differ in silent registers only step to outcomes that do. -/
theorem silent_step_congr {t : State} (h : (silent a b).forget s = (silent a b).forget t) :
    onNext (silent a b).forget (step s) = onNext (silent a b).forget (step t) := by
  rw [← silent_step a b s, h, silent_step]

end Silent

end Hidden

/-- Settles O50: the scratch buffer and `last_rsp` are silent. -/
theorem scratchAndLastResponseAreNeverRead : Obligations.ScratchAndLastResponseAreNeverRead :=
  ⟨fun s _ _ => Hidden.silent_step_congr true false _ (t := s) rfl,
    fun s _ => Hidden.silent_step_congr false true _ (t := s) rfl⟩

end Sys2Proof.Machine

namespace Sys2Proof.Machine

/-! ### The working registers between instructions (R30) -/

/-- Where an instruction's step can stand: at the next fetch, quiescent after a fault, or held
(R119). -/
theorem exec_phase {i : Instr} {s t : State} (h : exec i s = .next t) :
    t.phase = .fetch ∨ t.phase = .idle ∨
      ((i.opcode = .get ∨ i.opcode = .put) ∧ (t.phase = .exGet ∨ t.phase = .exPut)) := by
  cases i with
  | changeValue d => obtain ⟨-, v, rfl⟩ := execChangeValue_next h; exact .inl rfl
  | changePointer d =>
    cases h
    rcases movePointer_cases (setNcur (candidateCursor s.cursor d) s) with
      ⟨-, e⟩ | ⟨-, -, -, e⟩ | ⟨-, -, e⟩ <;> rw [e]
    · exact .inr (.inl rfl)
    · exact .inl rfl
    · exact .inl rfl
  | get n =>
    cases h
    rcases getRun_frame n s with e | ⟨e, -⟩ <;> rw [e]
    · exact .inl rfl
    · exact .inr (.inr ⟨.inl rfl, .inl rfl⟩)
  | put n =>
    rcases putRun_frame h with e | ⟨e, -⟩ <;> rw [e]
    · exact .inl rfl
    · exact .inr (.inr ⟨.inr rfl, .inr rfl⟩)
  | branchIfZero off => obtain ⟨-, tk, rfl⟩ := resolveBranch_next h; exact .inl rfl
  | branchIfNotZero off => obtain ⟨-, tk, rfl⟩ := resolveBranch_next h; exact .inl rfl

/-- Only a held Get or Put leaves an instruction under way. -/
theorem exec_quiet_or_held {i : Instr} {s t : State} (h : exec i s = .next t) :
    t.phase.midInstr = false ∨
      ((i.opcode = .get ∨ i.opcode = .put) ∧ (t.phase = .exGet ∨ t.phase = .exPut)) := by
  rcases exec_phase h with hp | hp | hp
  · exact .inl (by rw [hp]; rfl)
  · exact .inl (by rw [hp]; rfl)
  · exact .inr hp

/-- Get and Put set `rep` before they read it (R171, R174). -/
theorem exec_setRep {i : Instr} (h : i.opcode = .get ∨ i.opcode = .put) (r : Nat) (s : State) :
    exec i (setRep r s) = exec i s := by
  cases i with
  | get n => exact congrArg Host.Outcome.next (getRun_setPhase_setRep n s.phase r s)
  | put n => rfl
  | _ => rcases h with h | h <;> cases h

/-- A host command leaves no instruction under way. -/
theorem phaseStep_quiet {s t : State} (hm : s.phase.midInstr = false) (hf : s.phase ≠ .fetch)
    (h : phaseStep s = .next t) : t.phase.midInstr = false := by
  unfold phaseStep at h
  split at h
  case h_1 =>
    rcases acceptCommand_next h with rfl | rfl | ⟨n, -, rfl⟩ | rfl | rfl
    · exact hm
    · exact hm
    · rfl
    · rfl
    · exact hm
  case h_2 =>
    cases h
    rcases receiveElement_cases s with e | e | ⟨x, -, e⟩ | e <;> rw [e]
    · exact hm
    · exact hm
    · exact hm
    · rfl
  case h_3 =>
    cases h
    rcases commitLoad_cases s with ⟨k, -, e⟩ | e <;> rw [e] <;> rfl
  case h_4 => exact (hf ‹_›).elim
  all_goals (rename_i hp; rw [hp] at hm; cases hm)

namespace Hidden

/-- All the working registers, dead where no instruction is under way. -/
def working : Hidden := { scratch := false, rsp := false, ir := true, rep := true, ncur := true }

/-- Those an instruction writes before it reads them, once it is fetched. -/
def unread : Hidden := { scratch := false, rsp := false, ir := false, rep := true, ncur := true }

/-- The one that is dead in a hold. -/
def candidate : Hidden := { scratch := false, rsp := false, ir := false, rep := false, ncur := true }

variable (s : State)

theorem working_candidate : working.forget (candidate.forget s) = working.forget s := rfl

theorem forgetDead_of_quiet {s : State} (h : s.phase.midInstr = false) :
    forgetDead s = working.forget s := by
  unfold forgetDead
  cases hp : s.phase <;> rw [hp] at h
  case idle | loadRecv | loadCommit | fetch => rfl
  all_goals cases h

/-- `ncur` is among what `forgetDead` forgets, between instructions and in a hold. -/
theorem forgetDead_candidate {s : State}
    (h : s.phase.midInstr = false ∨ s.phase = .exGet ∨ s.phase = .exPut) :
    forgetDead (candidate.forget s) = forgetDead s := by
  rcases h with h | h | h
  · rw [forgetDead_of_quiet h, forgetDead_of_quiet (s := candidate.forget s) h, working_candidate]
  · simp only [forgetDead, forget_phase, h]; rfl
  · simp only [forgetDead, forget_phase, h]; rfl

/-- Two outcomes that leave no instruction under way agree in all but the dead registers when they
agree in all but the working registers. -/
theorem onNext_forgetDead_of_quiet {x y : Host.Outcome State Fault Refusal}
    (hx : ∀ t, x = .next t → t.phase.midInstr = false)
    (hy : ∀ t, y = .next t → t.phase.midInstr = false)
    (h : onNext working.forget x = onNext working.forget y) :
    onNext forgetDead x = onNext forgetDead y := by
  rw [onNext_congr fun t ht => forgetDead_of_quiet (hx t ht), h,
    onNext_congr fun t ht => forgetDead_of_quiet (hy t ht)]

/-- An instruction does not depend on `rep` and `ncur` (R30). -/
theorem exec_unread (i : Instr) :
    onNext forgetDead (exec i (unread.forget s)) = onNext forgetDead (exec i s) := by
  by_cases hio : i.opcode = .get ∨ i.opcode = .put
  · have hrep : exec i (unread.forget s) = exec i (candidate.forget s) :=
      exec_setRep hio 0 (candidate.forget s)
    have hncur (u : State) : onNext forgetDead (exec i u) =
        onNext forgetDead (onNext candidate.forget (exec i u)) := by
      rw [onNext_onNext]
      exact onNext_congr fun t ht =>
        (forgetDead_candidate ((exec_quiet_or_held ht).imp_right And.right)).symm
    rw [hrep, hncur, exec_forget candidate s fun _ => rfl, ← hncur]
  · have quiet (u t : State) (ht : exec i u = .next t) : t.phase.midInstr = false :=
      (exec_quiet_or_held ht).resolve_right fun h => hio h.1
    have hk := congrArg (onNext working.forget) (exec_forget unread s fun h => (hio h).elim)
    rw [onNext_onNext, onNext_onNext] at hk
    exact onNext_forgetDead_of_quiet (quiet _) (quiet _) hk

/-- A pass of the loop of R111 does not depend on the working registers. -/
theorem working_runInstruction :
    onNext forgetDead (runInstruction (working.forget s)) = onNext forgetDead (runInstruction s) := by
  simp only [runInstruction, forget_fetchWord]
  split
  · rfl
  · rename_i w _
    simp only [runWord, forget_cfg]
    split
    · exact exec_unread (setIr w s) _
    · rfl

/-- Nor does a host command. -/
theorem working_phaseStep (hm : s.phase.midInstr = false) (hf : s.phase ≠ .fetch) :
    onNext forgetDead (phaseStep (working.forget s)) = onNext forgetDead (phaseStep s) := by
  refine onNext_forgetDead_of_quiet (fun _ => phaseStep_quiet (s := working.forget s) hm hf)
    (fun _ => phaseStep_quiet hm hf) ?_
  cases hp : s.phase <;> simp only [phaseStep, forget_phase, hp]
  case idle => exact forget_of_eq _ (acceptCommand_forget _ s)
  case loadRecv => exact forget_of_eq _ (congrArg Host.Outcome.next (receiveElement_forget _ s))
  case loadCommit => exact congrArg Host.Outcome.next (commitLoad_forget _ s)
  case fetch => exact (hf hp).elim
  all_goals (rw [hp] at hm; cases hm)

theorem working_step (hm : s.phase.midInstr = false) :
    onNext forgetDead (step (working.forget s)) = onNext forgetDead (step s) := by
  cases hr : rstNow s with
  | true =>
    rw [step_of_rst hr, step_of_rst (s := working.forget s) hr]
    rfl
  | false =>
    rw [step_of_running hr, step_of_running (s := working.forget s) hr]
    by_cases hf : s.phase = .fetch
    · rw [sequencerStep_of_fetch (s := rstSampled s) hf,
        sequencerStep_of_fetch (s := rstSampled (working.forget s)) hf]
      exact working_runInstruction (rstSampled s)
    · rw [sequencerStep_of_quiet (s := rstSampled s) hm hf,
        sequencerStep_of_quiet (s := rstSampled (working.forget s)) hm hf]
      exact working_phaseStep (rstSampled s) hm hf

end Hidden

/-- Settles O51: the step is that of the state with the working registers forgotten. -/
theorem workingRegistersAreDeadBetweenInstructions :
    Obligations.WorkingRegistersAreDeadBetweenInstructions := by
  intro s w n x hm
  have h := Hidden.working_step (setIr w (setRep n (setNcur x s))) hm
  exact h.symm.trans (Hidden.working_step s hm)

end Sys2Proof.Machine

namespace Sys2Proof.Machine

/-! ### The bounds-check arbiter (R58) -/

theorem overLimit_eq_true_iff {c : Config} {len : Nat} :
    overLimit c len = true ↔ ∃ l, c.tapeLimit = some l ∧ l < len := by
  unfold overLimit
  cases c.tapeLimit <;> simp

theorem boundsCheck_of_neg {c : Config} {x : Int} {len : Nat} (h : x < 0) :
    boundsCheck c x len = .negative := if_pos h

theorem boundsCheck_of_overLimit {c : Config} {x : Int} {len : Nat} (h : 0 ≤ x)
    (hlim : overLimit c (growLen c.maxGrowth len x.toNat) = true) :
    boundsCheck c x len = .overLimit := by
  rw [boundsCheck, if_neg (by omega), if_pos hlim]

theorem boundsCheck_of_lt {c : Config} {x : Int} {len : Nat} (h : 0 ≤ x)
    (hlim : overLimit c (growLen c.maxGrowth len x.toNat) = false) (hlt : x < len) :
    boundsCheck c x len = .inside := by
  rw [boundsCheck, if_neg (by omega), if_neg (by simp [hlim]), if_pos hlt]

theorem boundsCheck_of_ge {c : Config} {x : Int} {len : Nat}
    (hlim : overLimit c (growLen c.maxGrowth len x.toNat) = false) (hge : (len : Int) ≤ x) :
    boundsCheck c x len = .grow := by
  rw [boundsCheck, if_neg (by omega), if_neg (by simp [hlim]), if_neg (by omega)]

/-- Settles O18: the rule's tests in order, each with the verdict it gives. -/
theorem arbiterVerdicts : Obligations.ArbiterVerdicts := by
  intro c x len
  simp only [← overLimit_eq_true_iff, ← overLimit_eq_false_iff]
  by_cases h0 : x < 0
  · have hlen : ¬ (len : Int) ≤ x := by omega
    rw [boundsCheck_of_neg h0]
    simp [h0, hlen, Int.not_le.2 h0]
  have h0 : 0 ≤ x := Int.not_lt.1 h0
  cases hlim : overLimit c (growLen c.maxGrowth len x.toNat) with
  | true =>
    rw [boundsCheck_of_overLimit h0 hlim]
    simp [h0]
  | false =>
    by_cases hlt : x < len
    · rw [boundsCheck_of_lt h0 hlim hlt]
      simp [h0, hlt]
    · rw [boundsCheck_of_ge hlim (Int.not_lt.1 hlt)]
      simp [h0, hlt, Int.not_lt.1 hlt]

/-! ### The growth loop (R60, R61, R62) -/

/-- The loop of R61 ends with a member of the growth sequence, and no earlier member exceeds its
index. -/
theorem growLenLoop_eq_iterate (mg fuel len c : Nat) :
    ∃ k, growLenLoop mg fuel len c = (grownLen mg)^[k] len ∧
      ∀ j, j < k → (grownLen mg)^[j] len ≤ c := by
  induction fuel generalizing len with
  | zero => exact ⟨0, rfl, fun _ hj => (Nat.not_lt_zero _ hj).elim⟩
  | succ n ih =>
    by_cases h : len ≤ c
    · obtain ⟨k, hk, hle⟩ := ih (grownLen mg len)
      refine ⟨k + 1, (growLenLoop_of_le h).trans hk, fun j hj => ?_⟩
      cases j with
      | zero => exact h
      | succ j => exact hle j (Nat.lt_of_succ_lt_succ hj)
    · exact ⟨0, growLenLoop_of_lt (Nat.not_le.1 h), fun _ hj => (Nat.not_lt_zero _ hj).elim⟩

theorem grownLen_of_le {mg len : Nat} (h : len ≤ mg) : grownLen mg len = 2 * len := by
  rw [grownLen, Nat.min_eq_left h, Nat.two_mul]

theorem grownLen_of_ge {mg len : Nat} (h : mg ≤ len) : grownLen mg len = len + mg := by
  rw [grownLen, Nat.min_eq_right h]

/-- Settles O19: the loop walks the growth sequence, and `growLen_covers` says that it gets past its
index. -/
theorem growLenIsTheLoopsResult : Obligations.GrowLenIsTheLoopsResult := by
  refine ⟨fun mg len c hl hm => ?_, fun mg len => ⟨grownLen_of_le, grownLen_of_ge⟩, by decide⟩
  obtain ⟨k, hk, hle⟩ := growLenLoop_eq_iterate mg (c + 1) len c
  exact ⟨k, hk, (growLen_covers hl hm).trans_eq hk, hle⟩

theorem read_growStep_of_lt {s : State} {i : Nat} (h : i < s.tapeLen) :
    (growStep s).tape.read i = s.tape.read i := by
  rw [growStep_tape, Memory.read_below, if_pos h]

theorem read_growStep_of_ge {s : State} {i : Nat} (h : s.tapeLen ≤ i) :
    (growStep s).tape.read i = 0 := by
  rw [growStep_tape, Memory.read_below, if_neg (Nat.not_lt.2 h)]

/-- Settles O20: the tape is cut at its old length. -/
theorem growthStepZeroFills : Obligations.GrowthStepZeroFills :=
  fun _ => ⟨rfl, fun _ => read_growStep_of_lt, fun _ => read_growStep_of_ge⟩

/-- Every cell the growth loop adds reads 0 (R62 (b)): the step that adds it makes it so, and the
later steps keep it. -/
theorem read_growLoop_of_ge {fuel i : Nat} {s : State} (hge : s.tapeLen ≤ i)
    (hlt : i < (growLoop fuel s).tapeLen) : (growLoop fuel s).tape.read i = 0 := by
  induction fuel generalizing s with
  | zero => exact (Nat.not_lt.2 hge hlt).elim
  | succ n ih =>
    by_cases hc : s.tapeLen ≤ s.cursor
    · rw [growLoop_of_le hc] at hlt ⊢
      by_cases hi : i < (growStep s).tapeLen
      · rw [read_growLoop_of_lt hi, read_growStep_of_ge hge]
      · exact ih (Nat.not_lt.1 hi) hlt
    · rw [growLoop_of_lt (Nat.not_le.1 hc)] at hlt
      exact (Nat.not_lt.2 hge hlt).elim

theorem growTape_tapeLen (s : State) :
    (growTape s).tapeLen = growLen s.cfg.maxGrowth s.tapeLen s.cursor := by
  rw [growTape_frame]

/-- Growth to exactly the length is one step (R62 (d)). -/
theorem growLen_self {mg len : Nat} (hl : 1 ≤ len) (hm : 1 ≤ mg) :
    growLen mg len len = grownLen mg len := by
  rw [← growLen_grownLen hl hm (Nat.le_refl _)]
  exact growLen_of_lt (by unfold grownLen; omega)

/-- Settles O21: the length is `GrowLen`, and each cell is an old one or one the loop added. -/
theorem growthKeepsCellsAndCovers : Obligations.GrowthKeepsCellsAndCovers := by
  intro s hl hm
  have hlen := growTape_tapeLen s
  refine ⟨hlen ▸ le_growLen _ _ _, fun i => read_growLoop_of_lt, fun i hge hlt => ?_,
    hlen ▸ growLen_covers hl hm, fun hcap ht hcur => ?_⟩
  · rw [tapeRead_of_lt hlt]
    exact congrArg some (read_growLoop_of_ge hge hlt)
  · rw [hlen, hcur, ← ht, growLen_self hl hm, grownLen_of_le (ht ▸ hcap)]

/-! ### Reads after writes (R56, R57) -/

theorem read_tapeWrite_same {s : State} {i : Nat} {v : Int} (hw : s.tape.wf = true)
    (h : i < s.tapeLen) : (tapeWrite i v s).tape.read i = v := by
  rw [tapeWrite_of_lt h]
  exact Memory.read_write_same hw

theorem tapeRead_tapeWrite_same {s : State} {i : Nat} {v : Int} (hw : s.tape.wf = true)
    (h : i < s.tapeLen) : tapeRead (tapeWrite i v s) i = some v := by
  rw [tapeRead_of_lt (by rwa [tapeWrite_tapeLen]), read_tapeWrite_same hw h]

theorem tapeRead_tapeWrite_ne {s : State} {i j : Nat} {v : Int} (h : j ≠ i) :
    tapeRead (tapeWrite i v s) j = tapeRead s j := by
  simp only [tapeRead, tapeWrite_tapeLen, read_tapeWrite_ne h]

/-- Settles O31: the rules of the arbiter's reads and writes, inside the tape and outside. -/
theorem tapeReadAfterTapeWrite : Obligations.TapeReadAfterTapeWrite :=
  fun _ _ _ hw =>
    ⟨fun hi => ⟨tapeRead_of_lt hi, tapeRead_tapeWrite_same hw hi, tapeWrite_wf hw,
      fun _ => tapeRead_tapeWrite_ne⟩, fun hi => ⟨tapeRead_of_ge hi, tapeWrite_of_ge hi⟩⟩

/-! ### The current cell blocked (R56) -/

section Blocked

variable {s : State}

theorem readCurrent_of_ge (h : s.tapeLen ≤ s.cursor) : readCurrent s = none := tapeRead_of_ge h

theorem writeCurrent_of_ge {v : Int} (h : s.tapeLen ≤ s.cursor) : writeCurrent v s = s :=
  tapeWrite_of_ge h

theorem execChangeValue_of_blocked {d : Int} (h : readCurrent s = none) :
    execChangeValue d s = .fault .tapeAccessBlocked := by
  simp only [execChangeValue, h]

theorem resolveBranch_of_blocked {op : Opcode} {off : Int} (h : readCurrent s = none) :
    resolveBranch op off s = .fault .tapeAccessBlocked := by
  simp only [resolveBranch, h]

theorem getIteration_tape_of_ge {n : Nat} (h : s.tapeLen ≤ s.cursor) :
    (getIteration n s).tape = s.tape := by
  unfold getIteration
  split
  · rfl
  · rw [writeCurrent_of_ge (by simpa using h)]
    rfl

/-- A Get whose writes are blocked goes on and leaves the tape alone (R56, log entry 11). -/
theorem getRun_tape_of_ge {n : Nat} (h : s.tapeLen ≤ s.cursor) : (getRun n s).tape = s.tape := by
  induction n generalizing s with
  | zero => rfl
  | succ n ih =>
    have go : (getRun n (getIteration n s)).tape = s.tape :=
      (ih (by simpa using h)).trans (getIteration_tape_of_ge h)
    unfold getRun
    split
    · rfl
    · exact go
    · exact go

end Blocked

/-- Settles O33: the readers meet the blocked read, the writes of Get do nothing. -/
theorem blockedCurrentCellStops : Obligations.BlockedCurrentCellStops := by
  intro s h
  have hr : readCurrent s = none := readCurrent_of_ge h
  have hput (n : Nat) : readCurrent (beginPut n s) = none := readCurrent_of_ge (by simpa using h)
  exact ⟨fun _ => execChangeValue_of_blocked hr, fun _ => resolveBranch_of_blocked hr,
    fun _ => resolveBranch_of_blocked hr, fun n => putRun_of_blocked (hput (n + 1)),
    ⟨_, rfl, rfl⟩, fun _ => ⟨_, rfl, getRun_tape_of_ge h⟩⟩

/-! ### No fault with the cursor inside the tape (R56) -/

section NoFault

variable {s : State} (f : Fault)

theorem execChangeValue_ne_fault (d : Int) (h : s.cursor < s.tapeLen) :
    execChangeValue d s ≠ .fault f := by
  simp [execChangeValue, readCurrent_of_lt h]

theorem resolveBranch_ne_fault (op : Opcode) (off : Int) (h : s.cursor < s.tapeLen) :
    resolveBranch op off s ≠ .fault f := by
  simp [resolveBranch, readCurrent_of_lt h]

theorem putRun_ne_fault (n : Nat) (h : s.cursor < s.tapeLen) : putRun n s ≠ .fault f := by
  obtain ⟨t, e⟩ := putRun_next (n := n) h
  simp [e]

theorem exec_ne_fault (i : Instr) (h : s.cursor < s.tapeLen) : exec i s ≠ .fault f := by
  cases i with
  | changeValue d => exact execChangeValue_ne_fault f d h
  | changePointer d => exact nofun
  | get n => exact nofun
  | put n => exact putRun_ne_fault f n (by simpa using h)
  | branchIfZero off => exact resolveBranch_ne_fault f _ off h
  | branchIfNotZero off => exact resolveBranch_ne_fault f _ off h

theorem runInstruction_ne_fault (h : s.cursor < s.tapeLen) : runInstruction s ≠ .fault f := by
  rcases runInstruction_cases s with ⟨-, e⟩ | ⟨w, i, -, -, e⟩ | ⟨w, code, -, -, e⟩ <;> rw [e]
  · exact nofun
  · exact exec_ne_fault f i h
  · exact nofun

theorem acceptCommand_ne_fault : acceptCommand s ≠ .fault f := by
  unfold acceptCommand
  split
  · exact nofun
  · exact nofun
  · split <;> exact nofun
  · exact nofun
  · exact nofun
  · exact nofun

theorem phaseExBr_ne_fault (h : s.cursor < s.tapeLen) : phaseExBr s ≠ .fault f := by
  rw [phaseExBr, readCurrent_of_lt h]
  dsimp only
  split <;> exact nofun

theorem phaseExPut_ne_fault (h : s.cursor < s.tapeLen) : phaseExPut s ≠ .fault f := by
  rw [phaseExPut, readCurrent_of_lt h]
  dsimp only
  split
  · exact nofun
  · split <;> exact nofun

/-- The readers of the current cell run in phases other than `GROW`. -/
theorem phaseStep_ne_fault (h : s.phase ≠ .grow → s.cursor < s.tapeLen) :
    phaseStep s ≠ .fault f := by
  unfold phaseStep
  cases hp : s.phase with
  | idle => exact acceptCommand_ne_fault f
  | exCv => exact execChangeValue_ne_fault f _ (h (by simp [hp]))
  | exBr => exact phaseExBr_ne_fault f (h (by simp [hp]))
  | exPut => exact phaseExPut_ne_fault f (h (by simp [hp]))
  | loadRecv | loadCommit | fetch | decode | exCp | grow | exGet => exact nofun

theorem sequencerStep_ne_fault (h : s.phase ≠ .grow → s.cursor < s.tapeLen) :
    sequencerStep s ≠ .fault f := by
  rcases sequencerStep_cases s with ⟨hp, e⟩ | ⟨-, e⟩ | ⟨hp, e⟩ | e <;> rw [e]
  · exact runInstruction_ne_fault f (h (by simp [hp]))
  · exact nofun
  · exact putRun_ne_fault f _ (h (by simp [hp]))
  · exact phaseStep_ne_fault f h

end NoFault

/-- Settles O43: `State.Inv` keeps the cursor inside the tape in every phase that reads the cell. -/
theorem noStepFaultsUnderTheInvariant : Obligations.NoStepFaultsUnderTheInvariant := by
  intro s f hi
  cases hr : rstNow s with
  | true => rw [step_of_rst hr]; exact nofun
  | false =>
    rw [step_of_running hr]
    exact sequencerStep_ne_fault (s := rstSampled s) f hi.cursorInTape

end Sys2Proof.Machine

namespace Sys2Proof

/-! ### Decoder and encoder -/

/-- Rebuilding an instruction from its opcode and the pattern of its argument (R81, R86). -/
theorem Opcode.apply_patternOf_argument {c : Config} (ha : 1 ≤ c.argW) {i : Instr}
    (hi : i.wellFormed c = true) : i.opcode.apply c (patternOf c.argW i.argument) = i := by
  cases i <;> rw [Instr.wellFormed, decide_eq_true_eq] at hi
  case get | put =>
    exact congrArg _ (patternOf_of_fits hi)
  case changeValue | changePointer | branchIfZero | branchIfNotZero =>
    exact congrArg _ (signedOf_patternOf ha hi)

@[simp] theorem Opcode.opcode_apply (c : Config) (op : Opcode) (a : Nat) :
    (op.apply c a).opcode = op := by
  cases op <;> rfl

/-- The argument an opcode reads has the argument bits as its pattern (R81). -/
theorem Opcode.patternOf_argument_apply {c : Config} (op : Opcode) {a : Nat}
    (ha : FitsUnsigned c.argW a) : patternOf c.argW (op.apply c a).argument = a := by
  cases op
  case get | put => exact patternOf_of_fits ha
  case changeValue | changePointer | branchIfZero | branchIfNotZero => exact patternOf_signedOf ha

theorem decode_eq_instr_iff {c : Config} {w : Word} {i : Instr} :
    decode c w = .instr i ↔ ∃ op : Opcode, codeOf c w = op.code ∧ op.apply c (argOf c w) = i := by
  constructor
  · intro h
    unfold decode at h
    split at h <;> cases h
    exact ⟨_, Opcode.ofCode_eq_some ‹_›, rfl⟩
  · rintro ⟨op, hcode, rfl⟩
    rw [decode, hcode, Opcode.ofCode_code]

theorem decode_eq_invalid_iff {c : Config} {w : Word} {code : Nat} :
    decode c w = .invalid code ↔ codeOf c w = code ∧ 6 ≤ code := by
  constructor
  · intro h
    unfold decode at h
    split at h <;> cases h
    exact ⟨rfl, (Opcode.ofCode_eq_none_iff _).1 ‹_›⟩
  · rintro ⟨rfl, h6⟩
    rw [decode, (Opcode.ofCode_eq_none_iff _).2 h6]

/-- Settles O6: the two fields of the encoded word hold the opcode's code and the argument's
pattern, and those two rebuild the instruction. -/
theorem decodeOfEncodeIsTheInstruction : Obligations.DecodeOfEncodeIsTheInstruction := by
  intro c i hc hi
  obtain ⟨-, -, -, harg, -⟩ := Machine.Config.wf_facts hc
  obtain ⟨-, hcode, hpat⟩ := Laws.WordShape.of_fields i c hc
  refine decode_eq_instr_iff.2 ⟨i.opcode, hcode, ?_⟩
  rw [hpat, Opcode.apply_patternOf_argument harg hi]

/-- Settles O7: the instruction has the word's two fields as its code and its argument's pattern, and
a word is the join of its fields. -/
theorem encodeOfDecodeIsTheWord : Obligations.EncodeOfDecodeIsTheWord := by
  intro c w i hc hw hd
  refine ⟨?_, Machine.decode_wellFormed hc hd⟩
  obtain ⟨-, -, hopc, harg, -⟩ := Machine.Config.wf_facts hc
  obtain ⟨op, hcode, rfl⟩ := decode_eq_instr_iff.1 hd
  have hfits : FitsUnsigned c.argW (argOf c w) := by
    rw [argOf_eq harg]; exact Nat.mod_lt _ (Nat.two_pow_pos _)
  rw [encode, Opcode.opcode_apply, Opcode.patternOf_argument_apply op hfits, ← hcode,
    joinWord_fields (by omega) harg hw]

/-- Settles O8: the code of the joined word is the code given, and the opcode map ends at 5. -/
theorem illegalWordsAreThoseWithCodeSixOrMore :
    Obligations.IllegalWordsAreThoseWithCodeSixOrMore := by
  intro c code arg hc hlt
  obtain ⟨-, -, hopc, -⟩ := Machine.Config.wf_facts hc
  have hcode : codeOf c (joinWord c code arg) = code := by
    rw [codeOf_joinWord (by omega), Nat.mod_eq_of_lt hlt]
  constructor
  · simp [decode_eq_invalid_iff, hcode]
  · intro h6
    cases hd : decode c (joinWord c code arg) with
    | instr i =>
      obtain ⟨op, hop, rfl⟩ := decode_eq_instr_iff.1 hd
      exact ⟨_, rfl, by rw [Opcode.opcode_apply, ← hop, hcode]⟩
    | invalid n =>
      obtain ⟨hn, hge⟩ := decode_eq_invalid_iff.1 hd
      omega

/-- Settles O5: each instruction's word is computed and decodes by the round trip (O6); the illegal
pair decodes by its code (O8). -/
theorem workedWordsEncodeAndDecode : Obligations.WorkedWordsEncodeAndDecode := by
  have hdef : Config.defaults.wf = true := by decide
  have h99 : joinWord Config.defaults 99 0 = 0x6300000000 := by decide
  refine ⟨fun p hp => ?_, h99, ?_⟩
  · obtain ⟨he, hwf⟩ :
        encode Config.defaults p.1 = p.2 ∧ p.1.wellFormed Config.defaults = true := by
      revert p; decide
    exact ⟨he, he ▸ decodeOfEncodeIsTheInstruction _ _ hdef hwf⟩
  · rw [← h99]
    exact (illegalWordsAreThoseWithCodeSixOrMore _ 99 0 hdef (by decide)).1.2 (by decide)

end Sys2Proof

namespace Sys2Proof.Machine

/-! ### Runs of several steps -/

/-- The first step of a run. -/
theorem runSteps_succ {k : Nat} {s t : State} (h : step s = .next t) :
    runSteps (k + 1) s = runSteps k t := by
  simp only [runSteps, iterate, h]

/-- A run goes on from where a shorter one ended. -/
theorem runSteps_add {j k : Nat} {s t : State} (h : runSteps j s = .next t) :
    runSteps (j + k) s = runSteps k t := by
  unfold runSteps at h ⊢
  rw [iterate_add, h]

/-! ### A step in the phases of the host commands -/

theorem step_of_idle {s : State} (hp : s.phase = .idle) (hr : rstNow s = false) :
    step s = acceptCommand (rstSampled s) := by
  rw [step_of_running hr]
  simp only [sequencerStep, phaseStep, rstSampled, setHost_phase, hp]

theorem step_of_loadRecv {s : State} (hp : s.phase = .loadRecv) (hr : rstNow s = false) :
    step s = .next (receiveElement (rstSampled s)) := by
  rw [step_of_running hr]
  simp only [sequencerStep, phaseStep, rstSampled, setHost_phase, hp]

theorem step_of_loadCommit {s : State} (hp : s.phase = .loadCommit) (hr : rstNow s = false) :
    step s = .next (commitLoad (rstSampled s)) := by
  rw [step_of_running hr]
  simp only [sequencerStep, phaseStep, rstSampled, setHost_phase, hp]

/-- A LOAD within `PROG_LIMIT` is accepted (R101, R104). -/
theorem acceptCommand_load {s : State} {n : Nat} {cs : List (Option Command)}
    (hc : s.host.cmds = some (.load n) :: cs) (hn : n ≤ s.cfg.progLimit) :
    acceptCommand s = .next (setPhase .loadRecv (setStage n [] (commandTaken s))) := by
  simp only [acceptCommand, hc, if_neg (Nat.not_lt.2 hn)]

/-- The refusals of `IDLE`: R101's `cmd_op = 3` and R106's LOAD above `PROG_LIMIT`. -/
theorem acceptCommand_eq_refused_iff {s : State} {r : Refusal} :
    acceptCommand s = .refused r ↔
      (r = .commandCodeThree ∧ s.host.cmds.head? = some (some .opThree)) ∨
      (r = .programTooLong ∧
        ∃ n, s.host.cmds.head? = some (some (.load n)) ∧ s.cfg.progLimit < n) := by
  rcases h : s.host.cmds with _ | ⟨_ | c, cs⟩
  · simp [acceptCommand, h]
  · simp [acceptCommand, h]
  · cases c with
    | load n => by_cases hn : s.cfg.progLimit < n <;> simp [acceptCommand, h, hn, eq_comm]
    | execute => simp [acceptCommand, h]
    | inspect => simp [acceptCommand, h]
    | opThree => simp [acceptCommand, h, eq_comm]

/-! ### The elements of a LOAD as the commit reads them (R102, R105) -/

/-- The first malformed element is where the library's search for one ends. -/
theorem firstMalformed_eq_idxOf? (es : List LoadElem) :
    firstMalformed es = es.idxOf? .malformed := by
  induction es with
  | nil => rfl
  | cons e es ih =>
    cases e with
    | malformed => rfl
    | pair code arg => simp [firstMalformed, List.idxOf?_cons, ih]

theorem firstMalformed_eq_none {es : List LoadElem} (h : .malformed ∉ es) :
    firstMalformed es = none := by
  rw [firstMalformed_eq_idxOf?]
  exact List.idxOf?_eq_none_iff.2 h

theorem firstMalformed_eq_some {es : List LoadElem} {k : Nat} (hk : es[k]? = some .malformed)
    (hfirst : ∀ j, j < k → es[j]? ≠ some .malformed) : firstMalformed es = some k := by
  obtain ⟨hlt, hget⟩ := List.getElem?_eq_some_iff.1 hk
  rw [firstMalformed_eq_idxOf?, List.idxOf?_eq_some_iff]
  exact ⟨hlt, hget, fun j hj e => hfirst j hj (List.getElem?_eq_some_iff.2 ⟨hj.trans hlt, e⟩)⟩

/-- With no malformed element there is one word an element, `{code, arg}`, in their order (R102). -/
theorem stagedWords_forall₂ (c : Config) {es : List LoadElem} (h : .malformed ∉ es) :
    List.Forall₂ (fun e w => ∀ code arg, e = .pair code arg → w = joinWord c code arg)
      es (stagedWords c es) := by
  induction es with
  | nil => exact .nil
  | cons e es ih =>
    cases e with
    | malformed => simp at h
    | pair code arg =>
      refine .cons ?_ (ih (List.not_mem_of_not_mem_cons h))
      rintro _ _ ⟨⟩
      rfl

theorem stagedWords_length (c : Config) {es : List LoadElem} (h : .malformed ∉ es) :
    (stagedWords c es).length = es.length :=
  (stagedWords_forall₂ c h).length_eq.symm

theorem stagedWords_getElem? (c : Config) {es : List LoadElem} (h : .malformed ∉ es)
    {i code arg : Nat} (hi : es[i]? = some (.pair code arg)) :
    (stagedWords c es)[i]? = some (joinWord c code arg) := by
  obtain ⟨hlt, hget⟩ := List.getElem?_eq_some_iff.1 hi
  have hlt' : i < (stagedWords c es).length := by rwa [stagedWords_length c h]
  rw [List.getElem?_eq_getElem hlt']
  exact congrArg some ((stagedWords_forall₂ c h).get hlt hlt' code arg hget)

/-- The commit of R102. -/
theorem commitLoad_of_wellFormed {s : State} (h : .malformed ∉ s.ldStage) :
    commitLoad s =
      respond { kind := .ok, info := 0 } (freshLoad (stagedWords s.cfg s.ldStage) s) := by
  rw [commitLoad, firstMalformed_eq_none h]

/-- The failure of R105. -/
theorem commitLoad_of_malformed {s : State} {k : Nat} (hk : s.ldStage[k]? = some .malformed)
    (hfirst : ∀ j, j < k → s.ldStage[j]? ≠ some .malformed) :
    commitLoad s = raiseFault .invalidProgram k s := by
  rw [commitLoad, firstMalformed_eq_some hk hfirst]

/-! ### LOAD_RECV and LOAD_COMMIT -/

/-- Settles O54: an element taken, or only the host's wires moved on. -/
theorem loadHoldsForTheHost : Obligations.LoadHoldsForTheHost := by
  intro s hp hr hlt
  rw [step_of_loadRecv hp hr]
  constructor
  · intro hnone
    rw [receiveElement_of_none (s := rstSampled s) hlt hnone]
    rfl
  · intro e es he
    rw [receiveElement_of_some (s := rstSampled s) hlt he]
    simp [elementTaken, rstSampled, setHost, setStage, he]

/-- Settles O56: the two branches of the commit. -/
theorem loadCommitIsAtomic : Obligations.LoadCommitIsAtomic := by
  intro s hp hr
  rw [step_of_loadCommit hp hr]
  constructor
  · intro hwf
    rw [commitLoad_of_wellFormed (s := rstSampled s) hwf]
    exact ⟨_, rfl, stagedWords_length s.cfg hwf, fun _ _ _ hi => stagedWords_getElem? s.cfg hwf hi,
      rfl, fun _ hj => tapeRead_of_lt hj, rfl, rfl, rfl, rfl, rfl, rfl, rfl, rfl, rfl, rfl⟩
  · intro k hk hfirst
    rw [commitLoad_of_malformed (s := rstSampled s) hk hfirst]
    exact ⟨_, rfl, ⟨rfl, rfl, rfl, rfl, rfl, rfl, rfl, rfl⟩, ⟨rfl, rfl, rfl⟩, rfl, rfl, rfl⟩

/-! ### Whole LOADs -/

/-- A look of LOAD_RECV with elements still to come, `rst` quiet: what it finds presented, if
anything, is received (R104, R119). -/
theorem step_of_look {s : State} {x : Option LoadElem} {rest : List (Option LoadElem)}
    (hp : s.phase = .loadRecv) (hrst : s.host.rst = []) (hx : s.host.elems = x :: rest)
    (hlt : s.ldStage.length < s.ldLen) :
    step s = .next { s with
      ldStage := s.ldStage ++ x.toList, host := { s.host with elems := rest } } := by
  obtain ⟨hhold, htake⟩ := loadHoldsForTheHost s hp (rstNow_of_nil hrst) hlt
  cases x with
  | none => rw [hhold (by simp [hx])]; simp [hrst, hx]
  | some e => rw [htake e rest hx]; simp [hrst]

theorem reduceOption_cons {α : Type} (x : Option α) (p : List (Option α)) :
    (x :: p).reduceOption = x.toList ++ p.reduceOption := by
  cases x <;> simp

/-- Settles O55, by induction on the looks before the last, each as `step_of_look` has it. -/
theorem hostPausesDoNotChangeALoad : Obligations.HostPausesDoNotChangeALoad := by
  intro s p
  induction p generalizing s with
  | nil =>
    intro rest e hp hrst he hlt
    exact (runSteps_succ (step_of_look hp hrst he hlt)).trans (by simp [runSteps, iterate])
  | cons x p ih =>
    intro rest e hp hrst he hlt
    rw [reduceOption_cons, List.length_append] at hlt
    have hrest := ih { s with
      ldStage := s.ldStage ++ x.toList, host := { s.host with elems := p ++ some e :: rest } }
      rest e hp hrst rfl (by simpa [Nat.add_assoc] using hlt)
    rw [List.length_cons, runSteps_succ (step_of_look hp hrst he (by omega))]
    refine hrest.trans ?_
    simp only [reduceOption_cons, List.append_assoc]

/-- From an empty staging store, elements presented without a pause are all received (R104). -/
theorem runSteps_receive {s : State} {es : List LoadElem} {rest : List (Option LoadElem)}
    (hp : s.phase = .loadRecv) (hrst : s.host.rst = []) (he : s.host.elems = es.map some ++ rest)
    (hlen : s.ldLen = es.length) (hnil : s.ldStage = []) :
    runSteps es.length s = .next { s with
      ldStage := es, host := { s.host with elems := rest } } := by
  rcases es.eq_nil_or_concat' with rfl | ⟨p, e, rfl⟩
  · subst he; rw [List.length_nil, ← hnil]; rfl
  · have hred : (p.map some).reduceOption = p := by simp [List.reduceOption]
    have h := hostPausesDoNotChangeALoad s (p.map some) rest e hp hrst (by simpa using he)
      (by simp [hred, hlen, hnil])
    simpa [hred, hnil] using h

/-- With all elements received, one step goes on to LOAD_COMMIT and one commits (R104). -/
theorem runSteps_commit {s : State} (hp : s.phase = .loadRecv) (hrst : s.host.rst = [])
    (hall : s.ldLen ≤ s.ldStage.length) :
    runSteps 2 s = .next (commitLoad (setPhase .loadCommit s)) := by
  have hgo : step s = .next (setPhase .loadCommit s) := by
    rw [step_of_loadRecv hp (rstNow_of_nil hrst), rstSampled_of_nil hrst,
      receiveElement_of_all hall]
  have hcommit : step (setPhase .loadCommit s) = .next (commitLoad (setPhase .loadCommit s)) := by
    rw [step_of_loadCommit (s := setPhase .loadCommit s) rfl (rstNow_of_nil hrst),
      rstSampled_of_nil (s := setPhase .loadCommit s) hrst]
  exact (runSteps_succ hgo).trans (runSteps_succ hcommit)

/-- A LOAD up to its commit: one step accepts it, one for each element receives it, one goes on to
LOAD_COMMIT, one commits (R104, log entry 7). -/
theorem runSteps_load {s : State} {es : List LoadElem} {rest : List (Option LoadElem)}
    {cs : List (Option Command)} (hp : s.phase = .idle) (hrst : s.host.rst = [])
    (hc : s.host.cmds = some (.load es.length) :: cs) (he : s.host.elems = es.map some ++ rest)
    (hn : es.length ≤ s.cfg.progLimit) :
    runSteps (es.length + 3) s = .next (commitLoad { s with
      phase := .loadCommit, ldLen := es.length, ldStage := es
      host := { s.host with cmds := cs, elems := rest } }) := by
  have haccept : step s = .next { s with
      phase := .loadRecv, ldLen := es.length, ldStage := []
      host := { s.host with cmds := cs } } := by
    rw [step_of_idle hp (rstNow_of_nil hrst), rstSampled_of_nil hrst, acceptCommand_load hc hn]
    simp [commandTaken, setPhase, setStage, setHost, hc]
  have hreceive := runSteps_receive (s := { s with
    phase := .loadRecv, ldLen := es.length, ldStage := [], host := { s.host with cmds := cs } })
    rfl hrst he rfl rfl
  calc runSteps (es.length + 3) s
      = runSteps (es.length + 2) _ := runSteps_succ haccept
    _ = runSteps 2 _ := runSteps_add hreceive
    _ = _ := runSteps_commit rfl hrst (Nat.le_refl _)

/-- Settles O37: the LOAD runs to the commit of R102. -/
theorem loadCommitsAWellFormedSequence : Obligations.LoadCommitsAWellFormedSequence := by
  intro s es rest cs hp hrst hc he hn hwf
  refine ⟨?_, stagedWords_length s.cfg hwf, fun _ _ _ hi => stagedWords_getElem? s.cfg hwf hi⟩
  rw [runSteps_load hp hrst hc he hn, commitLoad_of_wellFormed hwf]
  simp [respond, freshLoad, hp]

/-- Settles O38: the LOAD runs to the failure of R105. -/
theorem loadRejectsAMalformedElement : Obligations.LoadRejectsAMalformedElement := by
  intro s es rest cs k hp hrst hc he hn hk hfirst
  rw [runSteps_load hp hrst hc he hn, commitLoad_of_malformed hk hfirst, raiseFault_eq]
  simp [hp]

end Sys2Proof.Machine

namespace Sys2Proof.Machine

/-! ### Refusals (R101, R106) -/

section NoRefusal

variable (s : State) (r : Refusal)

theorem execChangeValue_ne_refused (d : Int) : execChangeValue d s ≠ .refused r := by
  unfold execChangeValue
  split <;> exact nofun

theorem resolveBranch_ne_refused (op : Opcode) (off : Int) :
    resolveBranch op off s ≠ .refused r := by
  unfold resolveBranch
  split <;> exact nofun

theorem putRun_ne_refused (n : Nat) : putRun n s ≠ .refused r := by
  induction n generalizing s with
  | zero => exact nofun
  | succ n ih =>
    unfold putRun
    split
    · exact nofun
    · split
      · exact ih _
      · exact nofun

theorem exec_ne_refused (i : Instr) : exec i s ≠ .refused r := by
  cases i with
  | changeValue d => exact execChangeValue_ne_refused s r d
  | changePointer d => exact nofun
  | get n => exact nofun
  | put n => exact putRun_ne_refused _ r n
  | branchIfZero off => exact resolveBranch_ne_refused s r _ off
  | branchIfNotZero off => exact resolveBranch_ne_refused s r _ off

theorem runInstruction_ne_refused : runInstruction s ≠ .refused r := by
  rcases runInstruction_cases s with ⟨-, e⟩ | ⟨w, i, -, -, e⟩ | ⟨w, code, -, -, e⟩ <;> rw [e]
  · exact nofun
  · exact exec_ne_refused _ r i
  · exact nofun

theorem phaseExBr_ne_refused : phaseExBr s ≠ .refused r := by
  unfold phaseExBr
  split
  · exact nofun
  · split <;> exact nofun

theorem phaseExPut_ne_refused : phaseExPut s ≠ .refused r := by
  unfold phaseExPut
  split
  · exact nofun
  · split
    · exact nofun
    · split <;> exact nofun

theorem phaseStep_ne_refused (hp : s.phase ≠ .idle) : phaseStep s ≠ .refused r := by
  unfold phaseStep
  cases hs : s.phase with
  | idle => exact (hp hs).elim
  | exCv => exact execChangeValue_ne_refused s r _
  | exBr => exact phaseExBr_ne_refused s r
  | exPut => exact phaseExPut_ne_refused s r
  | loadRecv | loadCommit | fetch | decode | exCp | grow | exGet => exact nofun

theorem sequencerStep_ne_refused (hp : s.phase ≠ .idle) : sequencerStep s ≠ .refused r := by
  rcases sequencerStep_cases s with ⟨-, e⟩ | ⟨-, e⟩ | ⟨-, e⟩ | e <;> rw [e]
  · exact runInstruction_ne_refused s r
  · exact nofun
  · exact putRun_ne_refused s r _
  · exact phaseStep_ne_refused s r hp

end NoRefusal

/-- Settles O40: only `IDLE` refuses, and there only what `acceptCommand_eq_refused_iff` says. -/
theorem refusalsAreTheTwoHostMoves : Obligations.RefusalsAreTheTwoHostMoves := by
  intro s r
  cases hr : rstNow s with
  | true => simp [step_of_rst hr]
  | false =>
    by_cases hp : s.phase = .idle
    · rw [step_of_idle hp hr, acceptCommand_eq_refused_iff]
      simp [hp, rstSampled]
    · rw [step_of_running hr]
      exact iff_of_false (sequencerStep_ne_refused (rstSampled s) r hp) fun h => hp h.2.1

/-! ### The pending commands (R100) -/

section Pending

variable {s t : State}

theorem growTape_cmds : (growTape s).host.cmds = s.host.cmds := by rw [growTape_frame]

theorem movePointer_cmds : (movePointer s).host.cmds = s.host.cmds := by
  rcases movePointer_cases s with ⟨-, e⟩ | ⟨-, -, -, e⟩ | ⟨-, -, e⟩ <;> rw [e]
  · rfl
  · rfl
  · exact growTape_cmds (s := setCursor s.ncur.toNat s)

theorem getRun_cmds (n : Nat) : (getRun n s).host.cmds = s.host.cmds := by
  obtain ⟨m, p, tr, r, pc, ph, e, -⟩ := getRun_writes n s
  rw [e]

theorem exec_cmds {i : Instr} (h : exec i s = .next t) : t.host.cmds = s.host.cmds := by
  cases i with
  | changeValue d =>
    obtain ⟨-, v, rfl⟩ := execChangeValue_next h
    simp
  | changePointer d => cases h; exact movePointer_cmds
  | get n => cases h; exact getRun_cmds n
  | put n => obtain ⟨cap, bs, o, tr, r, pc, ph, rfl⟩ := execPut_writes h; rfl
  | branchIfZero off => obtain ⟨-, tk, rfl⟩ := resolveBranch_next h; rfl
  | branchIfNotZero off => obtain ⟨-, tk, rfl⟩ := resolveBranch_next h; rfl

theorem runInstruction_cmds (h : runInstruction s = .next t) : t.host.cmds = s.host.cmds := by
  rcases runInstruction_cases s with ⟨-, e⟩ | ⟨w, i, -, -, e⟩ | ⟨w, code, -, -, e⟩ <;> rw [e] at h
  · cases h; rfl
  · exact exec_cmds (s := setIr w s) h
  · cases h; rfl

theorem phaseDecode_cmds : (phaseDecode s).host.cmds = s.host.cmds := by
  unfold phaseDecode
  split
  case h_4 => rw [beginPut_frame]; rfl
  all_goals rfl

/-- No transition of R118 but the one from `IDLE` takes a command. -/
theorem phaseStep_cmds (hp : s.phase ≠ .idle) (h : phaseStep s = .next t) :
    t.host.cmds = s.host.cmds := by
  unfold phaseStep at h
  cases hs : s.phase <;> rw [hs] at h <;> dsimp only at h
  case idle => exact (hp hs).elim
  case loadRecv =>
    cases h
    rcases receiveElement_cases s with e | e | ⟨x, -, e⟩ | e <;> rw [e] <;> rfl
  case loadCommit =>
    cases h
    rcases commitLoad_cases s with ⟨k, -, e⟩ | e <;> rw [e] <;> rfl
  case fetch => cases h; unfold phaseFetch; split <;> rfl
  case decode => cases h; exact phaseDecode_cmds
  case exCv => obtain ⟨-, v, rfl⟩ := execChangeValue_next h; simp
  case exCp =>
    cases h
    rcases phaseExCp_cases s with e | ⟨-, e⟩ <;> rw [e]
    · exact movePointer_cmds
    · rfl
  case grow => cases h; unfold phaseGrow; split <;> rfl
  case exBr => obtain ⟨-, tk, off, rfl⟩ := phaseExBr_next h; rfl
  case exGet =>
    cases h
    unfold phaseExGet
    split
    · rfl
    · rw [getIteration_frame]
  case exPut =>
    unfold phaseExPut at h
    split at h
    · cases h; rfl
    · split at h
      · cases h
      · split at h <;> cases h <;> rfl

theorem sequencerStep_cmds (hp : s.phase ≠ .idle) (h : sequencerStep s = .next t) :
    t.host.cmds = s.host.cmds := by
  rcases sequencerStep_cases s with ⟨-, e⟩ | ⟨-, e⟩ | ⟨-, e⟩ | e <;> rw [e] at h
  · exact runInstruction_cmds h
  · cases h; exact getRun_cmds _
  · obtain ⟨o, tr, r, pc, ph, rfl⟩ := putRun_writes h; rfl
  · exact phaseStep_cmds hp h

end Pending

/-- Settles O41: reset keeps the host's list, and the sequencer does in every phase but `IDLE`. -/
theorem commandsWaitWhileOneIsInProgress : Obligations.CommandsWaitWhileOneIsInProgress := by
  intro s t hready h
  have hp : s.phase ≠ .idle := of_decide_eq_false hready
  rcases stepUnder_next h with ⟨-, rfl⟩ | ⟨-, h⟩
  · rfl
  · exact sequencerStep_cmds (s := rstSampled s) hp h

end Sys2Proof.Machine

namespace Sys2Proof.Machine

/-! ### A step at `FETCH` and the start of a run (R110, R113, R115) -/

theorem step_of_fetch {s : State} (hp : s.phase = .fetch) (hr : rstNow s = false) :
    step s = runInstruction (rstSampled s) :=
  (step_of_running hr).trans (sequencerStep_of_fetch (s := rstSampled s) hp)

theorem step_of_fetch_quiet {s : State} (hp : s.phase = .fetch) (hrst : s.host.rst = []) :
    step s = runInstruction s :=
  (step_of_quiet hrst).trans (sequencerStep_of_fetch hp)

theorem runInstruction_of_none {s : State} (hf : fetchWord s = none) :
    runInstruction s = .next (endRun s) := by
  simp only [runInstruction, hf]

theorem runInstruction_of_instr {s : State} {w : Word} {i : Instr} (hf : fetchWord s = some w)
    (hd : decode s.cfg w = .instr i) : runInstruction s = exec i (setIr w s) := by
  simp only [runInstruction, runWord, hf, hd]

theorem runInstruction_of_invalid {s : State} {w : Word} {code : Nat}
    (hf : fetchWord s = some w) (hd : decode s.cfg w = .invalid code) :
    runInstruction s = .next (raiseFault .invalidCommand code (setIr w s)) := by
  simp only [runInstruction, runWord, hf, hd]

/-- Settles O9: the dispatch of `runInstruction`, the word at `pc` being the same once `rst` is
sampled. -/
theorem stepRunsTheDecodedInstruction : Obligations.StepRunsTheDecodedInstruction := by
  intro s w hp hr hf
  rw [step_of_fetch hp hr]
  exact ⟨fun i hd => runInstruction_of_instr (s := rstSampled s) hf hd,
    fun code hd => runInstruction_of_invalid (s := rstSampled s) hf hd⟩

theorem acceptCommand_execute {s : State} {cs : List (Option Command)}
    (hc : s.host.cmds = some .execute :: cs) :
    acceptCommand s = .next (resumeRun (commandTaken s)) := by
  simp only [acceptCommand, hc]

theorem step_of_execute {s : State} {cs : List (Option Command)} (hp : s.phase = .idle)
    (hrst : s.host.rst = []) (hc : s.host.cmds = some .execute :: cs) :
    step s = .next (resumeRun (commandTaken s)) := by
  rw [step_of_idle hp (rstNow_of_nil hrst), rstSampled_of_nil hrst, acceptCommand_execute hc]

/-- Settles O11: the command is taken off the port and the run resumes. -/
theorem executeStartsFromTheStateAsItStands :
    Obligations.ExecuteStartsFromTheStateAsItStands := by
  intro s cs hp hrst hc
  rw [step_of_execute hp hrst hc]
  simp [resumeRun, commandTaken, setPhase, setHost, hc]

/-- A run started by EXECUTE: one step accepts the command, one makes the first pass of the loop of
R111. -/
theorem runSteps_execute {s t : State} {cs : List (Option Command)} (hp : s.phase = .idle)
    (hrst : s.host.rst = []) (hc : s.host.cmds = some .execute :: cs)
    (h : runInstruction (resumeRun (commandTaken s)) = .next t) : runSteps 2 s = .next t := by
  have hpass : step (resumeRun (commandTaken s)) = .next t :=
    (step_of_fetch_quiet (s := resumeRun (commandTaken s)) rfl hrst).trans h
  exact (runSteps_succ (step_of_execute hp hrst hc)).trans (runSteps_succ hpass)

/-- Settles O10: the termination test finds no word, and `endRun` only responds. -/
theorem runEndsAtTheProgramLength : Obligations.RunEndsAtTheProgramLength := by
  intro s hrst hpc
  have hf : fetchWord s = none := (fetchWord_eq_none_iff s).2 hpc
  refine ⟨fun hp => ?_, fun cs hp hc => ?_⟩
  · rw [step_of_fetch_quiet hp hrst, runInstruction_of_none hf]
    rfl
  · have hf' : fetchWord (resumeRun (commandTaken s)) = none := hf
    rw [runSteps_execute hp hrst hc (runInstruction_of_none hf')]
    simp [endRun, respond, resumeRun, commandTaken, setPhase, setHost, hp, hc]

/-! ### Responses of a run (R121, R135) -/

/-- A candidate cursor that the arbiter rejects, the tape having `len` cells (R58). -/
def Rejected (c : Config) (x : Int) (len : Nat) : Prop :=
  x < 0 ∨ overLimit c (growLen c.maxGrowth len x.toNat) = true

theorem not_rejected {c : Config} {x : Int} {len : Nat} (h0 : 0 ≤ x)
    (hlim : overLimit c (growLen c.maxGrowth len x.toNat) = false) : ¬ Rejected c x len := by
  simp [Rejected, h0, hlim]

theorem movePointer_of_rejected {s : State} (h : Rejected s.cfg s.ncur s.tapeLen) :
    movePointer s = raiseFault .memoryOutOfBounds s.ncur s := by
  rcases movePointer_cases s with ⟨-, e⟩ | ⟨h0, -, hlim, -⟩ | ⟨hge, hlim, -⟩
  · exact e
  · exact (not_rejected h0 hlim h).elim
  · exact (not_rejected ((Int.natCast_nonneg _).trans hge) hlim h).elim

/-- An instruction leaves the host port alone, or it is a ChangePointer that the arbiter stops. -/
theorem exec_host {i : Instr} {s t : State} (h : exec i s = .next t) :
    t.host = s.host ∨ ∃ d, i = .changePointer d ∧
      Rejected s.cfg (candidateCursor s.cursor d) s.tapeLen ∧
      t = raiseFault .memoryOutOfBounds (candidateCursor s.cursor d)
        (setNcur (candidateCursor s.cursor d) s) := by
  cases i with
  | changeValue d => obtain ⟨-, v, rfl⟩ := execChangeValue_next h; simp
  | changePointer d =>
    cases h
    rcases movePointer_cases (setNcur (candidateCursor s.cursor d) s) with
      ⟨hrej, e⟩ | ⟨-, -, -, e⟩ | ⟨-, -, e⟩
    · exact .inr ⟨d, rfl, hrej, e⟩
    · rw [e]; exact .inl rfl
    · rw [e, growTape_frame]; exact .inl rfl
  | get n =>
    cases h
    obtain ⟨m, p, tr, r, pc, ph, e, -⟩ := getRun_writes n s
    rw [e]; exact .inl rfl
  | put n => obtain ⟨cap, bs, o, tr, r, pc, ph, rfl⟩ := execPut_writes h; exact .inl rfl
  | branchIfZero off => obtain ⟨-, tk, rfl⟩ := resolveBranch_next h; exact .inl rfl
  | branchIfNotZero off => obtain ⟨-, tk, rfl⟩ := resolveBranch_next h; exact .inl rfl

theorem not_responds_of_host_eq {s t : State} {r : Response} (h : t.host = s.host) :
    ¬ Responds s t r := by
  simp [Responds, h]

theorem responds_respond_iff {s u : State} {q r : Response} (h : u.host = s.host) :
    Responds s (respond q u) r ↔ q = r := by
  simp [Responds, h]

theorem setIr_self {s : State} {w : Word} (h : s.ir = w) : setIr w s = s := by
  subst h; rfl

theorem setNcur_self {s : State} {x : Int} (h : s.ncur = x) : setNcur x s = s := by
  subst h; rfl

/-- A pass over a ChangePointer that was rejected, with its word and its candidate in the registers
already. -/
theorem runInstruction_of_rejected {s : State} {w : Word} {d : Int} (hf : fetchWord s = some w)
    (hd : decode s.cfg w = .instr (.changePointer d)) (hir : s.ir = w)
    (hncur : s.ncur = candidateCursor s.cursor d) (h : Rejected s.cfg s.ncur s.tapeLen) :
    runInstruction s = .next (raiseFault .memoryOutOfBounds s.ncur s) := by
  rw [runInstruction_of_instr hf hd, setIr_self hir]
  calc exec (.changePointer d) s
      = .next (movePointer (setNcur (candidateCursor s.cursor d) s)) := rfl
    _ = .next (raiseFault .memoryOutOfBounds s.ncur s) := by
      rw [setNcur_self hncur, movePointer_of_rejected h]

/-- A pass of the loop of R111 that responds comes to the same response again from the state it
leaves, whatever the phase and the host port: `pc` and all that it reads are as they were (R121). -/
theorem runInstruction_recurs {s t : State} {r : Response} (h : runInstruction s = .next t)
    (hr : Responds s t r) : ∃ u, u.host = s.host ∧ t = respond r u ∧ ∀ (p : Phase) (hp : HostPort),
      runInstruction (setHost hp (setPhase p t)) =
        .next (respond r (setHost hp (setPhase p t))) := by
  rcases runInstruction_cases s with ⟨hf, e⟩ | ⟨w, i, hf, hd, e⟩ | ⟨w, code, hf, hd, e⟩ <;>
    rw [e] at h
  · cases h
    obtain rfl := (responds_respond_iff (u := s) rfl).1 hr
    exact ⟨s, rfl, rfl, fun _ _ => runInstruction_of_none (s := setHost _ _) hf⟩
  · rcases exec_host h with hhost | ⟨d, rfl, hrej, rfl⟩
    · exact (not_responds_of_host_eq (s := s) hhost hr).elim
    · obtain rfl := (responds_respond_iff (s := s) rfl).1 hr
      refine ⟨setNcur (candidateCursor s.cursor d) (setIr w s), rfl, rfl, fun p hp => ?_⟩
      refine runInstruction_of_rejected (w := w) (d := d) ?_ ?_ rfl rfl ?_
      · simpa [fetchWord] using hf
      · simpa using hd
      · simpa using hrej
  · cases h
    obtain rfl := (responds_respond_iff (s := s) rfl).1 hr
    exact ⟨setIr w s, rfl, rfl, fun _ _ => runInstruction_of_invalid (s := setHost _ _) hf hd⟩

/-- Settles O14: EXECUTE makes one more pass from the state the run left. -/
theorem endedRunRecursOnExecute : Obligations.EndedRunRecursOnExecute := by
  intro s t r cs hp hrst h hr
  rw [step_of_fetch_quiet hp hrst] at h
  obtain ⟨u, hhost, rfl, hagain⟩ := runInstruction_recurs h hr
  have hquiet : (respond r u).host.rst = [] := by rw [respond_host, hhost]; exact hrst
  exact runSteps_execute (s := setHost _ (respond r u)) rfl hquiet rfl
    (hagain .fetch { (respond r u).host with cmds := cs })

/-! ### The program counter law (R116, R117) -/

theorem resolveBranch_of_lt {op : Opcode} {off : Int} {s : State} (h : s.cursor < s.tapeLen) :
    resolveBranch op off s = .next (endInstr (taken op (s.tape.read s.cursor)) off s) := by
  simp only [resolveBranch, readCurrent_of_lt h]

/-- The `+1` of a running instruction stays below `2^PC_W`, since `PROG_LIMIT` does (R8, R116). -/
theorem State.Inv.nextPc_succ {s : State} (hi : s.Inv) (hpc : s.pc < s.prog.length) (off : Int) :
    nextPc s.cfg s.pc false off = s.pc + 1 := by
  obtain ⟨-, -, -, -, -, -, hlim⟩ := Config.wf_facts hi.cfgWf
  have hfit : s.pc + 1 < 2 ^ s.cfg.pcW := (Nat.succ_le_of_lt hpc).trans_lt
    (hi.progInLimit.trans_lt hlim)
  exact patternOf_of_fits hfit

/-- Where `pc` stands after an instruction: written by the law where it ended, as it was where it
faulted or is held. -/
def PcLaw (i : Instr) (s t : State) : Prop :=
  (t.phase = .fetch ∧
    t.pc = nextPc s.cfg s.pc (taken i.opcode (s.tape.read s.cursor)) i.argument) ∨
  ((t.phase = .idle ∨ t.phase = .exGet ∨ t.phase = .exPut) ∧ t.pc = s.pc)

theorem resolveBranch_pcLaw {i : Instr} {s t : State}
    (h : resolveBranch i.opcode i.argument s = .next t) : PcLaw i s t := by
  obtain ⟨hc, -⟩ := resolveBranch_next h
  rw [resolveBranch_of_lt hc] at h
  cases h
  exact .inl ⟨rfl, rfl⟩

theorem exec_pcLaw {i : Instr} {s t : State} (h : exec i s = .next t) : PcLaw i s t := by
  cases i with
  | changeValue d =>
    obtain ⟨-, v, rfl⟩ := execChangeValue_next h
    exact .inl ⟨rfl, by rw [advance_pc, writeCurrent_cfg, writeCurrent_pc]; rfl⟩
  | changePointer d =>
    cases h
    rcases movePointer_cases (setNcur (candidateCursor s.cursor d) s) with
      ⟨-, e⟩ | ⟨-, -, -, e⟩ | ⟨-, -, e⟩ <;> rw [e]
    · exact .inr ⟨.inl rfl, rfl⟩
    · exact .inl ⟨rfl, rfl⟩
    · exact .inl ⟨rfl, by rw [growTape_frame]; rfl⟩
  | get n =>
    cases h
    rcases getRun_frame n s with e | ⟨e, -⟩ <;> rw [e]
    · exact .inl ⟨rfl, rfl⟩
    · exact .inr ⟨.inr (.inl rfl), rfl⟩
  | put n =>
    rcases putRun_frame h with e | ⟨e, -⟩ <;> rw [e]
    · exact .inl ⟨rfl, by rw [beginPut_cfg, beginPut_pc]; rfl⟩
    · exact .inr ⟨.inr (.inr rfl), beginPut_pc n s⟩
  | branchIfZero off => exact resolveBranch_pcLaw (i := .branchIfZero off) h
  | branchIfNotZero off => exact resolveBranch_pcLaw (i := .branchIfNotZero off) h

/-- Settles O12: the law's residue, its `+1` under the invariant, and each instruction's ending. -/
theorem pcUpdateLaw : Obligations.PcUpdateLaw :=
  ⟨fun _ _ _ _ => ⟨nextPc_lt _ _ _ _, patternOf_cast _ _⟩,
    fun _ off hi hpc => hi.nextPc_succ hpc off, fun _ _ _ => exec_pcLaw⟩

/-- Only 0 has the pattern 0 in the signed range: a nonzero value leaves a bit set. -/
theorem patternOf_eq_zero_iff {n : Nat} {v : Int} (hn : 1 ≤ n) (hv : FitsSigned n v) :
    patternOf n v = 0 ↔ v = 0 := by
  constructor
  · intro h
    refine fitsSigned_unique hn hv (zero_fitsSigned n) ?_
    rw [← patternOf_cast, h, Int.zero_emod]; rfl
  · rintro rfl
    exact patternOf_of_fits (Nat.two_pow_pos n)

theorem taken_of_not_branch {op : Opcode} {v : Int} (hz : op ≠ .branchIfZero)
    (hnz : op ≠ .branchIfNotZero) : taken op v = false := by
  cases op with
  | branchIfZero => exact (hz rfl).elim
  | branchIfNotZero => exact (hnz rfl).elim
  | changeValue | changePointer | get | put => rfl

/-- Settles O13: the zero tests, the pattern of a cell, and both branches as `resolveBranch_of_lt`
has them. -/
theorem branchResolverTestsEveryBit : Obligations.BranchResolverTestsEveryBit :=
  ⟨fun _ => ⟨decide_eq_true_iff, decide_eq_true_iff⟩, fun _ _ => taken_of_not_branch,
    fun _ _ hn hv => (patternOf_eq_zero_iff hn hv).symm,
    fun _ _ hc => ⟨resolveBranch_of_lt hc, resolveBranch_of_lt hc⟩⟩

end Sys2Proof.Machine

namespace Sys2Proof.Machine

/-! ### Iterations of a Get (R171, R119) -/

section Get

variable {s : State}

theorem getRun_of_wait {n : Nat} (h : inPoll s = .wait) :
    getRun (n + 1) s = setPhase .exGet (setRep (n + 1) (polled s)) := by
  simp only [getRun, h]

theorem getRun_of_answer {n : Nat} (h : inPoll s ≠ .wait) :
    getRun (n + 1) s = getRun n (getIteration n s) := by
  cases ha : inPoll s with
  | wait => exact (h ha).elim
  | eof => simp only [getRun, ha]
  | byte b => simp only [getRun, ha]

/-- A poll shows a value unless it answers `WAIT` (R171). -/
theorem InAnswer.exists_cell {a : InAnswer} (c : Config) (h : a ≠ .wait) :
    ∃ v, a.cell c = some v := by
  cases a with
  | wait => exact (h rfl).elim
  | eof => exact ⟨_, rfl⟩
  | byte b => exact ⟨_, rfl⟩

theorem getRun_setRep (n r : Nat) (s : State) : getRun n (setRep r s) = getRun n s :=
  getRun_setPhase_setRep n s.phase r s

theorem getEvents_succ (p : InPort) (n : Nat) :
    getEvents p (n + 1) = getEvents p n ++ (p.answer n).events := by
  simp [getEvents, List.range_succ]

/-- The last of the first `k + 1` writes stays (R173). -/
theorem write_tapeAfterGet {k : Nat} {v : Int} (hw : s.tape.wf = true)
    (hv : (s.inp.answer k).cell s.cfg = some v) :
    (tapeAfterGet s k).write s.cursor v = tapeAfterGet s (k + 1) := by
  have hlast : tapeAfterGet s (k + 1) = s.tape.write s.cursor v := by simp only [tapeAfterGet, hv]
  rw [hlast]
  cases k with
  | zero => rfl
  | succ k =>
    cases hprev : (s.inp.answer k).cell s.cfg with
    | none => simp only [tapeAfterGet, hprev]
    | some u => simp only [tapeAfterGet, hprev, Memory.write_write hw]

/-- The state after the first `k` iterations of a Get, the count left apart. -/
def afterGet (s : State) (k : Nat) : State :=
  { s with
    tape := tapeAfterGet s k, inp := s.inp.drop k, trace := s.trace ++ getEvents s.inp k }

theorem afterGet_zero : afterGet s 0 = s := by simp [afterGet, tapeAfterGet, getEvents]

theorem inPoll_afterGet (k : Nat) : inPoll (afterGet s k) = s.inp.answer k :=
  InPort.answer_drop s.inp k 0

theorem getIteration_afterGet {k : Nat} (n : Nat) (hw : s.tape.wf = true)
    (hc : s.cursor < s.tapeLen) (ha : s.inp.answer k ≠ .wait) :
    getIteration n (afterGet s k) = setRep n (afterGet s (k + 1)) := by
  obtain ⟨v, hv⟩ := InAnswer.exists_cell s.cfg ha
  rw [getIteration_eq (s := afterGet s k) n hc (by rw [inPoll_afterGet]; exact hv)]
  simp [afterGet, setRep, getEvents_succ, ← write_tapeAfterGet hw hv, inPoll]

/-- A Get goes through the answers that are not `WAIT` (R171). -/
theorem getRun_answers {n k : Nat} (hw : s.tape.wf = true) (hc : s.cursor < s.tapeLen)
    (hk : k ≤ n) (ha : ∀ j, j < k → s.inp.answer j ≠ .wait) :
    getRun n s = getRun (n - k) (afterGet s k) := by
  induction k with
  | zero => rw [afterGet_zero]; rfl
  | succ k ih =>
    have hn : n - k = n - (k + 1) + 1 := by omega
    have hlast : s.inp.answer k ≠ .wait := ha k (Nat.lt_succ_self k)
    rw [ih (by omega) fun j hj => ha j (by omega), hn,
      getRun_of_answer (by rwa [inPoll_afterGet]), getIteration_afterGet _ hw hc hlast,
      getRun_setRep]

/-- Settles O26: the Get goes through the `k` answers, and the next one holds it. -/
theorem waitHoldsAGet : Obligations.WaitHoldsAGet := by
  intro n k s hi hc hk ha hwait
  obtain ⟨m, hm⟩ : ∃ m, n - k = m + 1 := ⟨n - k - 1, by omega⟩
  have hrun : getRun n s = setPhase .exGet (setRep (n - k) (polled (afterGet s k))) := by
    rw [getRun_answers hi.tapeWf hc hk.le ha, hm,
      getRun_of_wait (by rwa [inPoll_afterGet])]
  refine congrArg Host.Outcome.next (hrun.trans ?_)
  simp [afterGet, polled, setInp, setRep, setPhase]

end Get

/-! ### A Get met by `WAIT` answers (R119, R172) -/

/-- The state with the `WAIT` answers at its input port left out. -/
def dropWaits (s : State) : State := setInp s.inp.withoutWaits s

section Waits

variable {s : State}

theorem inPoll_of_script {a : InAnswer} {as : List InAnswer} (h : s.inp.script = a :: as) :
    inPoll s = a := by
  simp [inPoll, InPort.answer, h]

theorem withoutWaits_drop_of_wait {p : InPort} {as : List InAnswer} (h : p.script = .wait :: as) :
    (p.drop 1).withoutWaits = p.withoutWaits := by
  simp [InPort.withoutWaits, InPort.drop, h]

theorem withoutWaits_script_of_answer {p : InPort} {a : InAnswer} {as : List InAnswer}
    (h : p.script = a :: as) (ha : a ≠ .wait) :
    p.withoutWaits.script = a :: (p.drop 1).withoutWaits.script := by
  simp [InPort.withoutWaits, InPort.drop, h, ha]

theorem withoutWaits_drop_of_answer {p : InPort} {a : InAnswer} {as : List InAnswer}
    (h : p.script = a :: as) (ha : a ≠ .wait) :
    (p.drop 1).withoutWaits = p.withoutWaits.drop 1 := by
  simp [InPort.withoutWaits, InPort.drop, h, ha]

theorem dropWaits_polled_of_wait {as : List InAnswer} (h : s.inp.script = .wait :: as) :
    dropWaits (polled s) = dropWaits s :=
  congrArg (setInp · s) (withoutWaits_drop_of_wait h)

theorem dropWaits_polled {a : InAnswer} {as : List InAnswer} (h : s.inp.script = a :: as)
    (ha : a ≠ .wait) : dropWaits (polled s) = polled (dropWaits s) :=
  congrArg (setInp · s) (withoutWaits_drop_of_answer h ha)

theorem writeCurrent_setInp (v : Int) (p : InPort) :
    writeCurrent v (setInp p s) = setInp p (writeCurrent v s) := by
  by_cases h : s.cursor < s.tapeLen
  · rw [writeCurrent_of_lt h, writeCurrent_of_lt (s := setInp p s) h]
    rfl
  · have hle := Nat.not_lt.1 h
    rw [writeCurrent_of_ge hle, writeCurrent_of_ge (s := setInp p s) hle]

theorem dropWaits_writeCurrent (v : Int) :
    dropWaits (writeCurrent v s) = writeCurrent v (dropWaits s) := by
  rw [dropWaits, writeCurrent_inp, ← writeCurrent_setInp, dropWaits]

theorem getIteration_of_cell {n : Nat} {v : Int} (h : (inPoll s).cell s.cfg = some v) :
    getIteration n s = writeCurrent v (setRep n (emit (inPoll s).events (polled s))) := by
  simp only [getIteration, h]

/-- An iteration that is answered is the same with the `WAIT` answers left out. -/
theorem getIteration_dropWaits {a : InAnswer} {as : List InAnswer} (n : Nat)
    (h : s.inp.script = a :: as) (ha : a ≠ .wait) :
    getIteration n (dropWaits s) = dropWaits (getIteration n s) := by
  obtain ⟨v, hv⟩ := InAnswer.exists_cell s.cfg ha
  have hpoll : inPoll (dropWaits s) = inPoll s := by
    rw [inPoll_of_script h, inPoll_of_script (withoutWaits_script_of_answer h ha)]
  have hcell : (inPoll s).cell s.cfg = some v := by rw [inPoll_of_script h, hv]
  rw [getIteration_of_cell hcell,
    getIteration_of_cell (s := dropWaits s) (by rw [hpoll]; exact hcell), hpoll,
    dropWaits_writeCurrent, ← dropWaits_polled h ha]
  rfl

theorem step_of_exGet (hp : s.phase = .exGet) (hrst : s.host.rst = []) :
    step s = .next (getRun s.rep s) := by
  rw [step_of_quiet hrst]
  simp only [sequencerStep, hp]

/-- After a `WAIT` the next step goes on with the same iterations (R119). -/
theorem step_getRun_of_wait {n : Nat} (hrst : s.host.rst = []) (h : inPoll s = .wait) :
    step (getRun (n + 1) s) = .next (getRun (n + 1) (polled s)) := by
  rw [getRun_of_wait h, step_of_exGet (s := setPhase .exGet (setRep (n + 1) (polled s))) rfl hrst]
  exact congrArg Host.Outcome.next (getRun_setPhase_setRep _ _ _ _)

theorem getIteration_rst (n : Nat) : (getIteration n s).host.rst = s.host.rst := by
  rw [getIteration_frame]

theorem getIteration_inp (n : Nat) : (getIteration n s).inp = s.inp.drop 1 := by
  rw [getIteration_frame]

/-- Get, run on past its holds, ends as it does without the `WAIT` answers. By induction on the
script. -/
theorem runSteps_getRun {n : Nat} (hrst : s.host.rst = [])
    (hn : n ≤ s.inp.withoutWaits.script.length) :
    ∃ m t, runSteps m (getRun n s) = .next t ∧ getRun n (dropWaits s) = dropWaits t ∧
      t.phase = .fetch := by
  generalize hsc : s.inp.script = as
  induction as generalizing s n with
  | nil =>
    obtain rfl : n = 0 := by simpa [InPort.withoutWaits, hsc] using hn
    exact ⟨0, _, rfl, rfl, rfl⟩
  | cons a as ih =>
    cases n with
    | zero => exact ⟨0, _, rfl, rfl, rfl⟩
    | succ n =>
      have hrest : (s.inp.drop 1).script = as := by simp [InPort.drop, hsc]
      by_cases ha : a = .wait
      · subst ha
        obtain ⟨m, t, hrun, hu, hp⟩ := ih (s := polled s) (n := n + 1) hrst
          (by rwa [polled_inp, withoutWaits_drop_of_wait hsc]) hrest
        rw [dropWaits_polled_of_wait hsc] at hu
        have hstep := step_getRun_of_wait (n := n) hrst (inPoll_of_script hsc)
        exact ⟨m + 1, t, (runSteps_succ hstep).trans hrun, hu, hp⟩
      · rw [getRun_of_answer (by rwa [inPoll_of_script hsc]), getRun_of_answer (s := dropWaits s)
          (by rwa [inPoll_of_script (withoutWaits_script_of_answer hsc ha)]),
          getIteration_dropWaits n hsc ha]
        rw [withoutWaits_script_of_answer hsc ha, List.length_cons] at hn
        exact ih (by rwa [getIteration_rst]) (by rw [getIteration_inp]; omega)
          (by rwa [getIteration_inp])

end Waits

/-- Settles O27: the Get is run on past its holds, and the two ports end alike. -/
theorem waitsDoNotChangeAGet : Obligations.WaitsDoNotChangeAGet := by
  intro n s hrst hn
  obtain ⟨m, t, hrun, hu, hp⟩ := runSteps_getRun hrst hn
  exact ⟨m, getRun n s, t, dropWaits t, rfl, hrun, congrArg Host.Outcome.next hu, hp, rfl, rfl⟩

end Sys2Proof.Machine

namespace Sys2Proof.Machine

/-! ### Bytes of a Put (R174, R175, R119) -/

section Put

variable {s : State}

theorem growScratch_eq (n : Nat) (s : State) :
    growScratch n s =
      setScratch (max s.scratchCap n) (if s.scratchCap < n then [] else s.scratch) s := by
  by_cases h : s.scratchCap < n
  · rw [growScratch, if_pos h, if_pos h, Nat.max_eq_right h.le]
  · rw [growScratch, if_neg h, if_neg h, Nat.max_eq_left (Nat.not_lt.1 h)]
    rfl

theorem readCurrent_emit (es : List PortEvent) : readCurrent (emit es s) = readCurrent s := rfl

theorem readCurrent_setScratch (cap : Nat) (bs : List Byte) :
    readCurrent (setScratch cap bs s) = readCurrent s := rfl

theorem readCurrent_setRep (n : Nat) : readCurrent (setRep n s) = readCurrent s := rfl

/-- The start of a Put with the current cell readable (R174). -/
theorem beginPut_of_lt (n : Nat) (hc : s.cursor < s.tapeLen) :
    beginPut n s = { s with
      scratchCap := max s.scratchCap n
      scratch := scratchAfterPut s n (byteOfCell (s.tape.read s.cursor))
      rep := n
      trace := s.trace ++ [.outStart n (decide (n = 0))] } := by
  simp only [beginPut, growScratch_eq, readCurrent_emit, readCurrent_setScratch, readCurrent_setRep,
    readCurrent_of_lt hc]
  by_cases h : s.scratchCap < n <;>
    simp [fillScratch, setScratch, emit, setRep, scratchAfterPut, h]

theorem putRun_setRep (n r : Nat) (s : State) : putRun n (setRep r s) = putRun n s :=
  putRun_setPhase_setRep n s.phase r s

/-- The state after `k` bytes `b` of a Put that has more to send, the count left apart. -/
def afterPut (s : State) (b : Byte) (k : Nat) : State :=
  { s with out := s.out.drop k, trace := s.trace ++ List.replicate k (.outByte b false) }

theorem afterPut_zero (b : Byte) : afterPut s b 0 = s := by simp [afterPut]

theorem outReady_afterPut (b : Byte) (k : Nat) : outReady (afterPut s b k) = s.out.ready k :=
  OutPort.ready_drop s.out k 0

theorem sendByte_afterPut {n : Nat} (v : Int) (k : Nat) (hn : n ≠ 0) :
    sendByte n v (afterPut s (byteOfCell v) k) = setRep n (afterPut s (byteOfCell v) (k + 1)) := by
  simp [sendByte_eq, afterPut, setRep, hn, List.replicate_succ']

/-- A Put goes through the offers that are taken (R175). -/
theorem putRun_taken {n k : Nat} {v : Int} (hv : readCurrent s = some v) (hk : k < n)
    (hr : ∀ j, j < k → s.out.ready j = true) :
    putRun n s = putRun (n - k) (afterPut s (byteOfCell v) k) := by
  induction k with
  | zero => rw [afterPut_zero]; rfl
  | succ k ih =>
    have hn : n - k = n - (k + 1) + 1 := by omega
    rw [ih (by omega) fun j hj => hr j (by omega), hn,
      putRun_of_ready (s := afterPut s (byteOfCell v) k) hv
        (by rw [outReady_afterPut]; exact hr k (Nat.lt_succ_self k)),
      sendByte_afterPut v k (by omega), putRun_setRep]

/-- Settles O29: the Put sends the `k` bytes, and the next offer holds it. -/
theorem stallHoldsAPut : Obligations.StallHoldsAPut := by
  intro n k s hc hk hr hstall
  obtain ⟨m, hm⟩ : ∃ m, n - k = m + 1 := ⟨n - k - 1, by omega⟩
  have hn : n ≠ 0 := by omega
  have hv : readCurrent (beginPut n s) = some (s.tape.read s.cursor) := by
    rw [beginPut_of_lt n hc]; exact readCurrent_of_lt hc
  have hout : (beginPut n s).out = s.out := by rw [beginPut_frame]
  have hrun : putRun n (beginPut n s) = .next (setPhase .exPut (setRep (n - k)
      (offered (afterPut (beginPut n s) (byteOfCell (s.tape.read s.cursor)) k)))) := by
    rw [putRun_taken hv hk (by rwa [hout]), hm]
    exact putRun_of_stall hv (by rw [outReady_afterPut, hout]; exact hstall)
  refine hrun.trans ?_
  rw [beginPut_of_lt n hc]
  simp [afterPut, offered, setOut, setRep, setPhase, hn]

end Put

/-! ### A Put met by stalls (R119, R175) -/

/-- The state with the refusals at its output port left out. -/
def dropStalls (s : State) : State := setOut s.out.withoutStalls s

section Stalls

variable {s : State}

theorem outReady_of_script {r : Bool} {rs : List Bool} (h : s.out.script = r :: rs) :
    outReady s = r := by
  simp [outReady, OutPort.ready, h]

theorem withoutStalls_drop_of_stall {p : OutPort} {rs : List Bool} (h : p.script = false :: rs) :
    (p.drop 1).withoutStalls = p.withoutStalls := by
  simp [OutPort.withoutStalls, OutPort.drop, h]

theorem withoutStalls_script_of_ready {p : OutPort} {rs : List Bool} (h : p.script = true :: rs) :
    p.withoutStalls.script = true :: (p.drop 1).withoutStalls.script := by
  simp [OutPort.withoutStalls, OutPort.drop, h]

theorem withoutStalls_drop_of_ready {p : OutPort} {rs : List Bool} (h : p.script = true :: rs) :
    (p.drop 1).withoutStalls = p.withoutStalls.drop 1 := by
  simp [OutPort.withoutStalls, OutPort.drop, h]

theorem dropStalls_offered_of_stall {rs : List Bool} (h : s.out.script = false :: rs) :
    dropStalls (offered s) = dropStalls s :=
  congrArg (setOut · s) (withoutStalls_drop_of_stall h)

theorem sendByte_dropStalls {rs : List Bool} (n : Nat) (v : Int) (h : s.out.script = true :: rs) :
    sendByte n v (dropStalls s) = dropStalls (sendByte n v s) :=
  (congrArg (fun p => setOut p (sendByte n v s)) (withoutStalls_drop_of_ready h)).symm

theorem beginPut_dropStalls (n : Nat) (hc : s.cursor < s.tapeLen) :
    beginPut n (dropStalls s) = dropStalls (beginPut n s) := by
  rw [beginPut_of_lt n hc, beginPut_of_lt (s := dropStalls s) n hc]
  rfl

theorem step_of_exPut (hp : s.phase = .exPut) (hrst : s.host.rst = []) :
    step s = putRun s.rep s := by
  rw [step_of_quiet hrst]
  simp only [sequencerStep, hp]

/-- Put, run on past its holds, ends as it does when every offer is taken. By induction on the
script. -/
theorem runSteps_putRun {n : Nat} (hrst : s.host.rst = []) (hc : s.cursor < s.tapeLen)
    (hn : n ≤ s.out.withoutStalls.script.length) :
    ∃ m t₀ t, putRun n s = .next t₀ ∧ runSteps m t₀ = .next t ∧
      putRun n (dropStalls s) = .next (dropStalls t) ∧ t.phase = .fetch := by
  generalize hsc : s.out.script = rs
  induction rs generalizing s n with
  | nil =>
    obtain rfl : n = 0 := by simpa [OutPort.withoutStalls, hsc] using hn
    exact ⟨0, _, _, rfl, rfl, rfl, rfl⟩
  | cons r rs ih =>
    cases n with
    | zero => exact ⟨0, _, _, rfl, rfl, rfl, rfl⟩
    | succ n =>
      have hrest : (s.out.drop 1).script = rs := by simp [OutPort.drop, hsc]
      have hv : readCurrent s = some (s.tape.read s.cursor) := readCurrent_of_lt hc
      cases r with
      | false =>
        obtain ⟨m, t₀, t, hfirst, hrun, hu, hp⟩ := ih (s := offered s) (n := n + 1) hrst hc
          (by rwa [offered_out, withoutStalls_drop_of_stall hsc]) hrest
        rw [dropStalls_offered_of_stall hsc] at hu
        have hstep : step (setPhase .exPut (setRep (n + 1) (offered s))) = .next t₀ := by
          rw [step_of_exPut (s := setPhase .exPut (setRep (n + 1) (offered s))) rfl hrst]
          exact (putRun_setPhase_setRep _ _ _ _).trans hfirst
        exact ⟨m + 1, _, t, putRun_of_stall hv (outReady_of_script hsc),
          (runSteps_succ hstep).trans hrun, hu, hp⟩
      | true =>
        rw [putRun_of_ready hv (outReady_of_script hsc), putRun_of_ready (s := dropStalls s) hv
          (outReady_of_script (withoutStalls_script_of_ready hsc)), sendByte_dropStalls n _ hsc]
        rw [withoutStalls_script_of_ready hsc, List.length_cons] at hn
        exact ih (s := sendByte n (s.tape.read s.cursor) s) hrst hc (Nat.le_of_succ_le_succ hn)
          hrest

end Stalls

/-- Settles O30: the start of the Put is the same on both ports, and the rest is run on past its
holds. -/
theorem stallsDoNotChangeAPut : Obligations.StallsDoNotChangeAPut := by
  intro n s hrst hc hn
  have hb := beginPut_of_lt n hc
  obtain ⟨m, t₀, t, hfirst, hrun, hu, hp⟩ := runSteps_putRun (s := beginPut n s) (n := n)
    (by rw [hb]; exact hrst) (by rw [hb]; exact hc) (by rw [hb]; exact hn)
  rw [← beginPut_dropStalls n hc] at hu
  exact ⟨m, t₀, t, dropStalls t, hfirst, hrun, hu, hp, rfl, rfl⟩

end Sys2Proof.Machine

namespace Sys2Proof.Machine

/-! ### The phase an instruction starts in is never read (R118) -/

section SetPhase

variable (p : Phase) (s : State)

theorem readCurrent_setPhase : readCurrent (setPhase p s) = readCurrent s := rfl

theorem writeCurrent_setPhase (v : Int) :
    writeCurrent v (setPhase p s) = setPhase p (writeCurrent v s) := by
  by_cases h : s.cursor < s.tapeLen
  · rw [writeCurrent_of_lt h, writeCurrent_of_lt (s := setPhase p s) h]
    rfl
  · have hle := Nat.not_lt.1 h
    rw [writeCurrent_of_ge hle, writeCurrent_of_ge (s := setPhase p s) hle]

theorem advance_setPhase : advance (setPhase p s) = advance s := rfl

theorem growLoop_setPhase (fuel : Nat) :
    growLoop fuel (setPhase p s) = setPhase p (growLoop fuel s) := by
  induction fuel generalizing s with
  | zero => rfl
  | succ n ih =>
    by_cases h : s.tapeLen ≤ s.cursor
    · rw [growLoop_of_le h, growLoop_of_le (s := setPhase p s) h]
      exact ih (growStep s)
    · have hlt := Nat.not_le.1 h
      rw [growLoop_of_lt hlt, growLoop_of_lt (s := setPhase p s) hlt]

theorem growTape_setPhase : growTape (setPhase p s) = setPhase p (growTape s) :=
  growLoop_setPhase p s _

theorem growScratch_setPhase (n : Nat) :
    growScratch n (setPhase p s) = setPhase p (growScratch n s) := by
  rw [growScratch_eq, growScratch_eq]
  rfl

theorem beginPut_setPhase (n : Nat) : beginPut n (setPhase p s) = setPhase p (beginPut n s) := by
  have hs : emit [.outStart n (decide (n = 0))] (growScratch n (setRep n (setPhase p s))) =
      setPhase p (emit [.outStart n (decide (n = 0))] (growScratch n (setRep n s))) :=
    congrArg (emit _) (growScratch_setPhase p (setRep n s) n)
  simp only [beginPut, hs, readCurrent_setPhase]
  split <;> rfl

theorem execChangeValue_setPhase (d : Int) :
    execChangeValue d (setPhase p s) = execChangeValue d s := by
  simp only [execChangeValue, readCurrent_setPhase, setPhase_cfg, writeCurrent_setPhase]
  rfl

theorem movePointer_setPhase : movePointer (setPhase p s) = movePointer s := by
  have hcur (i : Nat) : setCursor i (setPhase p s) = setPhase p (setCursor i s) := rfl
  simp only [movePointer, setPhase_ncur, setPhase_cfg, setPhase_tapeLen, hcur, growTape_setPhase]
  rfl

theorem resolveBranch_setPhase (op : Opcode) (off : Int) :
    resolveBranch op off (setPhase p s) = resolveBranch op off s := rfl

theorem getRun_setPhase (n : Nat) : getRun n (setPhase p s) = getRun n s :=
  getRun_setPhase_setRep n p s.rep s

theorem putRun_setPhase (n : Nat) : putRun n (setPhase p s) = putRun n s :=
  putRun_setPhase_setRep n p s.rep s

theorem exec_setPhase (i : Instr) : exec i (setPhase p s) = exec i s := by
  cases i with
  | changeValue d => exact execChangeValue_setPhase p s d
  | changePointer d =>
    exact congrArg Host.Outcome.next
      (movePointer_setPhase p (setNcur (candidateCursor s.cursor d) s))
  | get n => exact congrArg Host.Outcome.next (getRun_setPhase p s n)
  | put n =>
    calc exec (.put n) (setPhase p s)
      _ = putRun n (beginPut n (setPhase p s)) := rfl
      _ = putRun n (beginPut n s) := by rw [beginPut_setPhase, putRun_setPhase]
  | branchIfZero off => exact resolveBranch_setPhase p s _ off
  | branchIfNotZero off => exact resolveBranch_setPhase p s _ off

theorem runWord_setPhase_setIr (w : Word) : runWord w (setPhase p (setIr w s)) = runWord w s := by
  simp only [runWord, setPhase_cfg, setIr_cfg]
  split
  · exact exec_setPhase p (setIr w s) _
  · rfl

end SetPhase

/-! ### A transition of R118 in each phase of an instruction -/

section Phases

variable {s : State}

theorem phaseStep_of_fetch (hp : s.phase = .fetch) : phaseStep s = .next (phaseFetch s) := by
  simp only [phaseStep, hp]

theorem phaseStep_of_decode (hp : s.phase = .decode) : phaseStep s = .next (phaseDecode s) := by
  simp only [phaseStep, hp]

theorem phaseStep_of_exCv (hp : s.phase = .exCv) :
    phaseStep s = execChangeValue (signedArg s.cfg s.ir) s := by
  simp only [phaseStep, hp]

theorem phaseStep_of_exCp (hp : s.phase = .exCp) : phaseStep s = .next (phaseExCp s) := by
  simp only [phaseStep, hp]

theorem phaseStep_of_grow (hp : s.phase = .grow) : phaseStep s = .next (phaseGrow s) := by
  simp only [phaseStep, hp]

theorem phaseStep_of_exBr (hp : s.phase = .exBr) {op : Opcode}
    (hop : Opcode.ofCode (codeOf s.cfg s.ir) = some op) :
    phaseStep s = resolveBranch op (signedArg s.cfg s.ir) s := by
  cases hv : readCurrent s with
  | none => simp only [phaseStep, hp, phaseExBr, resolveBranch, hv]
  | some v => simp only [phaseStep, hp, phaseExBr, resolveBranch, hv, hop]

theorem phaseStep_of_exGet (hp : s.phase = .exGet) : phaseStep s = .next (phaseExGet s) := by
  simp only [phaseStep, hp]

theorem phaseStep_of_exPut (hp : s.phase = .exPut) : phaseStep s = phaseExPut s := by
  simp only [phaseStep, hp]

theorem setPhase_setRep_self {p : Phase} {n : Nat} (hp : s.phase = p) (hr : s.rep = n) :
    setPhase p (setRep n s) = s := by
  subst hp hr; rfl

theorem setRep_self {n : Nat} (h : s.rep = n) : setRep n s = s := by
  subst h; rfl

theorem getIteration_of_wait (n : Nat) (h : inPoll s = .wait) : getIteration n s = polled s := by
  simp only [getIteration, h, InAnswer.cell]

theorem getIteration_rep (n : Nat) (h : inPoll s ≠ .wait) : (getIteration n s).rep = n := by
  obtain ⟨v, hv⟩ := InAnswer.exists_cell s.cfg h
  rw [getIteration_of_cell hv, writeCurrent_rep, setRep_rep]

theorem getIteration_phase (n : Nat) : (getIteration n s).phase = s.phase := by
  rw [getIteration_frame]

theorem beginPut_rep (n : Nat) : (beginPut n s).rep = n := by rw [beginPut_frame]

theorem beginPut_host (n : Nat) : (beginPut n s).host = s.host := by rw [beginPut_frame]

end Phases

/-! ### Transitions of R118 that come to an outcome -/

/-- Finitely many transitions of the state machine, at least one, come from `s` to the outcome. -/
def MicroReaches (s : State) (x : Host.Outcome State Fault Refusal) : Prop :=
  ∃ k, 0 < k ∧ runMicro k s = x

namespace MicroReaches

variable {s t : State} {x : Host.Outcome State Fault Refusal}

/-- One transition is enough. -/
theorem single (hrst : s.host.rst = []) (h : phaseStep s = x) : MicroReaches s x := by
  refine ⟨1, Nat.one_pos, ?_⟩
  have hstep : microStep s = x := (microStep_of_quiet hrst).trans h
  cases x <;> simp only [runMicro, iterate, hstep]

/-- One transition more at the front. -/
theorem head (hrst : s.host.rst = []) (h : phaseStep s = .next t) (ht : MicroReaches t x) :
    MicroReaches s x := by
  obtain ⟨k, -, hk⟩ := ht
  have hstep : microStep s = .next t := (microStep_of_quiet hrst).trans h
  refine ⟨k + 1, Nat.succ_pos k, ?_⟩
  simp only [runMicro, iterate, hstep]
  exact hk

/-- `EX_GET` polls until the Get ends or `WAIT` holds it (R118, R119). -/
theorem of_exGet (hp : s.phase = .exGet) (hrst : s.host.rst = []) :
    MicroReaches s (.next (getRun s.rep s)) := by
  generalize hn : s.rep = n
  have hpoll := phaseStep_of_exGet hp
  induction n generalizing s with
  | zero =>
    simp only [phaseExGet, hn] at hpoll
    rw [getRun, setRep_self hn]
    exact single hrst hpoll
  | succ n ih =>
    simp only [phaseExGet, hn] at hpoll
    by_cases hw : inPoll s = .wait
    · rw [getIteration_of_wait n hw] at hpoll
      rw [getRun_of_wait hw, setPhase_setRep_self (s := polled s) hp hn]
      exact single hrst hpoll
    · have hp' : (getIteration n s).phase = .exGet := by rwa [getIteration_phase]
      rw [getRun_of_answer hw]
      exact head hrst hpoll (ih hp' (by rwa [getIteration_rst]) (getIteration_rep n hw)
        (phaseStep_of_exGet hp'))

/-- `EX_PUT` offers bytes until the Put ends or an offer is not taken (R118, R119). -/
theorem of_exPut (hp : s.phase = .exPut) (hrst : s.host.rst = []) :
    MicroReaches s (putRun s.rep s) := by
  generalize hn : s.rep = n
  have hoffer := phaseStep_of_exPut hp
  induction n generalizing s with
  | zero =>
    simp only [phaseExPut, hn] at hoffer
    rw [putRun, setRep_self hn]
    exact single hrst hoffer
  | succ n ih =>
    cases hv : readCurrent s with
    | none =>
      simp only [phaseExPut, hn, hv] at hoffer
      rw [putRun_of_blocked hv]
      exact single hrst hoffer
    | some v =>
      cases ho : outReady s with
      | false =>
        simp only [phaseExPut, hn, hv, ho] at hoffer
        rw [putRun_of_stall hv ho, setPhase_setRep_self (s := offered s) hp hn]
        exact single hrst hoffer
      | true =>
        simp only [phaseExPut, hn, hv, ho] at hoffer
        rw [putRun_of_ready hv ho]
        exact head hrst hoffer
          (ih (s := sendByte n v s) hp hrst rfl (phaseStep_of_exPut (s := sendByte n v s) hp))

/-- `GROW` makes the passes of the loop of R61, and ends the instruction once they cover the
cursor (R118). -/
theorem of_grow {fuel : Nat} (hp : s.phase = .grow) (hrst : s.host.rst = [])
    (hcover : s.cursor < (growLoop fuel s).tapeLen) :
    MicroReaches s (.next (advance (growLoop fuel s))) := by
  have hgrow := phaseStep_of_grow hp
  induction fuel generalizing s with
  | zero => exact single hrst (hgrow.trans (congrArg _ (phaseGrow_of_lt hcover)))
  | succ n ih =>
    by_cases h : s.tapeLen ≤ s.cursor
    · rw [growLoop_of_le h] at hcover ⊢
      rw [phaseGrow_of_le h] at hgrow
      exact head hrst hgrow
        (ih (s := growStep s) hp hrst hcover (phaseStep_of_grow (s := growStep s) hp))
    · have hlt := Nat.not_le.1 h
      rw [growLoop_of_lt hlt]
      exact single hrst (hgrow.trans (congrArg _ (phaseGrow_of_lt hlt)))

section Tape

variable (hl : 1 ≤ s.tapeLen) (hm : 1 ≤ s.cfg.maxGrowth)
include hl hm

/-- `EX_CP`, with `GROW` where the tape grows, makes the whole move (R118, R139). -/
theorem of_exCp (hp : s.phase = .exCp) (hrst : s.host.rst = []) :
    MicroReaches s (.next (movePointer s)) := by
  have hmove := phaseStep_of_exCp hp
  unfold phaseExCp at hmove
  unfold movePointer
  cases hb : boundsCheck s.cfg s.ncur s.tapeLen with
  | grow =>
    have hcover :
        s.ncur.toNat < (growTape (setPhase .grow (setCursor s.ncur.toNat s))).tapeLen := by
      rw [growTape_tapeLen]; exact growLen_covers hl hm
    have hgrow := of_grow (s := setPhase .grow (setCursor s.ncur.toNat s)) rfl hrst hcover
    rw [← growTape, growTape_setPhase, advance_setPhase] at hgrow
    rw [hb] at hmove
    exact head hrst hmove hgrow
  | negative | overLimit | inside =>
    rw [hb] at hmove
    exact single hrst hmove

/-- `DECODE` and the phases of the instruction in `ir` (R118, R115). -/
theorem of_decode (hp : s.phase = .decode) (hrst : s.host.rst = []) :
    MicroReaches s (runWord s.ir s) := by
  have hdecode := phaseStep_of_decode hp
  simp only [runWord, decode, setIr_self (s := s) rfl]
  cases hop : Opcode.ofCode (codeOf s.cfg s.ir) with
  | none =>
    simp only [phaseDecode, hop] at hdecode
    exact single hrst hdecode
  | some op =>
    cases op <;> simp only [phaseDecode, hop] at hdecode
    case changeValue =>
      refine head hrst hdecode (single hrst ?_)
      exact (phaseStep_of_exCv rfl).trans (execChangeValue_setPhase .exCv s _)
    case changePointer =>
      have hmove := of_exCp (s := setPhase .exCp
        (setNcur (candidateCursor s.cursor (signedArg s.cfg s.ir)) s)) hl hm rfl hrst
      rw [movePointer_setPhase] at hmove
      exact head hrst hdecode hmove
    case get =>
      have hget := of_exGet (s := setPhase .exGet (setRep (countArg s.cfg s.ir) s)) rfl hrst
      rw [getRun_setPhase_setRep] at hget
      exact head hrst hdecode hget
    case put =>
      have hput := of_exPut (s := setPhase .exPut (beginPut (countArg s.cfg s.ir) s)) rfl
        (by rwa [setPhase_host, beginPut_host])
      rw [putRun_setPhase, setPhase_rep, beginPut_rep] at hput
      exact head hrst hdecode hput
    case branchIfZero | branchIfNotZero =>
      exact head hrst hdecode (single hrst (phaseStep_of_exBr (s := setPhase .exBr s) rfl hop))

/-- `FETCH` and all that follows is one pass of the loop of R111. -/
theorem of_fetch (hp : s.phase = .fetch) (hrst : s.host.rst = []) :
    MicroReaches s (runInstruction s) := by
  have hfetch := phaseStep_of_fetch hp
  unfold phaseFetch at hfetch
  unfold runInstruction
  cases hf : fetchWord s with
  | none =>
    rw [hf] at hfetch
    exact single hrst hfetch
  | some w =>
    rw [hf] at hfetch
    have hword := of_decode (s := setPhase .decode (setIr w s)) hl hm rfl hrst
    rw [setPhase_ir, setIr_ir, runWord_setPhase_setIr] at hword
    exact head hrst hfetch hword

end Tape

end MicroReaches

/-- Settles O44: a whole instruction phase by phase, the rest of a held one likewise, and every
other step is one transition. -/
theorem stateMachineRefinesTheStep : Obligations.StateMachineRefinesTheStep := by
  intro s hi hrst
  change MicroReaches s (step s)
  rw [step_of_quiet hrst]
  rcases sequencerStep_cases s with ⟨hp, e⟩ | ⟨hp, e⟩ | ⟨hp, e⟩ | e <;> rw [e]
  · exact .of_fetch hi.tapeLen_pos (maxGrowth_pos hi.cfgWf) hp hrst
  · exact .of_exGet hp hrst
  · exact .of_exPut hp hrst
  · exact .single hrst rfl

end Sys2Proof.Machine

namespace Sys2Proof.Machine

/-! ### ChangeValue (R131, R132) -/

theorem execChangeValue_of_lt {d : Int} {s : State} (h : s.cursor < s.tapeLen) :
    execChangeValue d s =
      .next (advance (writeCurrent (cellSum s.cfg (s.tape.read s.cursor) d) s)) := by
  simp only [execChangeValue, readCurrent_of_lt h]

/-- Settles O15: the read and the write of the current cell both pass the arbiter. -/
theorem changeValueAddsToTheCurrentCell : Obligations.ChangeValueAddsToTheCurrentCell := by
  intro d s h
  refine (execChangeValue_of_lt h).trans ?_
  rw [writeCurrent_of_lt h]
  rfl

theorem patternOf_wrap (n : Nat) (x : Int) : patternOf n (wrap n x) = patternOf n x :=
  patternOf_signedOf (patternOf_lt n x)

theorem patternOf_add (n : Nat) (x y : Int) :
    patternOf n (x + y) = (patternOf n x + patternOf n y) % 2 ^ n := by
  have h : (patternOf n (x + y) : Int) = ((patternOf n x + patternOf n y) % 2 ^ n : Nat) := by
    rw [Int.natCast_mod, Nat.cast_add, patternOf_cast, patternOf_cast, patternOf_cast,
      Int.add_emod]
  exact_mod_cast h

/-- Settles O16: the cell reads back as the wrapped sum, and `wrap` keeps range, residue and
pattern. -/
theorem changeValueObeysTheArithmeticLaw : Obligations.ChangeValueObeysTheArithmeticLaw := by
  intro d s hi h
  obtain ⟨-, -, -, -, hcell, -⟩ := Config.wf_facts hi.cfgWf
  refine ⟨_, changeValueAddsToTheCurrentCell d s h, ?_⟩
  dsimp only
  rw [Memory.read_write_same hi.tapeWf]
  refine ⟨wrap_fits hcell _, wrap_emod _ _, ?_, fun j hj => Memory.read_write_ne hj⟩
  rw [patternOf_wrap, patternOf_add]

/-! ### ChangePointer (R135, R137) -/

/-- A candidate that the arbiter passes is moved to, the tape grown to cover it and no cell changed
(R135). -/
theorem movePointer_of_passed {s : State} (hb : ∀ c ∈ s.tape, c.1 < s.tapeLen) (h0 : 0 ≤ s.ncur)
    (hlim : overLimit s.cfg (growLen s.cfg.maxGrowth s.tapeLen s.ncur.toNat) = false) :
    movePointer s = advance { s with
      cursor := s.ncur.toNat
      tapeLen := growLen s.cfg.maxGrowth s.tapeLen s.ncur.toNat } := by
  rcases movePointer_cases s with ⟨hrej, -⟩ | ⟨-, hlt, -, e⟩ | ⟨-, -, e⟩
  · exact (not_rejected h0 hlim hrej).elim
  · rw [e, growLen_of_lt (by omega)]
    rfl
  · rw [e, growTape_eq (s := setCursor s.ncur.toNat s) hb]
    rfl

/-- Settles O17: the candidate stands in `ncur`, and the arbiter passes it or rejects it. -/
theorem changePointerMovesOrFaults : Obligations.ChangePointerMovesOrFaults := by
  intro d s hi
  refine ⟨fun h0 hlim =>
    ⟨congrArg Host.Outcome.next ?_, growLen_covers hi.tapeLen_pos (maxGrowth_pos hi.cfgWf)⟩,
    fun hrej => congrArg Host.Outcome.next ?_⟩
  · exact movePointer_of_passed (s := setNcur (candidateCursor s.cursor d) s) hi.tapeBelow h0 hlim
  · exact movePointer_of_rejected (s := setNcur (candidateCursor s.cursor d) s) hrej

end Sys2Proof.Machine

namespace Sys2Proof.Machine

/-! ### Branches (R151, R152, R153) -/

/-- The two values of `pc` by the branch's condition, the sum reduced modulo `2^PC_W` (R116). -/
theorem nextPc_decide (c : Config) (pc : Nat) (p : Prop) [Decidable p] (off : Int) :
    nextPc c pc (decide p) off =
      (if p then ((pc : Int) + off) % ((2 ^ c.pcW : Nat) : Int)
        else ((pc : Int) + 1) % ((2 ^ c.pcW : Nat) : Int)).toNat := by
  by_cases h : p <;> simp [nextPc, patternOf, h]

/-- Settles O22: the branches as `BranchResolverTestsEveryBit` has them, the sum written out. -/
theorem branchesWritePcOnly : Obligations.BranchesWritePcOnly := by
  intro off s h
  obtain ⟨-, -, -, hexec⟩ := branchResolverTestsEveryBit
  obtain ⟨hz, hnz⟩ := hexec off s h
  rw [hz, hnz, ← nextPc_decide, ← nextPc_decide]
  exact ⟨rfl, rfl⟩

/-- A taken branch whose target fits `pc` goes there (R153). -/
theorem resolveBranch_taken {op : Opcode} {off : Int} {s : State} {target : Nat}
    (hc : s.cursor < s.tapeLen) (ht : taken op (s.tape.read s.cursor) = true)
    (hsum : (s.pc : Int) + off = target) (hfit : target < 2 ^ s.cfg.pcW) :
    resolveBranch op off s = .next (setPhase .fetch (setPc target s)) := by
  have hpc : nextPc s.cfg s.pc true off = target := by
    rw [nextPc, if_pos rfl, hsum, patternOf_of_fits hfit]
  rw [resolveBranch_of_lt hc, ht, endInstr, hpc]

/-- Settles O23: the branch writes `pc`, and the next pass of the loop of R111 makes the termination
test there. -/
theorem takenBranchContinuesOrEndsTheRun : Obligations.TakenBranchContinuesOrEndsTheRun := by
  intro s w off target hp hrst hc hf hbr hsum hfit
  have hrun : runInstruction s = .next (setPhase .fetch (setPc target (setIr w s))) := by
    rcases hbr with ⟨hd, hv⟩ | ⟨hd, hv⟩ <;> rw [runInstruction_of_instr hf hd]
    · exact resolveBranch_taken (op := .branchIfZero) (s := setIr w s) hc (decide_eq_true hv)
        hsum hfit
    · exact resolveBranch_taken (op := .branchIfNotZero) (s := setIr w s) hc (decide_eq_true hv)
        hsum hfit
  have hstep : step s = .next { s with ir := w, pc := target } := by
    rw [step_of_fetch_quiet hp hrst, hrun, ← hp]
    rfl
  refine ⟨hstep, fun hend => ?_, fun _ => rfl⟩
  have hlast := (runEndsAtTheProgramLength { s with ir := w, pc := target } hrst hend).1 hp
  exact (runSteps_succ hstep).trans (runSteps_succ hlast)

/-! ### `WellFormedTargets` (R155) -/

/-- The `pc` write of an instruction inside the program does not pass `prog_len` where a taken
branch's target does not: `PROG_LIMIT` is below `2^PC_W`, so the sum is not reduced (R8, R116). -/
theorem State.Inv.nextPc_le {s : State} (hi : s.Inv) {tk : Bool} {off : Int}
    (hlt : s.pc < s.prog.length)
    (ht : tk = true → 0 ≤ (s.pc : Int) + off ∧ (s.pc : Int) + off ≤ s.prog.length) :
    nextPc s.cfg s.pc tk off ≤ s.prog.length := by
  cases tk with
  | false => exact (hi.nextPc_succ hlt off).trans_le hlt
  | true =>
    obtain ⟨h0, h1⟩ := ht rfl
    obtain ⟨-, -, -, -, -, -, hlim⟩ := Config.wf_facts hi.cfgWf
    have hlen : s.prog.length < 2 ^ s.cfg.pcW := hi.progInLimit.trans_lt hlim
    have hsum : (nextPc s.cfg s.pc true off : Int) = s.pc + off :=
      nextPc_of_fits h0 (h1.trans_lt (by exact_mod_cast hlen))
    omega

/-- The only taken instructions are the branches, so the check of R155 is on every taken target. -/
theorem wellFormedTargets_taken {c : Config} {ws : List Word} (h : wellFormedTargets c ws) {k : Nat}
    {w : Word} {i : Instr} {v : Int} (hw : ws[k]? = some w) (hd : decode c w = .instr i)
    (ht : taken i.opcode v = true) :
    0 ≤ (k : Int) + i.argument ∧ (k : Int) + i.argument ≤ ws.length := by
  cases i with
  | branchIfZero off => exact h k w hw off (.inl hd)
  | branchIfNotZero off => exact h k w hw off (.inr hd)
  | changeValue | changePointer | get | put => cases ht

/-- A pass of the loop of R111. -/
theorem runInstruction_pc_le {s t : State} (hi : s.Inv) (hwf : wellFormedTargets s.cfg s.prog)
    (hpc : s.pc ≤ s.prog.length) (h : runInstruction s = .next t) : t.pc ≤ s.prog.length := by
  rcases runInstruction_cases s with ⟨-, e⟩ | ⟨w, i, hf, hd, e⟩ | ⟨w, code, -, -, e⟩ <;>
    rw [e] at h
  · cases h; exact hpc
  · have hlt : s.pc < s.prog.length := (List.getElem?_eq_some_iff.1 hf).1
    rcases exec_pcLaw h with ⟨-, e⟩ | ⟨-, e⟩ <;> rw [e]
    · exact hi.nextPc_le hlt (wellFormedTargets_taken hwf hf hd)
    · exact hpc
  · cases h; exact hpc

/-- `pc` stays, or an instruction under way ends with the `+1` of R116. -/
def PcKeptOrNext (s t : State) : Prop :=
  t.pc = s.pc ∨ s.phase.midInstr = true ∧ t.pc = nextPc s.cfg s.pc false 0

namespace PcKeptOrNext

variable {s t : State}

protected theorem movePointer (hm : s.phase.midInstr = true) : PcKeptOrNext s (movePointer s) := by
  rcases movePointer_cases s with ⟨-, e⟩ | ⟨-, -, -, e⟩ | ⟨-, -, e⟩ <;> rw [e]
  · exact .inl rfl
  · exact .inr ⟨hm, rfl⟩
  · exact .inr ⟨hm, by rw [growTape_frame]; rfl⟩

protected theorem phaseDecode : PcKeptOrNext s (phaseDecode s) := by
  unfold Machine.phaseDecode
  split
  case h_4 => exact .inl (beginPut_pc _ s)
  all_goals exact .inl rfl

protected theorem phaseExPut (hm : s.phase.midInstr = true) (h : phaseExPut s = .next t) :
    PcKeptOrNext s t := by
  unfold Machine.phaseExPut at h
  split at h
  · cases h; exact .inr ⟨hm, rfl⟩
  · split at h
    · cases h
    · split at h <;> cases h <;> exact .inl rfl

/-- Every transition of R118 but those of `EX_BR` and `LOAD_COMMIT`. -/
protected theorem phaseStep (hbr : s.phase ≠ .exBr) (hlc : s.phase ≠ .loadCommit)
    (h : phaseStep s = .next t) : PcKeptOrNext s t := by
  unfold Machine.phaseStep at h
  cases hp : s.phase <;> rw [hp] at h <;> dsimp only at h
  case idle =>
    rcases acceptCommand_next h with rfl | rfl | ⟨n, -, rfl⟩ | rfl | rfl <;> exact .inl rfl
  case loadRecv =>
    cases h
    rcases receiveElement_cases s with e | e | ⟨x, -, e⟩ | e <;> rw [e] <;> exact .inl rfl
  case loadCommit => exact (hlc hp).elim
  case fetch => cases h; unfold phaseFetch; split <;> exact .inl rfl
  case decode => cases h; exact .phaseDecode
  case exCv =>
    obtain ⟨-, v, rfl⟩ := execChangeValue_next h
    refine .inr ⟨congrArg _ hp, ?_⟩
    rw [advance_pc, writeCurrent_cfg, writeCurrent_pc]
  case exCp =>
    cases h
    rcases phaseExCp_cases s with e | ⟨-, e⟩ <;> rw [e]
    · exact .movePointer (congrArg _ hp)
    · exact .inl rfl
  case grow =>
    cases h
    unfold phaseGrow
    split
    · exact .inl rfl
    · exact .inr ⟨congrArg _ hp, rfl⟩
  case exBr => exact (hbr hp).elim
  case exGet =>
    cases h
    unfold phaseExGet
    split
    · exact .inr ⟨congrArg _ hp, rfl⟩
    · exact .inl (getIteration_pc _ s)
  case exPut => exact .phaseExPut (congrArg _ hp) h

/-- Every step of the sequencer that starts no instruction and is in neither of the two phases. -/
protected theorem sequencerStep (hf : s.phase ≠ .fetch) (hbr : s.phase ≠ .exBr)
    (hlc : s.phase ≠ .loadCommit) (h : sequencerStep s = .next t) : PcKeptOrNext s t := by
  rcases sequencerStep_cases s with ⟨hp, -⟩ | ⟨hp, e⟩ | ⟨hp, e⟩ | e
  · exact (hf hp).elim
  · rw [e] at h; cases h
    rcases getRun_frame s.rep s with e | ⟨e, -⟩ <;> rw [e]
    · exact .inr ⟨congrArg _ hp, rfl⟩
    · exact .inl rfl
  · rw [e] at h
    rcases putRun_frame h with e | ⟨e, -⟩ <;> rw [e]
    · exact .inr ⟨congrArg _ hp, rfl⟩
    · exact .inl rfl
  · rw [e] at h; exact .phaseStep hbr hlc h

/-- The `+1` of an instruction under way does not pass `prog_len` (R22, R116). -/
theorem pc_le (hk : PcKeptOrNext s t) (hi : s.Inv) (hpc : s.pc ≤ s.prog.length) :
    t.pc ≤ s.prog.length := by
  rcases hk with e | ⟨hm, e⟩ <;> rw [e]
  · exact hpc
  · exact hi.nextPc_le (hi.pcInProg hm) nofun

end PcKeptOrNext

/-- Settles O24: the program is kept as `StoresKept` has it, and `pc` moves by a checked branch or
by the `+1` of an instruction inside the program. -/
theorem wellFormedTargetsKeepPcInRange : Obligations.WellFormedTargetsKeepPcInRange := by
  intro s t hi hwf hpc hbr hlc hr h
  have hprog : t.prog = s.prog := (StoresKept.step hr hlc h).prog
  have hs : (rstSampled s).Inv := hi.setHost _
  rw [step_of_running hr] at h
  refine ⟨hprog, hprog ▸ ?_⟩
  by_cases hp : s.phase = .fetch
  · rw [sequencerStep_of_fetch (s := rstSampled s) hp] at h
    exact runInstruction_pc_le (s := rstSampled s) hs hwf hpc h
  · exact (PcKeptOrNext.sequencerStep (s := rstSampled s) hp hbr hlc h).pc_le hs hpc

end Sys2Proof.Machine

namespace Sys2Proof.Machine

/-! ### A Get that every poll answers (R171, R172) -/

section Get

variable {s : State}

/-- A Get whose `n` polls are all answered ends after them (R171). -/
theorem getRun_of_answers {n : Nat} (hw : s.tape.wf = true) (hc : s.cursor < s.tapeLen)
    (ha : ∀ k, k < n → s.inp.answer k ≠ .wait) :
    getRun n s = advance (setRep 0 (afterGet s n)) := by
  rw [getRun_answers hw hc le_rfl ha, Nat.sub_self]
  rfl

/-- Settles O25: the Get goes through all of its answers and ends. -/
theorem getStoresTheLastAnswer : Obligations.GetStoresTheLastAnswer :=
  fun _ _ hi hc ha => congrArg Host.Outcome.next (getRun_of_answers hi.tapeWf hc ha)

/-- The current cell reads as the last answer left it (R173). -/
theorem read_tapeAfterGet_succ {k : Nat} {v : Int} (hw : s.tape.wf = true)
    (hv : (s.inp.answer k).cell s.cfg = some v) :
    (tapeAfterGet s (k + 1)).read s.cursor = v := by
  simp only [tapeAfterGet, hv]
  exact Memory.read_write_same hw

/-- In a cell wider than a byte, a byte is the integer it is (R171, R172 (h)). -/
theorem cellOfByte_of_wide {c : Config} (hc : 8 < c.cellW) (b : Byte) :
    cellOfByte c b = (b.toNat : Int) :=
  wrap_of_fits (by omega) (fitsSigned_natCast hc b.isLt)

/-- Settles O53: the tape is the one `GetStoresTheLastAnswer` gives, and the last answer is read
back from it. -/
theorem getStoresBytesAsIntegers : Obligations.GetStoresBytesAsIntegers := by
  intro n s hi hwide hc ha
  refine ⟨_, getStoresTheLastAnswer n s hi hc ha, ?_, ?_⟩
  · rintro rfl
    rfl
  · rintro m rfl
    refine ⟨fun b hb => ?_, fun he => ?_⟩
    · calc (tapeAfterGet s (m + 1)).read s.cursor
          = cellOfByte s.cfg b := read_tapeAfterGet_succ hi.tapeWf (by rw [hb]; rfl)
        _ = b.toNat := cellOfByte_of_wide hwide b
    · exact read_tapeAfterGet_succ hi.tapeWf (by rw [he]; rfl)

end Get

/-! ### A Put whose every byte is taken (R174, R175, R176) -/

/-- Only the last byte of a transaction carries `out_last` (R162). -/
theorem outBytes_replicate_succ (k : Nat) (b : Byte) :
    outBytes (List.replicate (k + 1) b) =
      List.replicate k (.outByte b false) ++ [.outByte b true] := by
  induction k with
  | zero => rfl
  | succ k ih => exact congrArg (.outByte b false :: ·) ih

/-- A Put whose `n` offers are all taken sends its bytes and ends (R175). -/
theorem putRun_of_taken {n : Nat} {s : State} {v : Int} (hv : readCurrent s = some v)
    (hr : ∀ k, k < n → s.out.ready k = true) :
    putRun n s = .next (advance { s with
      out := s.out.drop n
      trace := s.trace ++ outBytes (List.replicate n (byteOfCell v))
      rep := 0 }) := by
  cases n with
  | zero => simp [putRun, setRep, outBytes]
  | succ k =>
    have hlast : outReady (afterPut s (byteOfCell v) k) = true := by
      rw [outReady_afterPut]
      exact hr k k.lt_add_one
    rw [putRun_taken hv k.lt_add_one fun j hj => hr j (Nat.lt_succ_of_lt hj),
      Nat.add_sub_cancel_left, putRun_of_ready (s := afterPut s (byteOfCell v) k) hv hlast]
    simp [putRun, sendByte_eq, afterPut, setRep, outBytes_replicate_succ]

/-- Settles O28: the start of the Put, then all of its bytes. -/
theorem putSendsOneBatch : Obligations.PutSendsOneBatch := by
  intro n s hc hr
  have hbegin := beginPut_of_lt n hc
  have hv : readCurrent (beginPut n s) = some (s.tape.read s.cursor) := by
    rw [hbegin]
    exact readCurrent_of_lt hc
  refine (putRun_of_taken hv (by rwa [hbegin])).trans ?_
  rw [hbegin]
  simp [advance_eq, outWrite]

end Sys2Proof.Machine

namespace Sys2Proof.Machine

/-! ### The use of the two ports (R160) -/

/-- What happens between `s` and `t` on the ports is input only. -/
def InputOnly (s t : State) : Prop := t.out = s.out ∧ TraceGrows PortEvent.isInput s t

/-- What happens between `s` and `t` on the ports is output only. -/
def OutputOnly (s t : State) : Prop := t.inp = s.inp ∧ TraceGrows (fun e => !e.isInput) s t

section PortUse

variable {s t u : State}

theorem InputOnly.trans (h : InputOnly s t) (h' : InputOnly t u) : InputOnly s u :=
  ⟨h'.1.trans h.1, h.2.trans h'.2⟩

theorem OutputOnly.trans (h : OutputOnly s t) (h' : OutputOnly t u) : OutputOnly s u :=
  ⟨h'.1.trans h.1, h.2.trans h'.2⟩

namespace SamePorts

theorem inputOnly (h : SamePorts s t) : InputOnly s t := ⟨h.out, .of_eq h.trace⟩

theorem outputOnly (h : SamePorts s t) : OutputOnly s t := ⟨h.inp, .of_eq h.trace⟩

/-! #### What uses no port -/

protected theorem writeCurrent (v : Int) (s : State) : SamePorts s (writeCurrent v s) :=
  ⟨writeCurrent_trace v s, writeCurrent_inp v s, writeCurrent_out v s⟩

protected theorem execChangeValue {d : Int} (h : execChangeValue d s = .next t) :
    SamePorts s t := by
  obtain ⟨-, v, rfl⟩ := execChangeValue_next h
  have hw := SamePorts.writeCurrent (cellSum s.cfg v d) s
  exact ⟨hw.trace, hw.inp, hw.out⟩

protected theorem resolveBranch {op : Opcode} {off : Int} (h : resolveBranch op off s = .next t) :
    SamePorts s t := by
  obtain ⟨-, tk, rfl⟩ := resolveBranch_next h
  exact ⟨rfl, rfl, rfl⟩

protected theorem movePointer (s : State) : SamePorts s (movePointer s) := by
  rcases movePointer_cases s with ⟨-, e⟩ | ⟨-, -, -, e⟩ | ⟨-, -, e⟩ <;> rw [e]
  · exact ⟨rfl, rfl, rfl⟩
  · exact ⟨rfl, rfl, rfl⟩
  · rw [growTape_frame]
    exact ⟨rfl, rfl, rfl⟩

/-- Every transition of R118 but those from `DECODE`, `EX_GET` and `EX_PUT`. -/
protected theorem phaseStep (hd : s.phase ≠ .decode) (hg : s.phase ≠ .exGet)
    (ho : s.phase ≠ .exPut) (h : phaseStep s = .next t) : SamePorts s t := by
  unfold Machine.phaseStep at h
  cases hp : s.phase <;> rw [hp] at h <;> dsimp only at h
  case idle =>
    rcases acceptCommand_next h with rfl | rfl | ⟨n, -, rfl⟩ | rfl | rfl <;> exact ⟨rfl, rfl, rfl⟩
  case loadRecv =>
    cases h
    rcases receiveElement_cases s with e | e | ⟨x, -, e⟩ | e <;> rw [e] <;> exact ⟨rfl, rfl, rfl⟩
  case loadCommit =>
    cases h
    rcases commitLoad_cases s with ⟨k, -, e⟩ | e <;> rw [e] <;> exact ⟨rfl, rfl, rfl⟩
  case fetch => cases h; unfold phaseFetch; split <;> exact ⟨rfl, rfl, rfl⟩
  case decode => exact (hd hp).elim
  case exCv => exact .execChangeValue h
  case exCp =>
    cases h
    rcases phaseExCp_cases s with e | ⟨-, e⟩ <;> rw [e]
    · exact .movePointer s
    · exact ⟨rfl, rfl, rfl⟩
  case grow => cases h; unfold phaseGrow; split <;> exact ⟨rfl, rfl, rfl⟩
  case exBr => obtain ⟨-, tk, off, rfl⟩ := phaseExBr_next h; exact ⟨rfl, rfl, rfl⟩
  case exGet => exact (hg hp).elim
  case exPut => exact (ho hp).elim

/-- `DECODE` of every word but a Put. -/
protected theorem phaseDecode (h : Opcode.ofCode (codeOf s.cfg s.ir) ≠ some .put) :
    SamePorts s (phaseDecode s) := by
  unfold Machine.phaseDecode
  split
  case h_4 hput => exact (h hput).elim
  all_goals exact ⟨rfl, rfl, rfl⟩

end SamePorts

/-! #### Get and Put -/

protected theorem InputOnly.getIteration (n : Nat) (s : State) : InputOnly s (getIteration n s) :=
  ⟨by rw [getIteration_frame], getIteration_traceGrows n s⟩

/-- A Get, to its end or to a hold. -/
protected theorem InputOnly.getRun (n : Nat) (s : State) : InputOnly s (getRun n s) := by
  induction n generalizing s with
  | zero => exact ⟨rfl, .of_eq rfl⟩
  | succ n ih =>
    by_cases ha : inPoll s = .wait
    · rw [getRun_of_wait ha]
      exact ⟨rfl, .of_eq rfl⟩
    · rw [getRun_of_answer ha]
      exact (InputOnly.getIteration n s).trans (ih _)

protected theorem OutputOnly.beginPut (n : Nat) (s : State) : OutputOnly s (beginPut n s) :=
  ⟨by rw [beginPut_frame], beginPut_traceGrows n s⟩

protected theorem OutputOnly.sendByte (n : Nat) (v : Int) (s : State) :
    OutputOnly s (sendByte n v s) :=
  ⟨rfl, [.outByte (byteOfCell v) (decide (n = 0))], rfl, by simp [PortEvent.isInput]⟩

/-- The bytes of a Put, to its end or to a hold. -/
protected theorem OutputOnly.putRun {n : Nat} (h : putRun n s = .next t) : OutputOnly s t := by
  induction n generalizing s with
  | zero => cases h; exact ⟨rfl, .of_eq rfl⟩
  | succ n ih =>
    cases hv : readCurrent s with
    | none => rw [putRun_of_blocked hv] at h; cases h
    | some v =>
      cases hr : outReady s with
      | true =>
        rw [putRun_of_ready hv hr] at h
        exact (OutputOnly.sendByte n v s).trans (ih h)
      | false => rw [putRun_of_stall hv hr] at h; cases h; exact ⟨rfl, .of_eq rfl⟩

/-- `DECODE` starts the transaction of a Put and offers no byte yet. -/
theorem phaseDecode_ports (s : State) :
    OutputOnly s (phaseDecode s) ∧ (phaseDecode s).out = s.out := by
  by_cases hput : Opcode.ofCode (codeOf s.cfg s.ir) = some .put
  · have e : phaseDecode s = setPhase .exPut (beginPut (countArg s.cfg s.ir) s) := by
      simp only [phaseDecode, hput]
    rw [e]
    exact ⟨.beginPut _ s, by rw [setPhase_out, beginPut_frame]⟩
  · have hk := SamePorts.phaseDecode hput
    exact ⟨hk.outputOnly, hk.out⟩

/-! #### A whole instruction -/

/-- Which port an instruction uses. -/
theorem exec_ports {i : Instr} (h : exec i s = .next t) :
    SamePorts s t ∨ (∃ n, i = .get n ∧ InputOnly s t) ∨ (∃ n, i = .put n ∧ OutputOnly s t) := by
  cases i with
  | changeValue d => exact .inl (.execChangeValue h)
  | changePointer d =>
    cases h
    have hm := SamePorts.movePointer (setNcur (candidateCursor s.cursor d) s)
    exact .inl ⟨hm.trace, hm.inp, hm.out⟩
  | get n => cases h; exact .inr (.inl ⟨n, rfl, .getRun n s⟩)
  | put n => exact .inr (.inr ⟨n, rfl, (OutputOnly.beginPut n s).trans (.putRun h)⟩)
  | branchIfZero off => exact .inl (.resolveBranch h)
  | branchIfNotZero off => exact .inl (.resolveBranch h)

/-- Neither port is used, or the word at `pc` is the instruction that may use the one that is. -/
def PortsByWord (s t : State) : Prop :=
  SamePorts s t ∨
  (∃ w n, fetchWord s = some w ∧ decode s.cfg w = .instr (.get n) ∧ InputOnly s t) ∨
  (∃ w n, fetchWord s = some w ∧ decode s.cfg w = .instr (.put n) ∧ OutputOnly s t)

/-- A pass of the loop of R111 uses the port of the word at `pc`. -/
theorem runInstruction_ports (h : runInstruction s = .next t) : PortsByWord s t := by
  rcases runInstruction_cases s with ⟨-, e⟩ | ⟨w, i, hf, hd, e⟩ | ⟨w, code, -, -, e⟩ <;> rw [e] at h
  · cases h; exact .inl ⟨rfl, rfl, rfl⟩
  · rcases exec_ports h with hk | ⟨n, rfl, hg⟩ | ⟨n, rfl, ho⟩
    · exact .inl ⟨hk.trace, hk.inp, hk.out⟩
    · exact .inr (.inl ⟨w, n, hf, hd, hg⟩)
    · exact .inr (.inr ⟨w, n, hf, hd, ho⟩)
  · cases h; exact .inl ⟨rfl, rfl, rfl⟩

/-! #### A step -/

/-- Sampling `rst` is no port transaction (R220). -/
theorem SamePorts.of_rstSampled (h : SamePorts (rstSampled s) t) : SamePorts s t :=
  ⟨h.trace, h.inp, h.out⟩

/-- Every step of the sequencer but an instruction's or the end of a held one's. -/
theorem SamePorts.sequencerStep (hf : s.phase ≠ .fetch) (hd : s.phase ≠ .decode)
    (hg : s.phase ≠ .exGet) (ho : s.phase ≠ .exPut) (h : sequencerStep s = .next t) :
    SamePorts s t := by
  rcases sequencerStep_cases s with ⟨hp, -⟩ | ⟨hp, -⟩ | ⟨hp, -⟩ | e
  · exact (hf hp).elim
  · exact (hg hp).elim
  · exact (ho hp).elim
  · rw [e] at h
    exact .phaseStep hd hg ho h

theorem sequencerStep_of_exGet (hp : s.phase = .exGet) :
    sequencerStep s = .next (getRun s.rep s) := by
  simp only [sequencerStep, hp]

theorem sequencerStep_of_exPut (hp : s.phase = .exPut) : sequencerStep s = putRun s.rep s := by
  simp only [sequencerStep, hp]

theorem sequencerStep_of_decode (hp : s.phase = .decode) :
    sequencerStep s = .next (phaseDecode s) := by
  simp only [sequencerStep, phaseStep, hp]

end PortUse

/-- Settles O49: reset uses no port, and otherwise each phase is as its lemma above has it, at `FETCH`
by the word at `pc`. -/
theorem portsActOnlyInGetAndPut : Obligations.PortsActOnlyInGetAndPut := by
  intro s t h
  rcases stepUnder_next h with ⟨-, rfl⟩ | ⟨-, h⟩
  · have hk : SamePorts s (assertReset (rstSampled s)) := ⟨rfl, rfl, rfl⟩
    exact ⟨fun _ _ _ _ => hk, fun _ _ => hk.outputOnly, fun _ _ => hk.inputOnly, fun _ _ => hk,
      fun _ => hk.inputOnly, fun _ => hk.outputOnly,
      fun _ => ⟨hk.inp, hk.out, .of_eq hk.trace, fun _ => hk.trace⟩⟩
  have word (hp : s.phase = .fetch) : PortsByWord s t := by
    rw [sequencerStep_of_fetch (s := rstSampled s) hp] at h
    exact (runInstruction_ports h).imp_left .of_rstSampled
  refine ⟨fun hf hd hg ho => ?_, fun hp hno => ?_, fun hp hno => ?_, fun hp hno => ?_, fun hp => ?_,
    fun hp => ?_, fun hp => ?_⟩
  · exact .of_rstSampled (.sequencerStep (s := rstSampled s) hf hd hg ho h)
  · rcases word hp with hk | ⟨w, n, hf, hd, -⟩ | ⟨-, -, -, -, ho⟩
    · exact hk.outputOnly
    · exact (hno w n hf hd).elim
    · exact ho
  · rcases word hp with hk | ⟨-, -, -, -, hg⟩ | ⟨w, n, hf, hd, -⟩
    · exact hk.inputOnly
    · exact hg
    · exact (hno w n hf hd).elim
  · rcases word hp with hk | ⟨w, n, hf, hd, -⟩ | ⟨w, n, hf, hd, -⟩
    · exact hk
    · exact ((hno w n hf).1 hd).elim
    · exact ((hno w n hf).2 hd).elim
  · rw [sequencerStep_of_exGet (s := rstSampled s) hp] at h
    cases h
    exact InputOnly.getRun _ (rstSampled s)
  · rw [sequencerStep_of_exPut (s := rstSampled s) hp] at h
    exact OutputOnly.putRun (s := rstSampled s) h
  · rw [sequencerStep_of_decode (s := rstSampled s) hp] at h
    cases h
    obtain ⟨⟨hinp, htrace⟩, hout⟩ := phaseDecode_ports (rstSampled s)
    exact ⟨hinp, hout, htrace, fun hput => (SamePorts.phaseDecode (s := rstSampled s) hput).trace⟩

end Sys2Proof.Machine

namespace Sys2Proof.Machine

/-! ### INSPECT (R180, R181) -/

theorem acceptCommand_inspect {s : State} {cs : List (Option Command)}
    (hc : s.host.cmds = some .inspect :: cs) :
    acceptCommand s = .next (inspect (commandTaken s)) := by
  simp only [acceptCommand, hc]

theorem step_of_inspect {s : State} {cs : List (Option Command)} (hp : s.phase = .idle)
    (hrst : s.host.rst = []) (hc : s.host.cmds = some .inspect :: cs) :
    step s = .next (inspect (commandTaken s)) := by
  rw [step_of_idle hp (rstNow_of_nil hrst), rstSampled_of_nil hrst, acceptCommand_inspect hc]

/-- The current cell as the arbiter of R56 answers it. -/
theorem readCurrent_eq_ite (s : State) :
    readCurrent s = if s.cursor < s.tapeLen then some (s.tape.read s.cursor) else none := rfl

/-- Taking the command leaves what INSPECT reads. -/
theorem snapshotOf_commandTaken (s : State) : snapshotOf (commandTaken s) = snapshotOf s := rfl

/-- Settles O39: INSPECT appends the snapshot to the reports, and at `IDLE` the invariant keeps the
cursor inside the tape. -/
theorem inspectIsAPureAccessor : Obligations.InspectIsAPureAccessor := by
  intro s cs hp hrst hc
  constructor
  · rw [step_of_inspect hp hrst hc, inspect, snapshotOf_commandTaken, snapshotOf,
      readCurrent_eq_ite]
    simp only [commandTaken, setHost, hc, List.tail_cons]
  · intro hi
    have hin : s.cursor < s.tapeLen := hi.cursorInTape (by simp [hp])
    exact readCurrent_of_lt hin

end Sys2Proof.Machine

namespace Sys2Proof.Machine

/-! ### Faults (R191 to R195) -/

/-- Settles O36, kind by kind. -/
theorem responseCodes : Obligations.ResponseCodes := by
  refine ⟨rfl, rfl, rfl, rfl, fun k => ?_⟩
  cases k <;> decide

section Responses

variable {s : State} {r : Response}

/-- An instruction responds exactly when it is a ChangePointer that the arbiter stops (R193). -/
theorem exec_responds_iff {i : Instr} :
    (∃ t, exec i s = .next t ∧ Responds s t r) ↔
      ∃ d, i = .changePointer d ∧ Rejected s.cfg (candidateCursor s.cursor d) s.tapeLen ∧
        r = { kind := .memoryOutOfBounds, info := candidateCursor s.cursor d } := by
  constructor
  · rintro ⟨t, h, hr⟩
    rcases exec_host h with hhost | ⟨d, hi, hrej, rfl⟩
    · exact (not_responds_of_host_eq hhost hr).elim
    · exact ⟨d, hi, hrej, ((responds_respond_iff (setNcur_host s _)).1 hr).symm⟩
  · rintro ⟨d, rfl, hrej, rfl⟩
    have hmove := movePointer_of_rejected (s := setNcur (candidateCursor s.cursor d) s) hrej
    exact ⟨_, congrArg Host.Outcome.next hmove, rfl⟩

/-- The causes R193 lists for the word at `pc`, with what R192 records for each. -/
theorem runInstruction_responds_iff {w : Word} (hf : fetchWord s = some w) :
    (∃ t, runInstruction s = .next t ∧ Responds s t r) ↔
      (∃ c : Nat, decode s.cfg w = .invalid c ∧ r = { kind := .invalidCommand, info := c }) ∨
      (∃ d, decode s.cfg w = .instr (.changePointer d) ∧
        Rejected s.cfg (candidateCursor s.cursor d) s.tapeLen ∧
        r = { kind := .memoryOutOfBounds, info := candidateCursor s.cursor d }) := by
  cases hd : decode s.cfg w with
  | invalid c =>
    have hresp : Responds s (raiseFault .invalidCommand c (setIr w s)) r ↔
        { kind := .invalidCommand, info := c } = r := responds_respond_iff (setIr_host s w)
    simp [runInstruction_of_invalid hf hd, hresp, eq_comm]
  | instr i =>
    simpa [runInstruction_of_instr hf hd, Responds] using
      exec_responds_iff (s := setIr w s) (i := i) (r := r)

end Responses

/-- Settles O35: a step at `FETCH` is one pass of the loop of R111, and sampling `rst` changes
nothing that decides about its response. -/
theorem faultCausesOfAnInstruction : Obligations.FaultCausesOfAnInstruction := by
  intro s w r hp hr hf
  rw [step_of_fetch hp hr]
  exact runInstruction_responds_iff (s := rstSampled s) hf

/-! #### What a response leaves unchanged (R194, R195) -/

/-- `t` is `s` with `r` delivered, `ir` and `ncur` being all else that may differ (R195). -/
def DeliversOnly (r : Response) (s t : State) : Prop :=
  ∃ w x, t = respond r (setNcur x (setIr w s))

section Deliveries

variable {s t : State} {r : Response}

theorem not_responds_of_reports_eq (h : t.host.reports = s.host.reports) : ¬ Responds s t r := by
  simp [Responds, h]

/-- No command responds when it is accepted; INSPECT reports a snapshot (R180). -/
theorem not_responds_of_acceptCommand (h : acceptCommand s = .next t) : ¬ Responds s t r := by
  rcases acceptCommand_next h with rfl | rfl | ⟨n, -, rfl⟩ | rfl | rfl
  case inr.inr.inr.inr => simp [Responds, inspect, commandTaken]
  all_goals exact not_responds_of_reports_eq rfl

theorem receiveElement_reports (s : State) :
    (receiveElement s).host.reports = s.host.reports := by
  rcases receiveElement_cases s with e | e | ⟨x, -, e⟩ | e <;> rw [e] <;> rfl

/-- A pointer move leaves the host port alone, or the arbiter stops it before any write (R135). -/
theorem movePointer_host (s : State) : (movePointer s).host = s.host ∨
    movePointer s = raiseFault .memoryOutOfBounds s.ncur s := by
  rcases movePointer_cases s with ⟨-, e⟩ | ⟨-, -, -, e⟩ | ⟨-, -, e⟩
  · exact .inr e
  · rw [e]; exact .inl rfl
  · rw [e, growTape_frame]; exact .inl rfl

/-- `DECODE` leaves the host port alone, or the code is illegal (R115, R118). -/
theorem phaseDecode_host (s : State) : (phaseDecode s).host = s.host ∨
    phaseDecode s = raiseFault .invalidCommand (codeOf s.cfg s.ir) s := by
  unfold phaseDecode
  split
  case h_4 => exact .inl (beginPut_host _)
  case h_7 => exact .inr rfl
  all_goals exact .inl rfl

theorem phaseExPut_host (h : phaseExPut s = .next t) : t.host = s.host := by
  unfold phaseExPut at h
  split at h
  · cases h; rfl
  · split at h
    · cases h
    · split at h <;> cases h <;> rfl

theorem phaseExGet_host (s : State) : (phaseExGet s).host = s.host := by
  unfold phaseExGet
  split
  · rfl
  · rw [getIteration_frame]

namespace DeliversOnly

/-- One response is delivered, so it is `r`. -/
theorem of_respond {q : Response} {w : Word} {x : Int}
    (h : Responds s (respond q (setNcur x (setIr w s))) r) :
    DeliversOnly r s (respond q (setNcur x (setIr w s))) := by
  obtain rfl := (responds_respond_iff rfl).1 h
  exact ⟨w, x, rfl⟩

/-- A fault raised from the state as it stands. -/
theorem of_raiseFault {k : RspKind} {info : Int} (h : Responds s (raiseFault k info s) r) :
    DeliversOnly r s (raiseFault k info s) :=
  of_respond (w := s.ir) (x := s.ncur) h

protected theorem exec {i : Instr} (h : exec i s = .next t) (hr : Responds s t r) :
    DeliversOnly r s t := by
  rcases exec_host h with hhost | ⟨d, -, -, rfl⟩
  · exact (not_responds_of_host_eq hhost hr).elim
  · exact of_respond (w := s.ir) hr

protected theorem runInstruction (h : runInstruction s = .next t) (hr : Responds s t r) :
    DeliversOnly r s t := by
  rcases runInstruction_cases s with ⟨-, e⟩ | ⟨w, i, -, -, e⟩ | ⟨w, code, -, -, e⟩ <;> rw [e] at h
  · cases h
    exact of_respond (w := s.ir) (x := s.ncur) hr
  · obtain ⟨w', x, rfl⟩ := DeliversOnly.exec h hr
    exact ⟨w', x, rfl⟩
  · cases h
    exact of_respond (w := w) (x := s.ncur) hr

/-- A LOAD fails from the state as it stands (R105); its commit responds `OK`. -/
protected theorem commitLoad (hr : Responds s (commitLoad s) r) (hk : r.kind ≠ .ok) :
    DeliversOnly r s (commitLoad s) := by
  rcases commitLoad_cases s with ⟨k, -, e⟩ | e <;> rw [e] at hr ⊢
  · exact of_raiseFault hr
  · obtain rfl := (responds_respond_iff rfl).1 hr
    exact (hk rfl).elim

protected theorem phaseFetch (hr : Responds s (phaseFetch s) r) :
    DeliversOnly r s (phaseFetch s) := by
  cases hf : fetchWord s with
  | none =>
    have e : phaseFetch s = endRun s := by simp only [phaseFetch, hf]
    rw [e] at hr ⊢
    exact of_raiseFault hr
  | some w =>
    have e : phaseFetch s = setPhase .decode (setIr w s) := by simp only [phaseFetch, hf]
    rw [e] at hr
    exact (not_responds_of_reports_eq (s := s) rfl hr).elim

protected theorem phaseDecode (hr : Responds s (phaseDecode s) r) :
    DeliversOnly r s (phaseDecode s) := by
  rcases phaseDecode_host s with hhost | e
  · exact (not_responds_of_host_eq hhost hr).elim
  · rw [e] at hr ⊢
    exact of_raiseFault hr

protected theorem phaseExCp (hr : Responds s (phaseExCp s) r) :
    DeliversOnly r s (phaseExCp s) := by
  rcases phaseExCp_cases s with e | ⟨-, e⟩ <;> rw [e] at hr ⊢
  · rcases movePointer_host s with hhost | e'
    · exact (not_responds_of_host_eq hhost hr).elim
    · rw [e'] at hr ⊢
      exact of_raiseFault hr
  · exact (not_responds_of_reports_eq (s := s) rfl hr).elim

/-- Every transition of R118 that responds with a fault (R194). -/
protected theorem phaseStep (h : phaseStep s = .next t) (hr : Responds s t r)
    (hk : r.kind ≠ .ok) : DeliversOnly r s t := by
  unfold Machine.phaseStep at h
  cases hp : s.phase <;> rw [hp] at h <;> dsimp only at h
  case idle => exact (not_responds_of_acceptCommand h hr).elim
  case loadRecv => cases h; exact (not_responds_of_reports_eq (receiveElement_reports s) hr).elim
  case loadCommit => cases h; exact .commitLoad hr hk
  case fetch => cases h; exact .phaseFetch hr
  case decode => cases h; exact .phaseDecode hr
  case exCv => exact .exec (i := .changeValue _) h hr
  case exCp => cases h; exact .phaseExCp hr
  case grow =>
    have hhost : (phaseGrow s).host = s.host := by unfold phaseGrow; split <;> rfl
    cases h
    exact (not_responds_of_host_eq hhost hr).elim
  case exBr =>
    obtain ⟨-, tk, off, rfl⟩ := phaseExBr_next h
    exact (not_responds_of_host_eq (s := s) rfl hr).elim
  case exGet => cases h; exact (not_responds_of_host_eq (phaseExGet_host s) hr).elim
  case exPut => exact (not_responds_of_host_eq (phaseExPut_host h) hr).elim

/-- Every step of the sequencer that responds with a fault (R194). -/
protected theorem sequencerStep (h : sequencerStep s = .next t) (hr : Responds s t r)
    (hk : r.kind ≠ .ok) : DeliversOnly r s t := by
  rcases sequencerStep_cases s with ⟨-, e⟩ | ⟨-, e⟩ | ⟨-, e⟩ | e <;> rw [e] at h
  · exact .runInstruction h hr
  · exact .exec (i := .get s.rep) h hr
  · obtain ⟨o, tr, rep, pc, ph, rfl⟩ := putRun_writes h
    exact (not_responds_of_host_eq (s := s) rfl hr).elim
  · exact .phaseStep h hr hk

end DeliversOnly

end Deliveries

/-- Settles O34: the step delivers the response and writes no more than `ir` and `ncur`, working
registers that `SameArch` does not hold; that `rst` is sampled shows in the host port alone. -/
theorem faultLeavesTheStateUntouched : Obligations.FaultLeavesTheStateUntouched := by
  intro s t r hrst h hr hk
  rw [step_of_running hrst] at h
  obtain ⟨w, x, rfl⟩ := DeliversOnly.sequencerStep (s := rstSampled s) h hr hk
  exact ⟨⟨rfl, rfl, rfl, rfl, rfl, rfl, rfl, rfl⟩, ⟨rfl, rfl, rfl⟩, rfl, rfl, rfl⟩

end Sys2Proof.Machine

namespace Sys2Proof.Machine

/-! ### Reset and the empty LOAD (R220, R222) -/

/-- Settles O4: the LOAD runs to the commit of no element, whose fresh state is the one `rst` gives. -/
theorem emptyLoadEqualsReset : Obligations.EmptyLoadEqualsReset := by
  intro s cs hp hrst hc
  have hload := runSteps_load (es := []) (rest := s.host.elems) hp hrst hc rfl (Nat.zero_le _)
  rw [commitLoad_of_wellFormed List.not_mem_nil] at hload
  exact ⟨_, _, hload, step_of_rst rfl, ⟨rfl, rfl, rfl, rfl, rfl, rfl, rfl, rfl⟩, ⟨rfl, rfl, rfl⟩⟩

/-- Settles O2: the step is the reset, and every cell of its fresh tape is unlisted. -/
theorem assertedResetFromAnyState : Obligations.AssertedResetFromAnyState := by
  intro s hr
  have hcells : ∀ i, i < s.cfg.initCap → tapeRead (assertReset (rstSampled s)) i = some 0 :=
    fun _ hi => tapeRead_of_lt hi
  exact ⟨_, step_of_rst hr, rfl, rfl, hcells, rfl, rfl, rfl, rfl, rfl, rfl, ⟨rfl, rfl, rfl⟩, rfl⟩

end Sys2Proof.Machine

namespace Sys2Proof.Machine

/-! ### The reset state, and a word placed at `pc` (log entry 7) -/

/-- Settles O3: the reset state is a fresh LOAD of no words, in an admissible configuration. -/
theorem resetMeetsTheInvariant : Obligations.ResetMeetsTheInvariant :=
  freshLoad_inv (ws := []) (s := State.reset) (by decide) rfl (Nat.zero_le _) (by simp)
    (Nat.two_pow_pos _) (Nat.two_pow_pos _) (fun _ _ => zero_fitsSigned _)
    (fun _ _ _ => zero_fitsSigned _)

/-- A program shorter than `i` is filled up to `i`, so that the placed word stands there. -/
theorem putWordAt_getElem? (ws : List Word) (i : Nat) (w : Word) :
    (putWordAt ws i w)[i]? = some w := by
  have hlen : (ws.take i ++ List.replicate (i - ws.length) 0).length = i := by
    rw [List.length_append, List.length_take, List.length_replicate]
    omega
  rw [putWordAt, List.getElem?_append_right hlen.le, hlen, Nat.sub_self, List.getElem?_cons_zero]

/-- The placed word is the one fetched next. -/
theorem fetchWord_placeWord (w : Word) (s : State) : fetchWord (placeWord w s) = some w :=
  putWordAt_getElem? s.prog s.pc w

/-- What the table decoder reads, `Decode` reads in the default configuration (R86). -/
theorem decode_of_decodeTableWord {nbits w : Nat} {i : Instr}
    (h : decodeTableWord nbits w = some i) :
    decode Config.defaults (w % 2 ^ nbits) = .instr i := by
  unfold decodeTableWord at h
  split at h
  · split at h <;> cases h
    assumption
  · cases h

/-- Settles O52: the placed state stands at `FETCH` with `rst` quiet, fetches the placed word, and
decodes it as the table does. -/
theorem placedWordRunsNext : Obligations.PlacedWordRunsNext := by
  intro s nbits w i hcfg hw
  have hd : decode (s.withFetchWord nbits w).cfg (w % 2 ^ nbits) = .instr i := by
    rw [← decode_of_decodeTableWord hw, ← hcfg]
    rfl
  rw [step_of_fetch_quiet (s := s.withFetchWord nbits w) rfl rfl]
  exact runInstruction_of_instr (fetchWord_placeWord _ s) hd

end Sys2Proof.Machine
